-- ==== Sys2Proof/Word.lean ====
section
/-! DEFINITION. The word types of the engine: 64-bit registers and port words, 8-bit octets. -/

namespace Sys2Proof

/-- A register, a command word or an element of VALUE_IN and VALUE_OUT (R19, R35). -/
abbrev Word := BitVec 64

/-- An element of OCTET_IN and OCTET_OUT (R38). -/
abbrev Octet := BitVec 8

end Sys2Proof
end

