-- ==== Sys2Proof/Syntax.lean ====
section
/-! DEFINITION. The instructions: one constructor per row of the opcode table. Seventeen are command words (R72), four
are header codes of the bitstream (R81). -/

namespace Sys2Proof

/-- An instruction of the engine.

`n` is field N, the width of a field in bits (R73); `sg` is field S, true for a signed field (R74); `d` is field D, true
to discard the decoded values (R75). -/
inductive Instr
  /-- NOP (R134). -/
  | nop
  /-- SETPOS (R91). -/
  | setpos
  /-- ADVANCE (R92). -/
  | advance
  /-- GETPOS (R93). -/
  | getpos
  /-- READBIT (R94). -/
  | readbit
  /-- WRITEBIT (R95). -/
  | writebit
  /-- READ n, READ.S n (R96). -/
  | read (n : BitVec 7) (sg : Bool)
  /-- WRITE n (R97). -/
  | write (n : BitVec 7)
  /-- ALIGN (R98). -/
  | align
  /-- APPEND n (R99). -/
  | append (n : BitVec 7)
  /-- EXTRACT n, EXTRACT.S n (R101). -/
  | extract (n : BitVec 7) (sg : Bool)
  /-- ENCODE_FRAME (R110). -/
  | encodeFrame
  /-- DECODE_FRAME, with or without D (R122). -/
  | decodeFrame (d : Bool)
  /-- SERIALIZE (R129). -/
  | serialize
  /-- LOAD (R131). -/
  | load
  /-- CLEAR (R136). -/
  | clear
  /-- CLRERR (R135). -/
  | clrerr
  /-- Header H1: reuse the previous block's s (R81). -/
  | h1
  /-- Header H4: s = b3, 0 to 6 (R81). -/
  | h4 (b3 : Fin 7)
  /-- Header H6: s = 7 + b2, b2 from 0 to 2 (R81). -/
  | h6 (b2 : Fin 3)
  /-- Header H12: s = 10 + b6; b6 from 55 up is an illegal code that decoding a block reports as Corrupt (R81, R82). -/
  | h12 (b6 : BitVec 6)
  deriving DecidableEq, Repr

/-- The four header codes by themselves: what an encoder chooses among and what a decoder finds at POS (R80, R81). -/
inductive Header
  | h1
  | h4 (b3 : Fin 7)
  | h6 (b2 : Fin 3)
  | h12 (b6 : BitVec 6)
  deriving DecidableEq, Repr

/-- A header code as an instruction. -/
def Header.toInstr : Header → Instr
  | .h1 => .h1
  | .h4 b3 => .h4 b3
  | .h6 b2 => .h6 b2
  | .h12 b6 => .h12 b6

end Sys2Proof
end

