-- ==== Sys2Proof/WellFormed.lean ====
section
/-! DEFINITION. Which terms of `Instr` are instructions: the four that take a width take one from 1 to 64 (R73, R78).
Every other operand's range is its type. -/

namespace Sys2Proof

/-- A legal field width: 1 to 64 bits (R73). -/
def widthLegal (n : BitVec 7) : Bool := decide (1 ≤ n.toNat) && decide (n.toNat ≤ 64)

/-- The instruction is one that some legal command word or some header code of the bitstream stands for. -/
def Instr.wellFormed : Instr → Bool
  | .nop => true
  | .setpos => true
  | .advance => true
  | .getpos => true
  | .readbit => true
  | .writebit => true
  | .read n _ => widthLegal n
  | .write n => widthLegal n
  | .align => true
  | .append n => widthLegal n
  | .extract n _ => widthLegal n
  | .encodeFrame => true
  | .decodeFrame _ => true
  | .serialize => true
  | .load => true
  | .clear => true
  | .clrerr => true
  | .h1 => true
  | .h4 _ => true
  | .h6 _ => true
  | .h12 _ => true

end Sys2Proof
end

