-- ==== Sys2Proof/Decode.lean ====
section
/-! DEFINITION. The decoder, total on any command word and any run of stream bits, and after it the encoder, written
from the same tables (R70 to R83). -/

namespace Sys2Proof

/-- Why bits are no instruction. The first three are the sub-causes of ILLEGAL, in the order they are checked (R76 to
R78, R143); the last is a header code cut off before its end (R116). -/
inductive Reject
  | opcode
  | reserved
  | width
  | truncated
  deriving DecidableEq, Repr

/-- Bits as the engine meets them: a whole command word, or the stream bits of a header, of which `avail` may be read,
as a number whose bit 0 is the first stream bit (R81). -/
inductive Code
  | command (w : Word)
  | header (avail h : Nat)
  deriving DecidableEq, Repr

/-! ## Command words -/

/-- Field OP, bits [7:0] (R70). -/
def opField (w : Word) : BitVec 8 := w.extractLsb' 0 8

/-- Field N, bits [14:8] (R70, R73). -/
def nField (w : Word) : BitVec 7 := w.extractLsb' 8 7

/-- Field S, bit [15] (R70, R74). -/
def sField (w : Word) : Bool := w.getLsbD 15

/-- Field D, bit [16] (R70, R75). -/
def dField (w : Word) : Bool := w.getLsbD 16

/-- The opcode map (R72), each opcode with the fields its command uses. -/
def instrOfOp (op : Nat) (n : BitVec 7) (sg d : Bool) : Option Instr :=
  match op with
  | 0x00 => some .nop
  | 0x01 => some .setpos
  | 0x02 => some .advance
  | 0x03 => some .getpos
  | 0x04 => some .readbit
  | 0x05 => some .writebit
  | 0x06 => some (.read n sg)
  | 0x07 => some (.write n)
  | 0x08 => some .align
  | 0x09 => some (.append n)
  | 0x0A => some (.extract n sg)
  | 0x10 => some .encodeFrame
  | 0x11 => some (.decodeFrame d)
  | 0x18 => some .serialize
  | 0x19 => some .load
  | 0x1E => some .clear
  | 0x1F => some .clrerr
  | _ => none

/-- The bits of a command word that the instruction's command uses, OP among them; every other bit must be 0 (R71,
R76). -/
def usedBits : Instr → Word
  | .read _ _ => 0xFFFF#64
  | .extract _ _ => 0xFFFF#64
  | .write _ => 0x7FFF#64
  | .append _ => 0x7FFF#64
  | .decodeFrame _ => 0x100FF#64
  | _ => 0xFF#64

/-- The command a command word stands for, or the first check it fails: opcode, then reserved fields, then width
(R76 to R78, R143). -/
def decodeCommand (w : Word) : Except Reject Instr :=
  match instrOfOp (opField w).toNat (nField w) (sField w) (dField w) with
  | none => .error .opcode
  | some i =>
    if w &&& ~~~(usedBits i) ≠ 0#64 then .error .reserved
    else if i.wellFormed = false then .error .width
    else .ok i

/-! ## Header codes -/

/-- The header code that stream bits begin with, read as R115 reads them: 1 bit, then 3, then 2, then 6, each read only
if that many bits are left (`none` if not, R116). Every run of 12 bits begins with one (R82, R83). -/
def decodeHeader (avail h : Nat) : Option Header :=
  if avail < 1 then none
  else if h % 2 = 1 then some .h1
  else if avail < 4 then none
  else if hb : h / 2 % 8 < 7 then some (.h4 ⟨h / 2 % 8, hb⟩)
  else if avail < 6 then none
  else if hb : h / 16 % 4 < 3 then some (.h6 ⟨h / 16 % 4, hb⟩)
  else if avail < 12 then none
  else some (.h12 (BitVec.ofNat 6 (h / 64)))

/-- The decoder of both encodings. -/
def decode : Code → Except Reject Instr
  | .command w => decodeCommand w
  | .header avail h =>
    match decodeHeader avail h with
    | none => .error .truncated
    | some hd => .ok hd.toInstr

/-- The instruction the decoder reads from an opcode-table row's bits: a row of at most 16 bits is a header code (its
first stream bit is bit 0, R81), any other a command word (log 16). -/
def decodeTableWord (nbits w : Nat) : Option Instr :=
  if nbits ≤ 16 then (decode (.header 12 w)).toOption
  else (decode (.command (BitVec.ofNat 64 w))).toOption

/-! ## The encoder -/

/-- The length of a header code in bits (R81). -/
def headerLen : Header → Nat
  | .h1 => 1
  | .h4 _ => 4
  | .h6 _ => 6
  | .h12 _ => 12

/-- A header code as a number, its first stream bit as bit 0 (R81, R105). -/
def headerBits : Header → Nat
  | .h1 => 1
  | .h4 b3 => 2 * b3.val
  | .h6 b2 => 14 + 16 * b2.val
  | .h12 b6 => 62 + 64 * b6.toNat

/-- A command word from its fields (R70). -/
def packFields (op : BitVec 8) (n : BitVec 7) (sg d : Bool) : Word :=
  op.setWidth 64 ||| (n.setWidth 64 <<< 8) ||| ((BitVec.ofBool sg).setWidth 64 <<< 15) |||
    ((BitVec.ofBool d).setWidth 64 <<< 16)

/-- A header code's code: its own length and bits. -/
def headerCode (hd : Header) : Code := .header (headerLen hd) (headerBits hd)

/-- The bits of a well-formed instruction (R70, R72, R81). -/
def encode : Instr → Code
  | .nop => .command (packFields 0x00#8 0 false false)
  | .setpos => .command (packFields 0x01#8 0 false false)
  | .advance => .command (packFields 0x02#8 0 false false)
  | .getpos => .command (packFields 0x03#8 0 false false)
  | .readbit => .command (packFields 0x04#8 0 false false)
  | .writebit => .command (packFields 0x05#8 0 false false)
  | .read n sg => .command (packFields 0x06#8 n sg false)
  | .write n => .command (packFields 0x07#8 n false false)
  | .align => .command (packFields 0x08#8 0 false false)
  | .append n => .command (packFields 0x09#8 n false false)
  | .extract n sg => .command (packFields 0x0A#8 n sg false)
  | .encodeFrame => .command (packFields 0x10#8 0 false false)
  | .decodeFrame d => .command (packFields 0x11#8 0 false d)
  | .serialize => .command (packFields 0x18#8 0 false false)
  | .load => .command (packFields 0x19#8 0 false false)
  | .clear => .command (packFields 0x1E#8 0 false false)
  | .clrerr => .command (packFields 0x1F#8 0 false false)
  | .h1 => headerCode .h1
  | .h4 b3 => headerCode (.h4 b3)
  | .h6 b2 => headerCode (.h6 b2)
  | .h12 b6 => headerCode (.h12 b6)

/-- The command word of an instruction, 0 for a header code (which has none). -/
def commandWord (i : Instr) : Word :=
  match encode i with
  | .command w => w
  | .header _ _ => 0#64

end Sys2Proof
end

