-- ==== Sys2Proof/Config.lean ====
section
/-! DEFINITION. What one instance of the engine fixes (the parameters of 00_scope.md), and the values the spec
leaves free, as constants with no body. -/

namespace Sys2Proof

/-- W, the width of a buffer word: one of 8, 16, 32 and 64 bits (R5). -/
inductive WordWidth
  | w8 | w16 | w32 | w64
  deriving DecidableEq, Repr

/-- W / 8, the octets of one buffer word. -/
def WordWidth.octets : WordWidth → Nat
  | .w8 => 1
  | .w16 => 2
  | .w32 => 4
  | .w64 => 8

/-- W in bits. -/
def WordWidth.bits (w : WordWidth) : Nat := 8 * w.octets

/-- The parameters of one instance (R5, R6, R8): plain data that no step changes, so that a statement about every
state holds for every instance. -/
structure Params where
  /-- W (R5). -/
  width : WordWidth
  /-- BUF_WORDS (R6). -/
  bufWords : Nat
  /-- VIN_DEPTH (R8). -/
  vinDepth : Nat
  /-- VOUT_DEPTH (R8). -/
  voutDepth : Nat
  /-- OIN_DEPTH (R8). -/
  oinDepth : Nat
  /-- OOUT_DEPTH (R8). -/
  ooutDepth : Nat
  deriving DecidableEq, Repr

/-- The octets of BUF. -/
def Params.octets (p : Params) : Nat := p.width.octets * p.bufWords

/-- CAP = W * BUF_WORDS, the capacity in bits (R6). -/
def Params.cap (p : Params) : Nat := 8 * p.octets

/-- The legal parameters: BUF_WORDS and the depths at least 1 and CAP below 2^63 (R6, R8). -/
def Params.legal (p : Params) : Bool :=
  decide (1 ≤ p.bufWords) && decide (p.cap < 2 ^ 63) && decide (1 ≤ p.vinDepth) && decide (1 ≤ p.voutDepth) &&
    decide (1 ≤ p.oinDepth) && decide (1 ≤ p.ooutDepth)

/-- The instance `State.reset` stands for: the W and BUF_WORDS the vectors of 95_test_vectors.md use, and FIFOs of 64
elements. DESIGN CHOICE, unsafe (log 1): the spec leaves all six open. -/
def Params.vectors : Params :=
  { width := .w32, bufWords := 64, vinDepth := 64, voutDepth := 64, oinDepth := 64, ooutDepth := 64 }

/-- BUF_INIT: bit `p` of BUF after the `era`-th reset, before any command writes it (R39, R160; 93 U1, U2). Free:
DESIGN CHOICE, safe (log 2, 3). -/
opaque Config.bufInit : (era p : Nat) → Bool

/-- What the `k`-th free read answers when the host reads a register other than STATUS while BUSY = 1 (R45; 93 U3).
Free: DESIGN CHOICE, safe (log 4). -/
opaque Config.busyRead : (k : Nat) → Word

/-- What the `k`-th free read answers at an offset above 0xFF (R34; 93 U7), or below 0x70 and no register's. Free: DESIGN CHOICE, safe (log 5, 6). -/
opaque Config.undecodedRead : (k : Nat) → Word

/-- ENGINE_BASE: the platform's address of the register block (R151; 93 U8). Free: DESIGN CHOICE, safe (log 19). -/
opaque Config.engineBase : Nat

end Sys2Proof
end

