-- ==== Sys2Proof/Machine/State.lean ====
section
/-! DEFINITION. The state of one engine (10_state.md), the host and platform actions still to come, and the ways a step
can stop. -/

namespace Sys2Proof.Machine

/-- BUF (R39), held by octets: `written` says which bits a command has written since reset (an unlisted octet: none of
its bits), `value` their values (an unlisted octet: all 0). A bit no command has written is BUF_INIT's, the free
`Config.bufInit era` (R39). Both lists are in one canonical form, `Memory.wf` of
Machine/Ops.lean. -/
structure Memory where
  /-- The values of the written bits, octet by octet; a bit that is not written is 0 here. -/
  value : List Host.Cell
  /-- Which bits are written, octet by octet. -/
  written : List Host.Cell
  /-- How many resets have redrawn BUF_INIT. -/
  era : Nat
  deriving DecidableEq, Repr

/-- The command being executed and its progress (R40). BUSY is 1 exactly while there is one (R22, R40). -/
inductive InFlight
  /-- The command word written to CMD; nothing of it is done yet (R21). -/
  | issued (w : Word)
  /-- APPEND n: `done` fields are written. -/
  | append (n : BitVec 7) (done : Nat)
  /-- EXTRACT n: `done` fields are pushed. -/
  | extract (n : BitVec 7) (sg : Bool) (done : Nat)
  /-- SERIALIZE: `done` octets are pushed. -/
  | serialize (done : Nat)
  /-- LOAD: `done` octets are written. -/
  | load (done : Nat)
  /-- ENCODE_FRAME: `nextIx` is the index of the next value, `vals` are the words of the current block popped so far, in
  order, and `start` is where that block begins. -/
  | encode (nextIx : Nat) (vals : List Word) (start : Word)
  /-- DECODE_FRAME: values below `nextIx` are read from BUF, of which `out` are not pushed yet; the current block begins
  at `start`. With `out` empty the engine is about to fetch a header at POS (R41). -/
  | decode (d : Bool) (nextIx : Nat) (out : List Word) (start : Word)
  deriving DecidableEq, Repr

/-- What the host or the platform does next (R17, R88, R159). -/
inductive HostAct
  /-- A write of a 64-bit register at a byte offset of the register block (R19). -/
  | write (off : Nat) (v : Word)
  /-- A read of a 64-bit register at a byte offset (R19). -/
  | read (off : Nat)
  /-- A push to VALUE_IN. -/
  | pushValue (x : Word)
  /-- A push to OCTET_IN. -/
  | pushOctet (o : Octet)
  /-- A pop from VALUE_OUT. -/
  | popValue
  /-- A pop from OCTET_OUT. -/
  | popOctet
  /-- Poll STATUS until BUSY = 0 (R88, `wait`). -/
  | waitIdle
  /-- Leave this turn to the engine. -/
  | pass
  /-- The platform asserts the reset input (R159). -/
  | reset
  deriving DecidableEq, Repr

/-- What the host has got from the engine: a register's value, or an element it popped (R176). -/
inductive Seen
  | register (off : Nat) (v : Word)
  | value (x : Word)
  | octet (o : Octet)
  deriving DecidableEq, Repr

/-- One entry of the fault record that CLRERR does not clear: ERR, ERR_SUB and ERR_OP of a raised error (R157). -/
structure FaultEntry where
  err : BitVec 4
  errSub : BitVec 4
  errOp : BitVec 8
  deriving DecidableEq, Repr

/-- The engine, its ports, and what the host and the platform will still do. -/
structure State where
  /-- The parameters of this instance (R5, R6, R8); no step changes them. -/
  par : Params
  /-- The command in flight (R40); STATUS.BUSY is 1 exactly when there is one (R22). -/
  inflight : Option InFlight
  /-- STATUS.OVR (R22, R45). -/
  ovr : Bool
  /-- STATUS.ERR (R22, R138). -/
  err : BitVec 4
  /-- STATUS.ERR_SUB (R22, R138). -/
  errSub : BitVec 4
  /-- STATUS.ERR_OP (R22, R141). -/
  errOp : BitVec 8
  /-- ARG (R23). -/
  arg : Word
  /-- CNT (R24). -/
  cnt : Word
  /-- RESULT (R25). -/
  result : Word
  /-- POS, the bit cursor (R27). -/
  pos : Word
  /-- LIMIT (R26). -/
  limit : Word
  /-- CFG (R28). -/
  cfg : Word
  /-- NVALUES (R30). -/
  nvalues : Word
  /-- PREV_S (R31). -/
  prevS : BitVec 7
  /-- FRAME_START (R32). -/
  frameStart : Word
  /-- FRAME_BITS (R32). -/
  frameBits : Word
  /-- BUF (R39). -/
  buf : Memory
  /-- VALUE_IN, oldest element first (R35). -/
  valueIn : List Word
  /-- VALUE_OUT, oldest element first (R35). -/
  valueOut : List Word
  /-- OCTET_IN, oldest element first (R35). -/
  octetIn : List Octet
  /-- OCTET_OUT, oldest element first (R35). -/
  octetOut : List Octet
  /-- The host's and the platform's coming actions, next first: the model's own field (log 8). -/
  host : List HostAct
  /-- What the host has got, newest first: the model's own field (log 21). -/
  seen : List Seen
  /-- How many free reads the host has made: the model's own field (log 26). -/
  draws : Nat
  /-- The fault record, newest first (R157; log 12). -/
  faults : List FaultEntry
  deriving DecidableEq, Repr

/-- Why the model stops. Every constructor is raised only in a state that breaks an invariant of R26, R27 or R40 and
that no run from reset reaches; each is safe (log 14). -/
inductive Fault
  /-- SERIALIZE or ENCODE_FRAME finds POS above CAP, which R27 excludes: an access to a bit that does not exist. Safe. -/
  | cursorOutsideBuffer
  /-- DECODE_FRAME or a header code finds LIMIT above CAP, which R26 excludes. Safe. -/
  | limitOutsideBuffer
  /-- A resumed APPEND, EXTRACT or LOAD would reach outside BUF, which its check at the start excludes
  (R56, R90). Safe. -/
  | progressOutsideBuffer
  deriving DecidableEq, Repr

/-- Why an instruction has no meaning here. -/
inductive Refusal
  /-- An instruction whose arm of `exec` has no meaning yet; none is left. Safe. -/
  | notModelled (mnemonic : String)
  /-- A header code run while no DECODE_FRAME stands at a block boundary: header codes are read only there (R41, R115);
  `step` never does it. Safe (log 15). -/
  | headerOutsideDecode
  deriving DecidableEq, Repr

/-- The machine right after reset (R44, R161): every register at the value R44 gives, the FIFOs empty, no command in
flight, nothing of BUF written (R39). The instance, and the model's own fields, are DESIGN CHOICE (log 1, 3, 8, 12, 21,
26). -/
def State.reset : State where
  par := Params.vectors
  inflight := none
  ovr := false
  err := 0#4
  errSub := 0#4
  errOp := 0#8
  arg := 0#64
  cnt := 0#64
  result := 0#64
  pos := 0#64
  limit := 0#64
  cfg := 0x3100C#64
  nvalues := 0#64
  prevS := 0#7
  frameStart := 0#64
  frameBits := 0#64
  buf := { value := [], written := [], era := 0 }
  valueIn := []
  valueOut := []
  octetIn := []
  octetOut := []
  host := []
  seen := []
  draws := 0
  faults := []

end Sys2Proof.Machine
end

