-- ==== Sys2Proof/Machine/Flags.lean ====
section
/-! DEFINITION. STATUS: its fields as one word, and the codes of the errors a command raises (R22, R138). -/

namespace Sys2Proof.Machine

/-- The errors of R138, each with its sub-cause. -/
inductive Cause
  /-- CORRUPT, TRUNCATED: a read during decode would pass LIMIT. -/
  | corruptTruncated
  /-- CORRUPT, WIDTH: a header gives s > 64. -/
  | corruptWidth
  /-- PARAM_MISMATCH, SIGN: signed values into an unsigned destination. -/
  | mismatchSign
  /-- PARAM_MISMATCH, NARROW: the destination is narrower than PB and clamping is not enabled. -/
  | mismatchNarrow
  /-- BOUNDS: an access or cursor move outside 0 .. CAP. -/
  | bounds
  /-- RANGE: a VALUE_IN word is not a PB-bit value of the configured signedness. -/
  | range
  /-- CONFIG, BLOCK: CFG.BLOCK outside 1 to 64. -/
  | configBlock
  /-- CONFIG, PB: CFG.PB outside 1 to 64. -/
  | configPb
  /-- ILLEGAL, OPCODE: a reserved opcode. -/
  | illegalOpcode
  /-- ILLEGAL, RESERVED: a nonzero reserved or unused field. -/
  | illegalReserved
  /-- ILLEGAL, WIDTH: a field width outside 1 to 64. -/
  | illegalWidth
  deriving DecidableEq, Repr

/-- The ERR code of a cause (R138). -/
def errCode : Cause → BitVec 4
  | .corruptTruncated => 1#4
  | .corruptWidth => 1#4
  | .mismatchSign => 2#4
  | .mismatchNarrow => 2#4
  | .bounds => 3#4
  | .range => 4#4
  | .configBlock => 5#4
  | .configPb => 5#4
  | .illegalOpcode => 6#4
  | .illegalReserved => 6#4
  | .illegalWidth => 6#4

/-- The ERR_SUB code of a cause (R138). -/
def errSubCode : Cause → BitVec 4
  | .corruptTruncated => 1#4
  | .corruptWidth => 2#4
  | .mismatchSign => 1#4
  | .mismatchNarrow => 2#4
  | .bounds => 0#4
  | .range => 0#4
  | .configBlock => 1#4
  | .configPb => 2#4
  | .illegalOpcode => 1#4
  | .illegalReserved => 2#4
  | .illegalWidth => 3#4

/-- STATUS.BUSY: a command is in flight (R22, R40). -/
def busy (s : State) : Bool := s.inflight.isSome

/-- STATUS as the host reads it; the reserved bits are 0 (R22). -/
def statusWord (s : State) : Word :=
  (BitVec.ofBool (busy s)).setWidth 64 ||| ((BitVec.ofBool s.ovr).setWidth 64 <<< 1) |||
    (s.err.setWidth 64 <<< 4) ||| (s.errSub.setWidth 64 <<< 8) ||| (s.errOp.setWidth 64 <<< 16)

end Sys2Proof.Machine
end

