-- ==== Sys2Proof/Machine/Operands.lean ====
section
/-! DEFINITION. Operand forms and the arithmetic of the codec: CFG's fields, the formats of the ports' elements, the
significant-bit count, header selection and the saturating clamp. -/

namespace Sys2Proof.Machine

/-! ## Integers (R11, R13) -/

/-- `ceil8(p)`, the next multiple of 8 at or above `p` (R13, R98). -/
def ceil8 (p : Nat) : Nat := 8 * ((p + 7) / 8)

/-- `bitlen(x)`, the 1-based position of the highest set bit, 0 for 0 (R13). -/
def bitlen (x : Nat) : Nat := if x = 0 then 0 else Nat.log2 x + 1

/-- `low_n(v)` as a number: `v mod 2^n` (R11). -/
def lowBits (n : Nat) (v : Int) : Nat := (v % (2 ^ n : Nat)).toNat

/-- The integer an `n`-bit field holds: `sint` when `sg`, else `uint` (R11, R74). A field of no bits is 0 (R119). -/
def fieldInt (sg : Bool) (n f : Nat) : Int :=
  if sg then (BitVec.ofNat n f).toInt else (BitVec.ofNat n f).toNat

/-- The 64-bit word of an `n`-bit field: `sext_64` when `sg`, else `zext_64` (R11, R96). -/
def fieldWord (sg : Bool) (n f : Nat) : Word :=
  if sg then (BitVec.ofNat n f).signExtend 64 else (BitVec.ofNat n f).zeroExtend 64

/-- `clamp(v, lo, hi)` (R13). -/
def clamp (v lo hi : Int) : Int := if v < lo then lo else if hi < v then hi else v

/-! ## CFG (R28) -/

/-- The bits of CFG that are kept; the reserved ones read 0 and ignore writes (R19, R28). -/
def cfgMask : Word := 0xF7FFF#64

/-- CFG.BLOCK, bits [6:0]: B. -/
def cfgBlock (c : Word) : Nat := (c.extractLsb' 0 7).toNat

/-- CFG.SIGNED, bit [7]: true for signed values. -/
def cfgSigned (c : Word) : Bool := c.getLsbD 7

/-- CFG.PB, bits [14:8]: the width of the original values. -/
def cfgPb (c : Word) : Nat := (c.extractLsb' 8 7).toNat

/-- CFG.DWC, bits [17:16]. -/
def cfgDwc (c : Word) : Nat := (c.extractLsb' 16 2).toNat

/-- CFG.DSIGNED, bit [18]. -/
def cfgDsigned (c : Word) : Bool := c.getLsbD 18

/-- CFG.CLAMP_EN, bit [19]. -/
def cfgClampEn (c : Word) : Bool := c.getLsbD 19

/-! ## The destination of a decoded value (R37, R100) -/

/-- DW, the destination width: `8 << DWC` (R100). -/
def dstWidth (c : Word) : Nat := 8 * 2 ^ cfgDwc c

/-- DMIN, the least value the destination holds (R100). -/
def dstMin (c : Word) : Int := if cfgDsigned c then -(2 ^ (dstWidth c - 1) : Nat) else 0

/-- DMAX, the greatest value the destination holds (R100). -/
def dstMax (c : Word) : Int := if cfgDsigned c then (2 ^ (dstWidth c - 1) : Nat) - 1 else (2 ^ dstWidth c : Nat) - 1

/-- The word pushed for a decoded integer: clamped into the destination's range (R100), then its low DW bits extended
to 64 (R37). -/
def deliverWord (c : Word) (v : Int) : Word :=
  fieldWord (cfgDsigned c) (dstWidth c) (lowBits (dstWidth c) (clamp v (dstMin c) (dstMax c)))

/-! ## The source values of a block (R36) -/

/-- Whether a VALUE_IN word is a `pb`-bit value of signedness `sg` (R36). -/
def wordLegal (sg : Bool) (pb : Nat) (x : Word) : Bool :=
  if sg then x == (x.setWidth pb).signExtend 64 else x == (x.setWidth pb).zeroExtend 64

/-- The value a legal word carries (R36). -/
def wordValue (sg : Bool) (pb : Nat) (x : Word) : Int :=
  if sg then (x.setWidth pb).toInt else (x.setWidth pb).toNat

/-- `setbits`: the bitwise OR of the magnitudes of a block's values (R102, R103). -/
def setbits : List Int → Nat
  | [] => 0
  | v :: r => v.natAbs ||| setbits r

/-- The significant-bit count of a block (R102 unsigned, R103 signed). -/
def sigBits (sg : Bool) (pb : Nat) (vs : List Int) : Nat :=
  if sg then (if setbits vs = 0 then 0 else min pb (1 + bitlen (setbits vs))) else bitlen (setbits vs)

/-- Header selection (R105): reuse if `s` is the previous block's, else the one form whose range holds `s`. -/
def selectHeader (prev s : Nat) : Header :=
  if s = prev then .h1
  else if h4 : s < 7 then .h4 ⟨s, h4⟩
  else if h6 : s < 10 then .h6 ⟨s - 7, by omega⟩
  else .h12 (BitVec.ofNat 6 (s - 10))

end Sys2Proof.Machine
end

