-- ==== Sys2Proof/Machine/Ops.lean ====
section
/-! DEFINITION. The shared operations: BUF's bits and fields, raising and clearing an error, ending and holding a
command. -/

namespace Sys2Proof.Machine

/-! ## Octet lists in canonical form -/

/-- The octet listed at `k`, 0 if none is. -/
def cellGet : List Host.Cell → Nat → BitVec 8
  | [], _ => 0#8
  | (a, v) :: r, k => if a = k then v else cellGet r k

/-- The list with the octet `v` at `k`, in canonical form: in order, and no entry where the octet is 0. -/
def cellSet : List Host.Cell → Nat → BitVec 8 → List Host.Cell
  | [], k, v => if v = 0#8 then [] else [(k, v)]
  | (a, w) :: r, k, v =>
    if k < a then (if v = 0#8 then (a, w) :: r else (k, v) :: (a, w) :: r)
    else if k = a then (if v = 0#8 then r else (k, v) :: r)
    else (a, w) :: cellSet r k v

/-- Strictly rising addresses, all of them at least `lo`, and no entry 0, which is what an unlisted octet reads as. -/
def cellsWf : Nat → List Host.Cell → Bool
  | _, [] => true
  | lo, (a, v) :: r => decide (lo ≤ a) && decide (v ≠ 0#8) && cellsWf (a + 1) r

/-- The canonical form of BUF: both lists in order with no 0 entry, and values only where bits are written. -/
def Memory.wf (m : Memory) : Bool :=
  cellsWf 0 m.value && cellsWf 0 m.written && m.value.all (fun c => c.2 &&& ~~~(cellGet m.written c.1) == 0#8)

/-- No octet at or above `octets` is written: BUF holds CAP bits and no more (R39, R47). -/
def Memory.within (m : Memory) (octets : Nat) : Bool := m.written.all (fun c => decide (c.1 < octets))

/-! ## Bits and fields of BUF (R12, R50 to R52) -/

/-- Octet `k` of the values, the written bits' only. -/
def Memory.valueAt (m : Memory) (k : Nat) : BitVec 8 := cellGet m.value k

/-- Octet `k` of the written bits. -/
def Memory.writtenAt (m : Memory) (k : Nat) : BitVec 8 := cellGet m.written k

/-- Stream bit `p` (R9): what was written there last, or BUF_INIT's bit if nothing was (R39, R62). -/
def memBit (m : Memory) (p : Nat) : Bool :=
  if (m.writtenAt (p / 8)).getLsbD (p % 8) then (m.valueAt (p / 8)).getLsbD (p % 8) else Config.bufInit m.era p

/-- The octet with only bit `j` set. -/
def bitMask (j : Nat) : BitVec 8 := 1#8 <<< j

/-- Stream bit `p` set to `b`; no other bit changes (R12, R59). -/
def setBit (m : Memory) (p : Nat) (b : Bool) : Memory :=
  { m with
    value := cellSet m.value (p / 8)
      (if b then m.valueAt (p / 8) ||| bitMask (p % 8) else m.valueAt (p / 8) &&& ~~~(bitMask (p % 8)))
    written := cellSet m.written (p / 8) (m.writtenAt (p / 8) ||| bitMask (p % 8)) }

/-- `uint(MemRead(p, n))`: stream bit `p + i` has weight `2^i` (R12, R52). -/
def memRead (m : Memory) (p : Nat) : Nat → Nat
  | 0 => 0
  | n + 1 => (memBit m p).toNat + 2 * memRead m (p + 1) n

/-- `MemWrite(p, n, v)`: stream bit `p + i` becomes bit `i` of `v`, for `i` below `n` (R12, R52). -/
def memWrite (m : Memory) (p : Nat) : (n v : Nat) → Memory
  | 0, _ => m
  | n + 1, v => memWrite (setBit m p (v % 2 == 1)) (p + 1) n (v / 2)

/-- The `w`-bit fields one after the other from `p` (R84, R107). -/
def writeFields (m : Memory) (p w : Nat) : List Nat → Memory
  | [] => m
  | v :: r => writeFields (memWrite m p w v) (p + w) w r

/-- The `n` fields of `w` bits each from `p`, as numbers (R84, R118). -/
def readFields (m : Memory) (p w : Nat) : (n : Nat) → List Nat
  | 0 => []
  | n + 1 => memRead m p w :: readFields m (p + w) w n

/-- Octets `c` to `o - 1` set to 0, the ones below `c` kept (R132, R136). -/
def zeroOctets (m : Memory) (c o : Nat) : Memory :=
  { m with
    value := m.value.filter (fun x => decide (x.1 < c))
    written := m.written.filter (fun x => decide (x.1 < c)) ++ (List.range' c (o - c)).map (fun k => (k, 0xFF#8)) }

/-- Octet `k` of the payload (R38, R51). -/
def bufOctet (m : Memory) (k : Nat) : Octet := BitVec.ofNat 8 (memRead m (8 * k) 8)

/-- Word `k` of BUF for words of `w` bits (R39, R50): the word view, of which no command's rule speaks. -/
def bufWord (m : Memory) (w k : Nat) : Nat := memRead m (k * w) w

/-! ## Registers -/

/-- CAP in bits (R6, R33). -/
def capOf (s : State) : Nat := s.par.cap

/-- ID: "TRPX" below W (R33). -/
def idWord (s : State) : Word := BitVec.ofNat 64 (0x54525058 + s.par.width.bits * 2 ^ 32)

/-! ## Errors: entry and return -/

/-- The end of a command, normal or by an error: BUSY falls (R22, R137). -/
def retire (s : State) : State := { s with inflight := none }

/-- A command that must wait at a port stays in flight (R14, R40); DECODE_FRAME also notes a block boundary so, and passes
it in the same turn (R16). -/
def hold (f : InFlight) (s : State) : State := { s with inflight := some f }

/-- `raise ERR(code, sub)` in the command with opcode `op` (R15, R139): ERR, ERR_SUB and ERR_OP are written, the command
ends, BUSY falls. The command's partial effects are already in `s` (R142). The fault record keeps the error (R157). -/
def raise (op : BitVec 8) (c : Cause) (s : State) : State :=
  { s with
    inflight := none
    err := errCode c
    errSub := errSubCode c
    errOp := op
    faults := { err := errCode c, errSub := errSubCode c, errOp := op } :: s.faults }

/-- The return from an error (R135, R146): ERR, ERR_SUB, ERR_OP and OVR become 0 and nothing else changes. -/
def clearError (s : State) : State := { s with ovr := false, err := 0#4, errSub := 0#4, errOp := 0#8 }

end Sys2Proof.Machine
end

