-- ==== Sys2Proof/Machine/BitCursor.lean ====
section
/-! DEFINITION. The BitCursor commands (40_bitcursor.md), in the order of the opcode table. -/

namespace Sys2Proof.Machine

/-- SETPOS: POS becomes ARG, an unsigned bit index (R91). -/
def execSetpos (s : State) : Host.Outcome State Fault Refusal :=
  if capOf s < s.arg.toNat then .next (raise 0x01#8 .bounds s)
  else .next (retire { s with pos := s.arg })

/-- ADVANCE: POS moves by ARG, a signed bit count, with no wrap (R92). -/
def execAdvance (s : State) : Host.Outcome State Fault Refusal :=
  let q : Int := s.pos.toNat + s.arg.toInt
  if q < 0 ∨ (capOf s : Int) < q then .next (raise 0x02#8 .bounds s)
  else .next (retire { s with pos := BitVec.ofInt 64 q })

/-- GETPOS: RESULT becomes POS (R93). -/
def execGetpos (s : State) : Host.Outcome State Fault Refusal := .next (retire { s with result := s.pos })

/-- READBIT: RESULT becomes the bit at POS; POS stays (R94). -/
def execReadbit (s : State) : Host.Outcome State Fault Refusal :=
  if capOf s < s.pos.toNat + 1 then .next (raise 0x04#8 .bounds s)
  else .next (retire { s with result := fieldWord false 1 (memRead s.buf s.pos.toNat 1) })

/-- WRITEBIT: the bit at POS becomes ARG[0]; POS stays (R95). -/
def execWritebit (s : State) : Host.Outcome State Fault Refusal :=
  if capOf s < s.pos.toNat + 1 then .next (raise 0x05#8 .bounds s)
  else .next (retire { s with buf := memWrite s.buf s.pos.toNat 1 s.arg.toNat })

/-- READ n: RESULT becomes the field at POS, extended to 64 bits, and POS moves past it (R96). -/
def execRead (n : BitVec 7) (sg : Bool) (s : State) : Host.Outcome State Fault Refusal :=
  if widthLegal n = false then .next (raise 0x06#8 .illegalWidth s)
  else if capOf s < s.pos.toNat + n.toNat then .next (raise 0x06#8 .bounds s)
  else
    .next (retire { s with
      result := fieldWord sg n.toNat (memRead s.buf s.pos.toNat n.toNat)
      pos := BitVec.ofNat 64 (s.pos.toNat + n.toNat) })

/-- WRITE n: the field at POS becomes the low n bits of ARG, and POS moves past it (R97). -/
def execWrite (n : BitVec 7) (s : State) : Host.Outcome State Fault Refusal :=
  if widthLegal n = false then .next (raise 0x07#8 .illegalWidth s)
  else if capOf s < s.pos.toNat + n.toNat then .next (raise 0x07#8 .bounds s)
  else
    .next (retire { s with
      buf := memWrite s.buf s.pos.toNat n.toNat s.arg.toNat
      pos := BitVec.ofNat 64 (s.pos.toNat + n.toNat) })

/-- ALIGN: POS moves up to a multiple of 8 (R98). -/
def execAlign (s : State) : Host.Outcome State Fault Refusal :=
  .next (retire { s with pos := BitVec.ofNat 64 (ceil8 s.pos.toNat) })

/-- The fields of APPEND still to be written, `left` of them: one word popped for each, its low n bits written at POS;
the command waits while VALUE_IN is empty (R99). -/
def appendLoop (n : BitVec 7) : (left : Nat) → State → State
  | 0, s => retire s
  | left + 1, s =>
    match s.valueIn with
    | [] => hold (.append n (s.cnt.toNat - (left + 1))) s
    | x :: q =>
      appendLoop n left { s with
        valueIn := q
        buf := memWrite s.buf s.pos.toNat n.toNat x.toNat
        pos := BitVec.ofNat 64 (s.pos.toNat + n.toNat) }

/-- APPEND n: CNT words from VALUE_IN, each written as n bits (R99). -/
def execAppend (n : BitVec 7) (s : State) : Host.Outcome State Fault Refusal :=
  if widthLegal n = false then .next (raise 0x09#8 .illegalWidth s)
  else if capOf s < s.pos.toNat + s.cnt.toNat * n.toNat then .next (raise 0x09#8 .bounds s)
  else .next (appendLoop n s.cnt.toNat s)

/-- APPEND goes on after a wait (R14, R40). -/
def resumeAppend (n : BitVec 7) (done : Nat) (s : State) : Host.Outcome State Fault Refusal :=
  if capOf s < s.pos.toNat + (s.cnt.toNat - done) * n.toNat then .fault .progressOutsideBuffer
  else .next (appendLoop n (s.cnt.toNat - done) s)

/-- The fields of EXTRACT still to be read, `left` of them: each clamped into the destination and pushed; the command
waits while VALUE_OUT is full (R101). -/
def extractLoop (n : BitVec 7) (sg : Bool) : (left : Nat) → State → State
  | 0, s => retire s
  | left + 1, s =>
    if s.valueOut.length < s.par.voutDepth then
      extractLoop n sg left { s with
        valueOut :=
          s.valueOut ++ [deliverWord s.cfg (fieldInt sg n.toNat (memRead s.buf s.pos.toNat n.toNat))]
        pos := BitVec.ofNat 64 (s.pos.toNat + n.toNat) }
    else hold (.extract n sg (s.cnt.toNat - (left + 1))) s

/-- EXTRACT n: CNT fields of n bits to VALUE_OUT (R101). -/
def execExtract (n : BitVec 7) (sg : Bool) (s : State) : Host.Outcome State Fault Refusal :=
  if widthLegal n = false then .next (raise 0x0A#8 .illegalWidth s)
  else if capOf s < s.pos.toNat + s.cnt.toNat * n.toNat then .next (raise 0x0A#8 .bounds s)
  else .next (extractLoop n sg s.cnt.toNat s)

/-- EXTRACT goes on after a wait (R14, R40). -/
def resumeExtract (n : BitVec 7) (sg : Bool) (done : Nat) (s : State) : Host.Outcome State Fault Refusal :=
  if capOf s < s.pos.toNat + (s.cnt.toNat - done) * n.toNat then .fault .progressOutsideBuffer
  else .next (extractLoop n sg (s.cnt.toNat - done) s)

end Sys2Proof.Machine
end

