-- ==== Sys2Proof/Machine/Control.lean ====
section
/-! DEFINITION. The control commands (44_control.md): NOP, CLRERR, CLEAR. -/

namespace Sys2Proof.Machine

/-- NOP: nothing but the command's end (R134). -/
def execNop (s : State) : Host.Outcome State Fault Refusal := .next (retire s)

/-- CLRERR: the error fields and OVR become 0 (R135). -/
def execClrerr (s : State) : Host.Outcome State Fault Refusal := .next (retire (clearError s))

/-- CLEAR: every bit of BUF and POS become 0 (R136). -/
def execClear (s : State) : Host.Outcome State Fault Refusal :=
  .next (retire { s with buf := zeroOctets s.buf 0 s.par.octets, pos := 0#64 })

end Sys2Proof.Machine
end

