-- ==== Sys2Proof/Machine/DecodeFrame.lean ====
section
/-! DEFINITION. DECODE_FRAME and the four header codes (42_decode.md). A header code is fetched at POS (R41, R115); its
meaning is to decode the block it heads. -/

namespace Sys2Proof.Machine

/-- The end of a frame: FRAME_BITS, POS up to a byte boundary, RESULT the next frame's byte offset (R121, R122, R124). -/
def finishDecode (s : State) : State :=
  let a := ceil8 s.pos.toNat
  retire { s with
    frameBits := s.pos - s.frameStart
    pos := BitVec.ofNat 64 a
    result := BitVec.ofNat 64 (a / 8) }

/-- The block's words still to be pushed; the command waits while VALUE_OUT is full. After the last of them the frame
ends, or the next block begins at POS (R122). -/
def deliverLoop (d : Bool) (ix : Nat) (start : Word) : List Word → State → State
  | [], s => if s.nvalues.toNat ≤ ix then finishDecode s else hold (.decode d ix [] s.pos) s
  | y :: r, s =>
    if s.valueOut.length < s.par.voutDepth then
      deliverLoop d ix start r { s with valueOut := s.valueOut ++ [y] }
    else hold (.decode d ix (y :: r) start) s

/-- CORRUPT in the block that began at `start`: POS goes back there (R123). -/
def corruptBlock (c : Cause) (start : Word) (s : State) : State := raise 0x11#8 c { s with pos := start }

/-- One block, under a header of `len` bits that gives `sig`: TRUNCATED if the header passes LIMIT, WIDTH, TRUNCATED if
the body does (R116 to R118, R143); else its values, clamped, and PREV_S (R118, R119, R122). -/
def decodeBlock (d : Bool) (ix : Nat) (start : Word) (len sig : Nat) (s : State) : State :=
  let n := min (cfgBlock s.cfg) (s.nvalues.toNat - ix)
  let body := s.pos.toNat + len
  if s.limit.toNat < body then corruptBlock .corruptTruncated start s
  else if 64 < sig then corruptBlock .corruptWidth start s
  else if s.limit.toNat < body + n * sig then corruptBlock .corruptTruncated start s
  else
    deliverLoop d (ix + n) start
      (if d then []
        else (readFields s.buf body sig n).map fun f => deliverWord s.cfg (fieldInt (cfgSigned s.cfg) sig f))
      { s with pos := BitVec.ofNat 64 (body + n * sig), prevS := BitVec.ofNat 7 sig }

/-- A header code where a DECODE_FRAME stands at a block boundary; nowhere else is one read (R41, R115; log 15). -/
def execHeader (len sig : Nat) (s : State) : Host.Outcome State Fault Refusal :=
  match s.inflight with
  | some (.decode d ix [] start) =>
    if capOf s < s.limit.toNat then .fault .limitOutsideBuffer else .next (decodeBlock d ix start len sig s)
  | _ => .refused .headerOutsideDecode

/-- H1: the block has the previous block's s (R81, R115). -/
def execH1 (s : State) : Host.Outcome State Fault Refusal := execHeader 1 s.prevS.toNat s

/-- H4: s = b3 (R81, R115). -/
def execH4 (b3 : Fin 7) (s : State) : Host.Outcome State Fault Refusal := execHeader 4 b3.val s

/-- H6: s = 7 + b2 (R81, R115). -/
def execH6 (b2 : Fin 3) (s : State) : Host.Outcome State Fault Refusal := execHeader 6 (7 + b2.val) s

/-- H12: s = 10 + b6 (R81, R115). -/
def execH12 (b6 : BitVec 6) (s : State) : Host.Outcome State Fault Refusal := execHeader 12 (10 + b6.toNat) s

/-- The meaning of the header code fetched. -/
def runHeader : Header → State → Host.Outcome State Fault Refusal
  | .h1, s => execH1 s
  | .h4 b3, s => execH4 b3 s
  | .h6 b2, s => execH6 b2 s
  | .h12 b6, s => execH12 b6 s

/-- The header code at POS, `none` if LIMIT cuts it off: no bit at or above LIMIT is read (R26, R115, R116; log 24). -/
def fetchHeader (s : State) : Option Header :=
  let a := min 12 (s.limit.toNat - s.pos.toNat)
  decodeHeader a (memRead s.buf s.pos.toNat a)

/-- The blocks of the frame in flight one after the other, until the frame ends, an error ends it, or a push must wait
(R16, R122). Every header takes a bit below LIMIT, so LIMIT bounds how many there can be. -/
def decodeLoop : (fuel : Nat) → State → Host.Outcome State Fault Refusal
  | 0, s => .next s
  | fuel + 1, s =>
    match s.inflight with
    | some (.decode _ _ [] start) =>
      match fetchHeader s with
      | none => .next (corruptBlock .corruptTruncated start s)
      | some hd =>
        match runHeader hd s with
        | .next s' => decodeLoop fuel s'
        | .fault f => .fault f
        | .refused r => .refused r
    | _ => .next s

/-- DECODE_FRAME from where it stands: past every block boundary in the same turn, so that only a push that must wait
holds it (R14, R16; log 10). -/
def decodeBlocks (s : State) : Host.Outcome State Fault Refusal := decodeLoop (s.limit.toNat + 1) s

/-- The frame start: POS up to a byte boundary, FRAME_START, PREV_S = 0 (R121, R122). -/
def decodeStart (s : State) : State :=
  let a := BitVec.ofNat 64 (ceil8 s.pos.toNat)
  { s with pos := a, frameStart := a, prevS := 0#7 }

/-- DECODE_FRAME: NVALUES values from the bits at POS to VALUE_OUT, or to nowhere with D (R120, R122, R75). -/
def execDecodeFrame (d : Bool) (s : State) : Host.Outcome State Fault Refusal :=
  if ¬(1 ≤ cfgBlock s.cfg ∧ cfgBlock s.cfg ≤ 64) then .next (raise 0x11#8 .configBlock s)
  else if ¬(1 ≤ cfgPb s.cfg ∧ cfgPb s.cfg ≤ 64) then .next (raise 0x11#8 .configPb s)
  else if cfgSigned s.cfg = true ∧ cfgDsigned s.cfg = false then .next (raise 0x11#8 .mismatchSign s)
  else if dstWidth s.cfg < cfgPb s.cfg ∧ cfgClampEn s.cfg = false then .next (raise 0x11#8 .mismatchNarrow s)
  else if capOf s < s.limit.toNat then .fault .limitOutsideBuffer
  else decodeBlocks (deliverLoop d 0 (decodeStart s).pos [] (decodeStart s))

/-- DECODE_FRAME goes on after a wait: the rest of the block's words are pushed, and the later blocks follow (R14, R16,
R40). -/
def resumeDecode (d : Bool) (ix : Nat) (out : List Word) (start : Word) (s : State) :
    Host.Outcome State Fault Refusal :=
  decodeBlocks (deliverLoop d ix start out s)

end Sys2Proof.Machine
end

