-- ==== Sys2Proof/Machine/Encode.lean ====
section
/-! DEFINITION. ENCODE_FRAME (41_encode.md): the frame start, one block, the loop over the frame's values. -/

namespace Sys2Proof.Machine

/-- The frame start: zeros up to the next byte boundary, POS there, FRAME_START, PREV_S = 0 (R109, R110). -/
def encodeStart (s : State) : State :=
  let a := ceil8 s.pos.toNat
  { s with
    buf := memWrite s.buf s.pos.toNat (a - s.pos.toNat) 0
    pos := BitVec.ofNat 64 a
    frameStart := BitVec.ofNat 64 a
    prevS := 0#7 }

/-- The `s` of a block of legal words (R102, R103). -/
def blockBits (s : State) (xs : List Word) : Nat :=
  sigBits (cfgSigned s.cfg) (cfgPb s.cfg) (xs.map (wordValue (cfgSigned s.cfg) (cfgPb s.cfg)))

/-- One block: RANGE, then BOUNDS, before any bit is written; then the header at POS, PREV_S, and the body (R105 to
R107, R110, R111). -/
def encodeBlock (xs : List Word) (s : State) : Except Cause State :=
  let sig := blockBits s xs
  let hd := selectHeader s.prevS.toNat sig
  let p := s.pos.toNat
  let body := p + headerLen hd
  if xs.all (wordLegal (cfgSigned s.cfg) (cfgPb s.cfg)) = false then .error .range
  else if capOf s < body + xs.length * sig then .error .bounds
  else
    .ok { s with
      buf := writeFields (memWrite s.buf p (headerLen hd) (headerBits hd)) body sig
        (xs.map (fun x => lowBits sig (wordValue (cfgSigned s.cfg) (cfgPb s.cfg) x)))
      pos := BitVec.ofNat 64 (body + xs.length * sig)
      prevS := BitVec.ofNat 7 sig }

/-- The end of a frame: FRAME_BITS and RESULT (R110, R112). -/
def finishEncode (s : State) : State :=
  retire { s with frameBits := s.pos - s.frameStart, result := s.pos - s.frameStart }

/-- The values still to be popped, `left` of them, with `vals` popped for the current block, which began at `start`. A
block is written when its last value has been popped; an error leaves POS at the block's start (R110, R111). The
command waits while VALUE_IN is empty (R14). -/
def encodeLoop : (left : Nat) → (vals : List Word) → (start : Word) → State → State
  | 0, _, _, s => finishEncode s
  | left + 1, vals, start, s =>
    match s.valueIn with
    | [] => hold (.encode (s.nvalues.toNat - (left + 1)) vals start) s
    | x :: q =>
      let xs := vals ++ [x]
      if xs.length < min (cfgBlock s.cfg) (xs.length + left) then encodeLoop left xs start { s with valueIn := q }
      else
        match encodeBlock xs { s with valueIn := q } with
        | .error c => raise 0x10#8 c { s with valueIn := q, pos := start }
        | .ok s' => encodeLoop left [] s'.pos s'

/-- ENCODE_FRAME: NVALUES words from VALUE_IN, encoded at POS (R110). -/
def execEncodeFrame (s : State) : Host.Outcome State Fault Refusal :=
  if ¬(1 ≤ cfgBlock s.cfg ∧ cfgBlock s.cfg ≤ 64) then .next (raise 0x10#8 .configBlock s)
  else if ¬(1 ≤ cfgPb s.cfg ∧ cfgPb s.cfg ≤ 64) then .next (raise 0x10#8 .configPb s)
  else if capOf s < s.pos.toNat then .fault .cursorOutsideBuffer
  else .next (encodeLoop s.nvalues.toNat [] (encodeStart s).pos (encodeStart s))

/-- ENCODE_FRAME goes on after a wait (R14, R40). -/
def resumeEncode (nextIx : Nat) (vals : List Word) (start : Word) (s : State) :
    Host.Outcome State Fault Refusal :=
  .next (encodeLoop (s.nvalues.toNat - nextIx) vals start s)

end Sys2Proof.Machine
end

