-- ==== Sys2Proof/Machine/Serializer.lean ====
section
/-! DEFINITION. The byte serializer (43_serializer.md): SERIALIZE and LOAD. -/

namespace Sys2Proof.Machine

/-- Payload octet `k` of a bitstream that ends at bit `e`, the bits from `e` up forced to 0 (R129). Bits from `e` up are
not read, which gives the same octet (log 25). -/
def payloadOctet (m : Memory) (e k : Nat) : Octet := BitVec.ofNat 8 (memRead m (8 * k) (min 8 (e - 8 * k)))

/-- The payload's length in octets (R128). -/
def payloadOctets (s : State) : Nat := (s.pos.toNat + 7) / 8

/-- The octets still to be pushed, `left` of them; the command waits while OCTET_OUT is full (R129). -/
def serializeLoop : (left : Nat) → State → State
  | 0, s => retire { s with result := BitVec.ofNat 64 (payloadOctets s) }
  | left + 1, s =>
    if s.octetOut.length < s.par.ooutDepth then
      serializeLoop left { s with
        octetOut := s.octetOut ++ [payloadOctet s.buf s.pos.toNat (payloadOctets s - (left + 1))] }
    else hold (.serialize (payloadOctets s - (left + 1))) s

/-- SERIALIZE: the payload below POS to OCTET_OUT; RESULT is its length (R129). -/
def execSerialize (s : State) : Host.Outcome State Fault Refusal :=
  if capOf s < s.pos.toNat then .fault .cursorOutsideBuffer else .next (serializeLoop (payloadOctets s) s)

/-- SERIALIZE goes on after a wait (R14, R40). -/
def resumeSerialize (done : Nat) (s : State) : Host.Outcome State Fault Refusal :=
  if capOf s < s.pos.toNat then .fault .cursorOutsideBuffer else .next (serializeLoop (payloadOctets s - done) s)

/-- The end of LOAD: the zero fill, LIMIT, POS and RESULT (R131, R132). -/
def finishLoad (s : State) : State :=
  retire { s with
    buf := zeroOctets s.buf s.cnt.toNat s.par.octets
    limit := BitVec.ofNat 64 (8 * s.cnt.toNat)
    pos := 0#64
    result := s.cnt }

/-- The octets still to be popped, `left` of them; the command waits while OCTET_IN is empty (R131). -/
def loadLoop : (left : Nat) → State → State
  | 0, s => finishLoad s
  | left + 1, s =>
    match s.octetIn with
    | [] => hold (.load (s.cnt.toNat - (left + 1))) s
    | o :: q =>
      loadLoop left { s with
        octetIn := q
        buf := memWrite s.buf (8 * (s.cnt.toNat - (left + 1))) 8 o.toNat }

/-- LOAD: CNT octets from OCTET_IN to BUF from bit 0 (R131). -/
def execLoad (s : State) : Host.Outcome State Fault Refusal :=
  if capOf s < 8 * s.cnt.toNat then .next (raise 0x19#8 .bounds s) else .next (loadLoop s.cnt.toNat s)

/-- LOAD goes on after a wait (R14, R40). -/
def resumeLoad (done : Nat) (s : State) : Host.Outcome State Fault Refusal :=
  if capOf s < 8 * s.cnt.toNat then .fault .progressOutsideBuffer else .next (loadLoop (s.cnt.toNat - done) s)

end Sys2Proof.Machine
end

