-- ==== Sys2Proof/Machine/Dispatch.lean ====
section
/-! DEFINITION. One arm per instruction. -/

namespace Sys2Proof.Machine

def exec (i : Instr) (s : State) : Host.Outcome State Fault Refusal :=
  match i with
  | .nop => Sys2Proof.Machine.execNop s
  | .setpos => Sys2Proof.Machine.execSetpos s
  | .advance => Sys2Proof.Machine.execAdvance s
  | .getpos => Sys2Proof.Machine.execGetpos s
  | .readbit => Sys2Proof.Machine.execReadbit s
  | .writebit => Sys2Proof.Machine.execWritebit s
  | .read n sg => Sys2Proof.Machine.execRead n sg s
  | .write n => Sys2Proof.Machine.execWrite n s
  | .align => Sys2Proof.Machine.execAlign s
  | .append n => Sys2Proof.Machine.execAppend n s
  | .extract n sg => Sys2Proof.Machine.execExtract n sg s
  | .encodeFrame => Sys2Proof.Machine.execEncodeFrame s
  | .decodeFrame d => Sys2Proof.Machine.execDecodeFrame d s
  | .serialize => Sys2Proof.Machine.execSerialize s
  | .load => Sys2Proof.Machine.execLoad s
  | .clear => Sys2Proof.Machine.execClear s
  | .clrerr => Sys2Proof.Machine.execClrerr s
  | .h1 => Sys2Proof.Machine.execH1 s
  | .h4 b3 => Sys2Proof.Machine.execH4 b3 s
  | .h6 b2 => Sys2Proof.Machine.execH6 b2 s
  | .h12 b6 => Sys2Proof.Machine.execH12 b6 s

end Sys2Proof.Machine
end

