-- ==== Sys2Proof/Machine/Engine.lean ====
section
/-! DEFINITION. What the engine does on its own turn besides running an instruction: raising ILLEGAL for a word that is
no command (R76 to R78), and going on with a command that had to wait (R14, R40). And where an instruction is put so that
the next step runs it. -/

namespace Sys2Proof.Machine

/-- The cause ILLEGAL reports for a rejected command word (R76 to R78). -/
def rejectCause : Reject → Cause
  | .opcode => .illegalOpcode
  | .reserved => .illegalReserved
  | .width => .illegalWidth
  | .truncated => .corruptTruncated

/-- A command word that is no command: ILLEGAL, ERR_OP its bits [7:0], and no other effect (R76 to R78, R139). -/
def illegalCommand (w : Word) (r : Reject) (s : State) : State := raise (opField w) (rejectCause r) s

/-- A command that had to wait goes on. A word just issued is not waiting; Step.lean decodes it. -/
def resume (f : InFlight) (s : State) : Host.Outcome State Fault Refusal :=
  match f with
  | .issued _ => .next s
  | .append n done => resumeAppend n done s
  | .extract n sg done => resumeExtract n sg done s
  | .serialize done => resumeSerialize done s
  | .load done => resumeLoad done s
  | .encode ix vals start => resumeEncode ix vals start s
  | .decode d ix out start => resumeDecode d ix out start s

/-- After the block of a fetched header code, DECODE_FRAME goes on in the same turn (R16; log 10). -/
def decodeOn : Host.Outcome State Fault Refusal → Host.Outcome State Fault Refusal
  | .next s => decodeBlocks s
  | .fault f => .fault f
  | .refused r => .refused r

/-- A command word issued, and the turn the engine's: its next step runs it. -/
def placeCommand (w : Word) (s : State) : State :=
  { s with inflight := some (.issued w), host := .pass :: s.host }

/-- Where a header code is put: at POS, or at bit 0 where POS leaves no room for 12 bits. -/
def headerPlace (s : State) : Word := if s.pos.toNat + 12 ≤ capOf s then s.pos else 0#64

/-- A header code where a DECODE_FRAME of one value (D = 1) stands at a block boundary, LIMIT at CAP, and the turn the
engine's: its next step fetches and runs it (log 16). -/
def placeHeader (h : Nat) (s : State) : State :=
  { s with
    inflight := some (.decode true 0 [] (headerPlace s))
    pos := headerPlace s
    limit := BitVec.ofNat 64 (capOf s)
    nvalues := 1#64
    buf := memWrite s.buf (headerPlace s).toNat 12 h
    host := .pass :: s.host }

end Sys2Proof.Machine
end

