-- ==== Sys2Proof/Machine/Host.lean ====
section
/-! DEFINITION. What the host and the platform do to the engine: register reads and writes (R19 to R34, R45), port
pushes and pops (R35), reset (R160), and the host-script statements (R88, R89). -/

namespace Sys2Proof.Machine

/-! ## Registers -/

/-- The offsets of the register map, 0x00 to 0x68 in steps of 8 (R20). -/
def isRegister (off : Nat) : Bool := decide (off % 8 = 0) && decide (off ≤ 0x68)

/-- The offsets whose reads the engine answers: its registers', and all of 0x70 to 0xFF (R19, R34). -/
def isDecoded (off : Nat) : Bool := isRegister off || (decide (0x70 ≤ off) && decide (off ≤ 0xFF))

/-- What the host reads at a decoded offset (R20 to R34). CMD and the reserved offsets read 0 (R21, R34). -/
def readRegister (s : State) (off : Nat) : Word :=
  match off with
  | 0x08 => statusWord s
  | 0x10 => s.arg
  | 0x18 => s.cnt
  | 0x20 => s.result
  | 0x28 => s.pos
  | 0x30 => s.limit
  | 0x38 => s.cfg
  | 0x40 => s.nvalues
  | 0x48 => s.prevS.setWidth 64
  | 0x50 => s.frameStart
  | 0x58 => s.frameBits
  | 0x60 => BitVec.ofNat 64 (capOf s)
  | 0x68 => idWord s
  | _ => 0#64

/-- The host gets `v` for its read at `off`. -/
def observe (off : Nat) (v : Word) (s : State) : State := { s with seen := .register off v :: s.seen }

/-- A host read. While BUSY = 1 a register other than STATUS reads as a free value (R45); an offset above 0xFF,
or below 0x70 and no register's, reads as a free value at any time (R34; log 5, 6). -/
def hostRead (off : Nat) (s : State) : State :=
  if isDecoded off = false then { observe off (Config.undecodedRead s.draws) s with draws := s.draws + 1 }
  else if busy s ∧ isRegister off ∧ off ≠ 0x08 then
    { observe off (Config.busyRead s.draws) s with draws := s.draws + 1 }
  else observe off (readRegister s off) s

/-- A write of CMD while BUSY = 0: it starts the command, unless ERR is not 0 and the word is not CLRERR's; then it is
dropped (R21, R140). -/
def writeCmd (v : Word) (s : State) : State :=
  if s.err ≠ 0#4 ∧ v ≠ 0x1F#64 then s else { s with inflight := some (.issued v) }

/-- A host write. While BUSY = 1 it only sets OVR (R45). Read-only registers, reserved and other offsets ignore it (R19,
R34), LIMIT keeps at most CAP (R26), CFG's reserved bits stay 0 (R28). -/
def hostWrite (off : Nat) (v : Word) (s : State) : State :=
  if busy s then (if isRegister off then { s with ovr := true } else s)
  else
    match off with
    | 0x00 => writeCmd v s
    | 0x10 => { s with arg := v }
    | 0x18 => { s with cnt := v }
    | 0x30 => { s with limit := BitVec.ofNat 64 (min v.toNat (capOf s)) }
    | 0x38 => { s with cfg := v &&& cfgMask }
    | 0x40 => { s with nvalues := v }
    | _ => s

/-! ## Reset -/

/-- The reset input (R160): every register at its reset value, the FIFOs empty, the command in flight abandoned, BUF
unspecified again. The parameters, the host's coming actions and the model's records stay (log 3, 18). -/
def platformReset (s : State) : State :=
  { State.reset with
    par := s.par
    buf := { value := [], written := [], era := s.buf.era + 1 }
    host := s.host
    seen := s.seen
    draws := s.draws
    faults := s.faults }

/-! ## One action -/

/-- The action taken, or `none` while it must wait for the engine: a push while the FIFO is full, a pop while it is empty
(log 9), a poll while BUSY = 1 (R88). `pass` takes no action. -/
def hostAct (a : HostAct) (s : State) : Option State :=
  match a with
  | .write off v => some (hostWrite off v s)
  | .read off => some (hostRead off s)
  | .pushValue x =>
    if s.valueIn.length < s.par.vinDepth then some { s with valueIn := s.valueIn ++ [x] } else none
  | .pushOctet o =>
    if s.octetIn.length < s.par.oinDepth then some { s with octetIn := s.octetIn ++ [o] } else none
  | .popValue =>
    match s.valueOut with
    | [] => none
    | y :: q => some { s with valueOut := q, seen := .value y :: s.seen }
  | .popOctet =>
    match s.octetOut with
    | [] => none
    | o :: q => some { s with octetOut := q, seen := .octet o :: s.seen }
  | .waitIdle => if busy s then none else some s
  | .pass => none
  | .reset => some (platformReset s)

/-! ## Host scripts (R88, R89) -/

/-- The platform address of a register: ENGINE_BASE plus its offset (R20, R151). -/
def registerAddress (off : Nat) : Nat := Config.engineBase + off

/-- `cmd MNEMONIC` (R88). -/
def scriptCmd (i : Instr) : HostAct := .write 0x00 (commandWord i)

/-- `do MNEMONIC` (R89). -/
def scriptDo (i : Instr) : List HostAct := [scriptCmd i, .waitIdle]

/-- `setpos.i p` (R89). -/
def scriptSetpos (p : Word) : List HostAct := .write 0x10 p :: scriptDo .setpos

/-- `advance.i d` (R89). -/
def scriptAdvance (d : Word) : List HostAct := .write 0x10 d :: scriptDo .advance

/-- `write.i n, v` (R89). -/
def scriptWrite (n : BitVec 7) (v : Word) : List HostAct := .write 0x10 v :: scriptDo (.write n)

/-- `skipframe` (R89). -/
def scriptSkipFrame : List HostAct := scriptDo (.decodeFrame true)

/-- The CFG word of `cfg B, σ, PB, DWC, DSIGNED, CLAMP_EN` (R89). -/
def cfgWord (b σ pb dwc dsigned clampEn : Nat) : Word :=
  BitVec.ofNat 64 (b + σ * 2 ^ 7 + pb * 2 ^ 8 + dwc * 2 ^ 16 + dsigned * 2 ^ 18 + clampEn * 2 ^ 19)

/-- `cfg B, σ, PB, DWC, DSIGNED, CLAMP_EN` (R89). -/
def scriptCfg (b σ pb dwc dsigned clampEn : Nat) : HostAct := .write 0x38 (cfgWord b σ pb dwc dsigned clampEn)

end Sys2Proof.Machine
end

