-- ==== Sys2Proof/Machine/Step.lean ====
section
/-! DEFINITION. One step: the host's or the platform's next action, or the engine's turn. -/

namespace Sys2Proof.Machine

/-- The engine's turn. Idle, it does nothing (R161). A command word is decoded and run, or raises ILLEGAL (R21, R76 to
R78). At a block boundary of DECODE_FRAME, where only `withFetchWord` puts it (log 10, 16), the header code at POS is fetched and
run and the later blocks follow, or CORRUPT is raised if LIMIT cuts it off (R16, R41, R115, R116). Any other command in flight goes on (R14, R40). -/
def engineTurn (s : State) : Host.Outcome State Fault Refusal :=
  match s.inflight with
  | none => .next s
  | some (.issued w) =>
    match decodeCommand w with
    | .ok i => exec i s
    | .error r => .next (illegalCommand w r s)
  | some (.decode _ _ [] start) =>
    match fetchHeader s with
    | some hd => decodeOn (exec hd.toInstr s)
    | none => .next (corruptBlock .corruptTruncated start s)
  | some f => resume f s

/-- One step (R17, log 8): the next of the host's and platform's actions if it can be taken; the engine's turn where they
leave it to the engine, must wait for it, or have none left. -/
def step (s : State) : Host.Outcome State Fault Refusal :=
  match s.host with
  | [] => engineTurn s
  | .pass :: rest => engineTurn { s with host := rest }
  | a :: rest =>
    match hostAct a { s with host := rest } with
    | some s' => .next s'
    | none => engineTurn s

/-- The state whose next step runs the instruction an opcode-table row's bits stand for: a header code for a row of at
most 16 bits, else a command word (log 16). -/
def State.withFetchWord (s : State) (nbits w : Nat) : State :=
  if nbits ≤ 16 then placeHeader w s else placeCommand (BitVec.ofNat 64 w) s

end Sys2Proof.Machine
end

