-- ==== Sys2Proof/Machine/Stream.lean ====
section
/-! DEFINITION. The bitstream format of 30_encoding.md section 2 as lists of bits, first stream bit first (R81 to R86):
what the commands are measured against. No command uses these definitions. -/

namespace Sys2Proof.Machine

/-- A field of `w` bits, least significant bit first (R52). -/
def streamField (w v : Nat) : List Bool := (List.range w).map fun i => v.testBit i

/-- A header code's stream bits (R81). -/
def streamHeader : Header → List Bool
  | .h1 => [true]
  | .h4 b3 => false :: streamField 3 b3.val
  | .h6 b2 => [false, true, true, true] ++ streamField 2 b2.val
  | .h12 b6 => [false, true, true, true, true, true] ++ streamField 6 b6.toNat

/-- The `s` a header code gives after a block of `prev` (R81). -/
def headerSig (prev : Nat) : Header → Nat
  | .h1 => prev
  | .h4 b3 => b3.val
  | .h6 b2 => 7 + b2.val
  | .h12 b6 => 10 + b6.toNat

/-- The significant-bit count of a block of VALUE_IN words under CFG (R36, R102, R103). -/
def streamSig (c : Word) (xs : List Word) : Nat :=
  sigBits (cfgSigned c) (cfgPb c) (xs.map (wordValue (cfgSigned c) (cfgPb c)))

/-- A block: its header, then the low `s` bits of each word (R84, R105, R107). -/
def streamBlock (c : Word) (prev : Nat) (xs : List Word) : List Bool :=
  streamHeader (selectHeader prev (streamSig c xs)) ++ xs.flatMap fun x => streamField (streamSig c xs) x.toNat

/-- Blocks one after the other, each under the `s` of the one before it (R85, R106). -/
def streamBlocks (c : Word) : (prev : Nat) → List (List Word) → List Bool
  | _, [] => []
  | prev, xs :: r => streamBlock c prev xs ++ streamBlocks c (streamSig c xs) r

/-- The `s` of the last block, `prev` if there is none (R31, R106). -/
def lastSig (c : Word) : (prev : Nat) → List (List Word) → Nat
  | prev, [] => prev
  | _, xs :: r => lastSig c (streamSig c xs) r

/-- The partition of a frame's values into blocks of `b`: block `k` holds values `k*b` to `min(k*b+b, N)-1` (R85,
R108). -/
def blocksOf (b : Nat) (xs : List Word) : List (List Word) :=
  (List.range ((xs.length + b - 1) / b)).map fun k => (xs.drop (k * b)).take b

/-- A frame of values under CFG (R85): PREV_S is 0 before its first block. -/
def streamFrame (c : Word) (xs : List Word) : List Bool := streamBlocks c 0 (blocksOf (cfgBlock c) xs)

/-- PREV_S after a frame (R31). -/
def frameSig (c : Word) (xs : List Word) : Nat := lastSig c 0 (blocksOf (cfgBlock c) xs)

/-- BUF holds these bits from bit `p` on. -/
def holdsStream (m : Memory) (p : Nat) (bs : List Bool) : Prop := ∀ i (h : i < bs.length), memBit m (p + i) = bs[i]

end Sys2Proof.Machine
end

