-- ==== Sys2Proof/Safety.lean ====
section
/-! DEFINITION. What a sound state and a safe run are, in the terms the statements use. -/

namespace Sys2Proof.Machine

/-- CFG.BLOCK and CFG.PB are legal, as ENCODE_FRAME and DECODE_FRAME need (R29). -/
def codecLegal (c : Word) : Prop := (1 ≤ cfgBlock c ∧ cfgBlock c ≤ 64) ∧ 1 ≤ cfgPb c ∧ cfgPb c ≤ 64

/-- The destination fits, as DECODE_FRAME needs: neither cause of PARAM_MISMATCH (R120). -/
def destinationLegal (c : Word) : Prop :=
  ¬(cfgSigned c = true ∧ cfgDsigned c = false) ∧ ¬(dstWidth c < cfgPb c ∧ cfgClampEn c = false)

/-- The words are PB-bit values of CFG's signedness (R36). -/
def wordsLegal (c : Word) (xs : List Word) : Prop := ∀ x ∈ xs, wordLegal (cfgSigned c) (cfgPb c) x = true

/-- The command in flight agrees with the registers (R40): what its check at the start established still holds of what
is left of it. -/
def inflightSound (s : State) : InFlight → Prop
  | .issued w => s.err = 0#4 ∨ w = 0x1F#64
  | .append n done =>
    s.err = 0#4 ∧ widthLegal n = true ∧ done < s.cnt.toNat ∧
      s.pos.toNat + (s.cnt.toNat - done) * n.toNat ≤ capOf s
  | .extract n _ done =>
    s.err = 0#4 ∧ widthLegal n = true ∧ done < s.cnt.toNat ∧
      s.pos.toNat + (s.cnt.toNat - done) * n.toNat ≤ capOf s
  | .serialize done => s.err = 0#4 ∧ done < payloadOctets s
  | .load done => s.err = 0#4 ∧ done < s.cnt.toNat ∧ 8 * s.cnt.toNat ≤ capOf s
  | .encode ix vals start =>
    s.err = 0#4 ∧ codecLegal s.cfg ∧ ix < s.nvalues.toNat ∧ vals.length < cfgBlock s.cfg ∧ vals.length ≤ ix ∧
      start = s.pos
  | .decode d ix out start =>
    s.err = 0#4 ∧ codecLegal s.cfg ∧ destinationLegal s.cfg ∧ ix ≤ s.nvalues.toNat ∧ start.toNat ≤ capOf s ∧
      out.length ≤ 64 ∧ (d = true → out = []) ∧ (out = [] → ix < s.nvalues.toNat ∧ start = s.pos)

/-- A sound state: what R5 to R8, R22, R26 to R28, R31, R32, R35, R39 and R40 say of every state a run reaches. -/
structure Inv (s : State) : Prop where
  /-- The parameters are legal (R5, R6, R8). -/
  params : s.par.legal = true
  /-- BUF is in canonical form. -/
  bufWf : s.buf.wf = true
  /-- BUF holds CAP bits and no more (R39, R47). -/
  bufWithin : s.buf.within s.par.octets = true
  /-- POS <= CAP (R27). -/
  pos : s.pos.toNat ≤ capOf s
  /-- LIMIT <= CAP (R26). -/
  limit : s.limit.toNat ≤ capOf s
  /-- CFG's reserved bits read 0 (R28). -/
  cfg : s.cfg &&& ~~~cfgMask = 0#64
  /-- PREV_S is a significant-bit count (R31, R104, R117). -/
  prevS : s.prevS.toNat ≤ 64
  /-- FRAME_START is a byte-aligned bit index (R32, R55). -/
  frameStart : s.frameStart.toNat % 8 = 0 ∧ s.frameStart.toNat ≤ capOf s
  /-- ERR is one of the codes 0 to 6 (R138). -/
  err : s.err.toNat ≤ 6
  /-- ERR_SUB and ERR_OP are 0 when ERR = 0 (R22). -/
  errZero : s.err = 0#4 → s.errSub = 0#4 ∧ s.errOp = 0#8
  /-- The fault record has the error STATUS holds (R157). -/
  recorded : s.err ≠ 0#4 → s.faults.head? = some { err := s.err, errSub := s.errSub, errOp := s.errOp }
  /-- No FIFO holds more than its depth (R8, R35). -/
  vin : s.valueIn.length ≤ s.par.vinDepth
  vout : s.valueOut.length ≤ s.par.voutDepth
  oin : s.octetIn.length ≤ s.par.oinDepth
  oout : s.octetOut.length ≤ s.par.ooutDepth
  /-- The command in flight agrees with the registers (R40). -/
  inflight : ∀ f, s.inflight = some f → inflightSound s f

/-- The run so far has raised no error (R157): CLRERR does not clear the record. -/
def neverFailed (s : State) : Prop := s.faults = []

/-- `t` is `s` with an error recorded for opcode `op`, BUSY = 0, and nothing else changed (R139). -/
def raisedOnly (op : BitVec 8) (err errSub : BitVec 4) (s t : State) : Prop :=
  t = { s with
    inflight := none
    err := err
    errSub := errSub
    errOp := op
    faults := { err := err, errSub := errSub, errOp := op } :: s.faults }

/-- The turn is the engine's: the host has no action left, or must wait for the engine, with a poll while BUSY = 1 (R88),
a push to a full FIFO or a pop from an empty one (log 8, 9). -/
def hostWaits (s : State) : Prop :=
  match s.host with
  | [] => True
  | .waitIdle :: _ => s.inflight ≠ none
  | .pushValue _ :: _ => s.par.vinDepth ≤ s.valueIn.length
  | .pushOctet _ :: _ => s.par.oinDepth ≤ s.octetIn.length
  | .popValue :: _ => s.valueOut = []
  | .popOctet :: _ => s.octetOut = []
  | .pass :: _ => False
  | .write _ _ :: _ => False
  | .read _ :: _ => False
  | .reset :: _ => False

/-- The command in flight stands at a block boundary of DECODE_FRAME, where a header code is read (R115). -/
def atBoundary (s : State) : Prop := ∃ d ix start, s.inflight = some (.decode d ix [] start)

/-- The same engine with room for `k` more elements in each output FIFO (R8). -/
def deeper (k : Nat) (s : State) : State :=
  { s with par := { s.par with voutDepth := s.par.voutDepth + k, ooutDepth := s.par.ooutDepth + k } }

/-- The header code that begins at bit `p`, `none` if LIMIT cuts it off (R115, R116). -/
def headerAt (s : State) (p : Nat) : Option Header :=
  decodeHeader (min 12 (s.limit.toNat - p)) (memRead s.buf p (min 12 (s.limit.toNat - p)))

/-- DECODE_FRAME, or a header code, which DECODE_FRAME alone fetches (R41, R115). -/
def decodes (i : Instr) : Prop := (∃ d, i = .decodeFrame d) ∨ ∃ hd : Header, i = hd.toInstr

/-- Every bit of BUF reads as before. -/
def sameBits (s t : State) : Prop := ∀ q, memBit t.buf q = memBit s.buf q

/-- Every bit of BUF outside bits `lo` to `hi - 1` reads as before. -/
def sameBitsOutside (lo hi : Nat) (s t : State) : Prop :=
  ∀ q, (q < lo ∨ hi ≤ q) → memBit t.buf q = memBit s.buf q

end Sys2Proof.Machine
end

