-- ==== Sys2Proof/Certificates/Slice0/Obligations.lean ====
section
/-! DEFINITION. The statements for the provers. Rule numbers are those of spec/. -/

open Sys2Proof Sys2Proof.Machine

/-! ## Encodings -/

/-- R77, R72: exactly the words of a reserved opcode are rejected as such, whatever the other bits hold, and such a
command word raises ILLEGAL, 1 with its bits [7:0] as ERR_OP and has no other effect. -/
def Obligations.ReservedOpcodesRaiseIllegal : Prop :=
  ∀ w : Word,
    (decodeCommand w = .error .opcode ↔
      ((0x0B ≤ (opField w).toNat ∧ (opField w).toNat ≤ 0x0F) ∨ (0x12 ≤ (opField w).toNat ∧ (opField w).toNat ≤ 0x17) ∨
        (0x1A ≤ (opField w).toNat ∧ (opField w).toNat ≤ 0x1D) ∨ 0x20 ≤ (opField w).toNat)) ∧
    ∀ s : State, decodeCommand w = .error .opcode → s.inflight = some (.issued w) → s.host = [] →
      ∃ t, step s = .next t ∧ raisedOnly (w.extractLsb' 0 8) 6#4 1#4 s t

/-- R76, R71: a word of an assigned opcode is rejected for a reserved bit exactly when a bit above 16 is set, or D set
outside DECODE_FRAME, or S outside READ and EXTRACT, or N not 0 outside READ, WRITE, APPEND and EXTRACT; such a command
word raises ILLEGAL, 2 and has no other effect. -/
def Obligations.ReservedFieldsRaiseIllegal : Prop :=
  ∀ w : Word, decodeCommand w ≠ .error .opcode →
    (decodeCommand w = .error .reserved ↔
      ((∃ i, 17 ≤ i ∧ w.getLsbD i = true) ∨
        (dField w = true ∧ opField w ≠ 0x11#8) ∨
        (sField w = true ∧ opField w ≠ 0x06#8 ∧ opField w ≠ 0x0A#8) ∨
        (nField w ≠ 0#7 ∧ opField w ≠ 0x06#8 ∧ opField w ≠ 0x07#8 ∧ opField w ≠ 0x09#8 ∧ opField w ≠ 0x0A#8))) ∧
    ∀ s : State, decodeCommand w = .error .reserved → s.inflight = some (.issued w) → s.host = [] →
      ∃ t, step s = .next t ∧ raisedOnly (w.extractLsb' 0 8) 6#4 2#4 s t

/-- R78, R143: a word that passes the opcode and reserved checks is rejected for its width exactly when it is a READ,
WRITE, APPEND or EXTRACT whose n is 0 or above 64; such a command word raises ILLEGAL, 3 and has no other effect. -/
def Obligations.IllegalWidthsRaiseIllegal : Prop :=
  ∀ w : Word, decodeCommand w ≠ .error .opcode → decodeCommand w ≠ .error .reserved →
    (decodeCommand w = .error .width ↔
      ((opField w = 0x06#8 ∨ opField w = 0x07#8 ∨ opField w = 0x09#8 ∨ opField w = 0x0A#8) ∧
        ((nField w).toNat = 0 ∨ 64 < (nField w).toNat))) ∧
    ∀ s : State, decodeCommand w = .error .width → s.inflight = some (.issued w) → s.host = [] →
      ∃ t, step s = .next t ∧ raisedOnly (w.extractLsb' 0 8) 6#4 3#4 s t

/-- R70 to R83: decoding the encoding of any well-formed instruction gives it back, whatever its operands. -/
def Obligations.DecodeEncodeRoundTrip : Prop :=
  ∀ i : Instr, i.wellFormed = true → decode (encode i) = .ok i

/-- R70 to R76: a command word has one meaning and a command one word: what decodes is well formed and is written back as
the very same word. -/
def Obligations.CommandWordsAreCanonical : Prop :=
  ∀ (w : Word) (i : Instr), decodeCommand w = .ok i → i.wellFormed = true ∧ encode i = .command w

/-- R81 to R83: the number the encoder writes for a header code is the code's stream bits, first stream bit lowest, and
the code is found whatever bits follow it: no bit after it is needed. R83 is the spec's own inference, "No header is longer
than 12 bits and none depends on bits after it." -/
def Obligations.HeaderCodesArePrefixFree : Prop :=
  ∀ hd : Header, streamField (headerLen hd) (headerBits hd) = streamHeader hd ∧ headerBits hd < 2 ^ headerLen hd ∧
    ∀ tail avail : Nat, headerLen hd ≤ avail →
      decodeHeader avail (headerBits hd + 2 ^ headerLen hd * tail) = some hd

/-- R82, R83: every run of 12 stream bits begins with a header code, and with fewer bits left than that code is long none
is read. R83 is the spec's own inference, "A decoder tells the length of a header from its first bits". -/
def Obligations.HeaderCodesAreComplete : Prop :=
  ∀ h : Nat, ∃ hd, decodeHeader 12 h = some hd ∧
    (∃ tail, h % 2 ^ 12 = headerBits hd + 2 ^ headerLen hd * tail) ∧
    ∀ avail, avail < headerLen hd → decodeHeader avail h = none

/-- R88: some command words and header codes, written out from the tables. -/
def Obligations.SampleWordsDecode : Prop :=
  decodeTableWord 64 0x00008C06 = some (.read 12 true) ∧ decodeTableWord 64 0x00000507 = some (.write 5) ∧
    decodeTableWord 64 0x00010011 = some (.decodeFrame true) ∧ decodeTableWord 64 0x0000001F = some .clrerr ∧
    decodeTableWord 64 0x00000010 = some .encodeFrame ∧ decodeTableWord 64 0x00000018 = some .serialize ∧
    decodeTableWord 16 0x1BE = some (.h12 6) ∧ decodeTableWord 8 0x2E = some (.h6 2)

/-! ## Steps -/

/-- R21, R79: on the engine's turn a command word that decodes is run: the step is `exec` of it. The turn is the engine's
when the host has no action left, passes, or must wait for it: a poll while BUSY = 1, a push to a full FIFO, a pop from an
empty one (the model's host list, log 8, 9). -/
def Obligations.StepRunsIssuedCommand : Prop :=
  ∀ (s : State) (w : Word) (i : Instr), s.inflight = some (.issued w) → decodeCommand w = .ok i →
    (hostWaits s → step s = exec i s) ∧
      ∀ rest, s.host = .pass :: rest → step s = exec i { s with host := rest }

/-- R16, R41, R115: at a block boundary of DECODE_FRAME the header code at POS is run: the step is `exec` of it, after which
the blocks behind it follow in the same step: where `exec` leaves a block boundary the step is the one from there, else it
is `exec`'s next state. That header codes are instructions of their own is the model's reading (log 15); whose turn it is,
log 8 and 9. -/
def Obligations.StepRunsHeaderAtPos : Prop :=
  ∀ (s : State) (hd : Header), atBoundary s → fetchHeader s = some hd →
    (hostWaits s → step s = decodeOn (exec hd.toInstr s)) ∧
      (∀ rest, s.host = .pass :: rest → step s = decodeOn (exec hd.toInstr { s with host := rest })) ∧
      ∀ t, exec hd.toInstr s = .next t →
        (s.host = [] → atBoundary t → step s = step t) ∧ (hostWaits s → ¬atBoundary t → step s = .next t)

/-- R14, R16, R40, R161: a command in flight that is past its start and not at a block boundary of DECODE_FRAME goes on from
where it held, with what State holds of its progress; idle, the engine does nothing; and no step ends at a block boundary,
since a command is held only at a pop or push that must wait (the model's turns, log 8, 9, 10, 13). -/
def Obligations.StepGoesOnAfterWait : Prop :=
  ∀ s : State,
    (∀ f, s.inflight = some f → (∀ w, f ≠ .issued w) → ¬atBoundary s →
      (hostWaits s → step s = resume f s) ∧
        ∀ rest, s.host = .pass :: rest → step s = resume f { s with host := rest }) ∧
    (s.inflight = none → s.host = [] → step s = .next s) ∧
    ∀ t, hostWaits s → step s = .next t → ¬atBoundary t

/-- R21, R140: a host write of CMD with BUSY = 0 starts the command, except that with ERR not 0 every word but CLRERR's is
dropped with no effect. -/
def Obligations.CmdWriteStartsOrIsDropped : Prop :=
  ∀ (s : State) (v : Word) (rest : List HostAct), s.inflight = none → s.host = .write 0x00 v :: rest →
    ((s.err = 0#4 ∨ v = 0x1F#64) → step s = .next { s with inflight := some (.issued v), host := rest }) ∧
      ((s.err ≠ 0#4 ∧ v ≠ 0x1F#64) → step s = .next { s with host := rest })

/-! ## Control commands -/

/-- R134: NOP ends and nothing else changes. -/
def Obligations.NopChangesNothing : Prop :=
  ∀ s : State, ∃ t, exec .nop s = .next t ∧ t = { s with inflight := none } ∧ sameBits s t

/-- R135: CLRERR makes ERR, ERR_SUB, ERR_OP and OVR 0, so that STATUS reads 0, and changes no other register, no bit of
BUF and no port; the model's fault record stays. -/
def Obligations.ClrerrClearsStatusOnly : Prop :=
  ∀ s : State, ∃ t, exec .clrerr s = .next t ∧ statusWord t = 0#64 ∧
    t = { s with inflight := none, ovr := false, err := 0#4, errSub := 0#4, errOp := 0#8 } ∧ sameBits s t

/-- R136: CLEAR, the word 0x1E, makes every bit of BUF and POS 0 and changes nothing else. -/
def Obligations.ClearZeroesBuffer : Prop :=
  decodeCommand 0x1E#64 = .ok .clear ∧ ∀ s : State, ∃ t, exec .clear s = .next t ∧ t = { s with inflight := none, pos := 0#64, buf := t.buf } ∧
    ∀ q, q < capOf s → memBit t.buf q = false

/-! ## Cursor commands -/

/-- R91: SETPOS, the word 0x01, moves POS to ARG, read unsigned, when that is at most CAP (CAP itself included), and changes nothing
else; above CAP it raises BOUNDS. -/
def Obligations.SetposMovesOrRaises : Prop :=
  decodeCommand 0x01#64 = .ok .setpos ∧ ∀ s : State,
    (s.arg.toNat ≤ capOf s → ∃ t, exec .setpos s = .next t ∧ t = { s with inflight := none, pos := s.arg } ∧
      sameBits s t) ∧
    (capOf s < s.arg.toNat → ∃ t, exec .setpos s = .next t ∧ raisedOnly 0x01#8 3#4 0#4 s t)

/-- R92: ADVANCE, the word 0x02, moves POS by the signed ARG without wrapping when the new position lies in 0 .. CAP, and changes nothing
else; otherwise it raises BOUNDS. -/
def Obligations.AdvanceMovesOrRaises : Prop :=
  decodeCommand 0x02#64 = .ok .advance ∧ ∀ s : State, Inv s →
    ((0 ≤ (s.pos.toNat : Int) + s.arg.toInt ∧ (s.pos.toNat : Int) + s.arg.toInt ≤ capOf s) →
      ∃ t, exec .advance s = .next t ∧ (t.pos.toNat : Int) = s.pos.toNat + s.arg.toInt ∧
        t = { s with inflight := none, pos := t.pos } ∧ sameBits s t) ∧
    (¬(0 ≤ (s.pos.toNat : Int) + s.arg.toInt ∧ (s.pos.toNat : Int) + s.arg.toInt ≤ capOf s) →
      ∃ t, exec .advance s = .next t ∧ raisedOnly 0x02#8 3#4 0#4 s t)

/-- R93: GETPOS, the word 0x03, copies POS to RESULT and changes nothing else. -/
def Obligations.GetposCopiesCursor : Prop :=
  decodeCommand 0x03#64 = .ok .getpos ∧
  ∀ s : State, ∃ t, exec .getpos s = .next t ∧ t = { s with inflight := none, result := s.pos } ∧ sameBits s t

/-- R98: ALIGN, the word 0x08, moves POS to the least multiple of 8 at or above it, never raises, writes no bit and changes nothing
else. -/
def Obligations.AlignMovesToByteBoundary : Prop :=
  decodeCommand 0x08#64 = .ok .align ∧
  ∀ s : State, Inv s → ∃ t, exec .align s = .next t ∧ t = { s with inflight := none, pos := t.pos } ∧
    t.pos.toNat % 8 = 0 ∧ s.pos.toNat ≤ t.pos.toNat ∧ t.pos.toNat < s.pos.toNat + 8 ∧ t.pos.toNat ≤ capOf s ∧
    sameBits s t

/-- R94, R95: READBIT, the word 0x04, copies the bit at POS to RESULT; WRITEBIT, the word 0x05, copies ARG[0] to it and changes no other bit; neither
moves POS or changes anything else; both raise BOUNDS when POS = CAP. -/
def Obligations.SingleBitAccess : Prop :=
  decodeCommand 0x04#64 = .ok .readbit ∧ decodeCommand 0x05#64 = .ok .writebit ∧
  ∀ s : State,
    (s.pos.toNat + 1 ≤ capOf s →
      (∃ t, exec .readbit s = .next t ∧ t = { s with inflight := none, result := t.result } ∧
        t.result = (if memBit s.buf s.pos.toNat then 1#64 else 0#64) ∧ sameBits s t) ∧
      (s.buf.wf = true → ∃ t, exec .writebit s = .next t ∧ t = { s with inflight := none, buf := t.buf } ∧
        memBit t.buf s.pos.toNat = s.arg.getLsbD 0 ∧ sameBitsOutside s.pos.toNat (s.pos.toNat + 1) s t)) ∧
    (capOf s < s.pos.toNat + 1 →
      (∃ t, exec .readbit s = .next t ∧ raisedOnly 0x04#8 3#4 0#4 s t) ∧
      ∃ t, exec .writebit s = .next t ∧ raisedOnly 0x05#8 3#4 0#4 s t)

/-- R96, R74, R52: READ n, the word 0x06 + (n << 8), with S 0x8000 more and illegal for n outside 1 to 64, puts stream bit
POS + i at bit i of RESULT for i below n, and above them zeros, or with S copies of the field's top bit; POS moves by n;
nothing else changes. When the field does not fit below CAP it raises BOUNDS and changes nothing else. -/
def Obligations.ReadReturnsField : Prop :=
  ∀ (s : State) (n : BitVec 7) (sg : Bool), Inv s →
    (decodeCommand (BitVec.ofNat 64 (0x06 + n.toNat * 2 ^ 8 + sg.toNat * 0x8000)) =
      if 1 ≤ n.toNat ∧ n.toNat ≤ 64 then .ok (.read n sg) else .error .width) ∧
    (1 ≤ n.toNat → n.toNat ≤ 64 → s.pos.toNat + n.toNat ≤ capOf s →
      ∃ t, exec (.read n sg) s = .next t ∧ t = { s with inflight := none, result := t.result, pos := t.pos } ∧
        t.pos.toNat = s.pos.toNat + n.toNat ∧
        (∀ i, i < 64 → t.result.getLsbD i =
          if i < n.toNat then memBit s.buf (s.pos.toNat + i)
          else (sg && memBit s.buf (s.pos.toNat + n.toNat - 1))) ∧
        sameBits s t) ∧
    (1 ≤ n.toNat → n.toNat ≤ 64 → capOf s < s.pos.toNat + n.toNat →
      ∃ t, exec (.read n sg) s = .next t ∧ raisedOnly 0x06#8 3#4 0#4 s t)

/-- R97, R52: WRITE n, the word 0x07 + (n << 8), illegal for n outside 1 to 64, puts bit i of ARG at stream bit POS + i for
i below n and changes no other bit; POS moves by n; nothing else changes. When the field does not fit below CAP it raises
BOUNDS and changes nothing else. -/
def Obligations.WriteStoresField : Prop :=
  ∀ (s : State) (n : BitVec 7), Inv s →
    (decodeCommand (BitVec.ofNat 64 (0x07 + n.toNat * 2 ^ 8)) =
      if 1 ≤ n.toNat ∧ n.toNat ≤ 64 then .ok (.write n) else .error .width) ∧
    (1 ≤ n.toNat → n.toNat ≤ 64 → s.pos.toNat + n.toNat ≤ capOf s →
      ∃ t, exec (.write n) s = .next t ∧ t = { s with inflight := none, buf := t.buf, pos := t.pos } ∧
        t.pos.toNat = s.pos.toNat + n.toNat ∧
        (∀ i, i < n.toNat → memBit t.buf (s.pos.toNat + i) = s.arg.getLsbD i) ∧
        sameBitsOutside s.pos.toNat (s.pos.toNat + n.toNat) s t) ∧
    (1 ≤ n.toNat → n.toNat ≤ 64 → capOf s < s.pos.toNat + n.toNat →
      ∃ t, exec (.write n) s = .next t ∧ raisedOnly 0x07#8 3#4 0#4 s t)

/-- R99: APPEND n with its CNT words in VALUE_IN takes them in order, writes the low n bits of each, one after the other
from POS, and changes no other bit, register or port. -/
def Obligations.AppendStoresSeries : Prop :=
  ∀ (s : State) (n : BitVec 7), Inv s → 1 ≤ n.toNat → n.toNat ≤ 64 →
    s.pos.toNat + s.cnt.toNat * n.toNat ≤ capOf s → s.cnt.toNat ≤ s.valueIn.length →
    ∃ t, exec (.append n) s = .next t ∧
      t = { s with inflight := none, buf := t.buf, pos := t.pos, valueIn := s.valueIn.drop s.cnt.toNat } ∧
      t.pos.toNat = s.pos.toNat + s.cnt.toNat * n.toNat ∧
      (∀ j i, j < s.cnt.toNat → i < n.toNat →
        memBit t.buf (s.pos.toNat + j * n.toNat + i) = (s.valueIn.getD j 0#64).getLsbD i) ∧
      sameBitsOutside s.pos.toNat (s.pos.toNat + s.cnt.toNat * n.toNat) s t

/-- R99, R14, R40: APPEND with too few words in VALUE_IN writes those there are, and waits: BUSY stays 1 and the count done
is held. Going on from there with more words in VALUE_IN ends where APPEND would have ended had they all been there at the
start. -/
def Obligations.AppendWaitsForWords : Prop :=
  ∀ (s : State) (n : BitVec 7), Inv s → 1 ≤ n.toNat → n.toNat ≤ 64 →
    s.pos.toNat + s.cnt.toNat * n.toNat ≤ capOf s → s.valueIn.length < s.cnt.toNat →
    ∃ t, exec (.append n) s = .next t ∧
      t = { s with
        inflight := some (.append n s.valueIn.length), buf := t.buf, pos := t.pos, valueIn := [] } ∧
      t.pos.toNat = s.pos.toNat + s.valueIn.length * n.toNat ∧
      (∀ j i, j < s.valueIn.length → i < n.toNat →
        memBit t.buf (s.pos.toNat + j * n.toNat + i) = (s.valueIn.getD j 0#64).getLsbD i) ∧
      sameBitsOutside s.pos.toNat (s.pos.toNat + s.valueIn.length * n.toNat) s t ∧
      ∀ late : List Word, resume (.append n s.valueIn.length) { t with valueIn := late } =
        exec (.append n) { s with valueIn := s.valueIn ++ late }

/-- R101, R100, R37: EXTRACT n with room in VALUE_OUT pushes, in order, the CNT fields from POS, each read signed with S
and unsigned without, clamped into the destination; POS moves past them; no bit and nothing else changes. -/
def Obligations.ExtractPushesSeries : Prop :=
  ∀ (s : State) (n : BitVec 7) (sg : Bool), Inv s → 1 ≤ n.toNat → n.toNat ≤ 64 →
    s.pos.toNat + s.cnt.toNat * n.toNat ≤ capOf s → s.valueOut.length + s.cnt.toNat ≤ s.par.voutDepth →
    ∃ t, exec (.extract n sg) s = .next t ∧
      t = { s with inflight := none, pos := t.pos, valueOut := t.valueOut } ∧
      t.pos.toNat = s.pos.toNat + s.cnt.toNat * n.toNat ∧
      t.valueOut = s.valueOut ++ (List.range s.cnt.toNat).map (fun j =>
        deliverWord s.cfg (fieldInt sg n.toNat (memRead s.buf (s.pos.toNat + j * n.toNat) n.toNat))) ∧
      sameBits s t

/-- R99, R101, R131: a series or a payload that does not fit as a whole raises BOUNDS before its first pop, push or write,
and changes nothing else: no register, no bit, no port. -/
def Obligations.BoundsErrorsChangeNothing : Prop :=
  ∀ (s : State) (n : BitVec 7) (sg : Bool), 1 ≤ n.toNat → n.toNat ≤ 64 →
    (capOf s < s.pos.toNat + s.cnt.toNat * n.toNat →
      (∃ t, exec (.append n) s = .next t ∧ raisedOnly 0x09#8 3#4 0#4 s t) ∧
      ∃ t, exec (.extract n sg) s = .next t ∧ raisedOnly 0x0A#8 3#4 0#4 s t) ∧
    (capOf s < 8 * s.cnt.toNat → ∃ t, exec .load s = .next t ∧ raisedOnly 0x19#8 3#4 0#4 s t)

/-- R8, R14, R40, R101, R129: EXTRACT and SERIALIZE wait exactly with their output FIFO full, holding the count done. When the
host then pops `k` elements, going on ends where the command would have ended in an engine whose FIFO is `k` deeper, but
for the `k` elements popped. -/
def Obligations.WaitingForRoomChangesNoValue : Prop :=
  (∀ (s : State) (n : BitVec 7) (sg : Bool) (t : State) (f : InFlight), Inv s →
    exec (.extract n sg) s = .next t → t.inflight = some f →
    (∃ done, f = .extract n sg done ∧ done < s.cnt.toNat ∧ s.valueOut.length + done = s.par.voutDepth ∧
      t.valueOut.length = s.par.voutDepth ∧ t.pos.toNat = s.pos.toNat + done * n.toNat) ∧
    ∀ k, k ≤ t.valueOut.length → ∃ v, exec (.extract n sg) (deeper k s) = .next v ∧
      resume f { t with valueOut := t.valueOut.drop k } =
        .next { v with par := s.par, valueOut := v.valueOut.drop k }) ∧
  ∀ (s t : State) (f : InFlight), Inv s → exec .serialize s = .next t → t.inflight = some f →
    (∃ done, f = .serialize done ∧ 8 * done < s.pos.toNat ∧ s.octetOut.length + done = s.par.ooutDepth ∧
      t.octetOut.length = s.par.ooutDepth ∧ t.pos = s.pos) ∧
    ∀ k, k ≤ t.octetOut.length → ∃ v, exec .serialize (deeper k s) = .next v ∧
      resume f { t with octetOut := t.octetOut.drop k } =
        .next { v with par := s.par, octetOut := v.octetOut.drop k }

/-- R100, R37: the word pushed for a decoded value is that value where it lies in the destination's range, the range's
end where it lies outside: read as the destination reads it, it is the clamped value, and no bit above the destination's
width says more. -/
def Obligations.DeliveredValueIsClamped : Prop :=
  ∀ (c : Word) (v : Int),
    (cfgDsigned c = true → (deliverWord c v).toInt = clamp v (dstMin c) (dstMax c)) ∧
    (cfgDsigned c = false → ((deliverWord c v).toNat : Int) = clamp v (dstMin c) (dstMax c)) ∧
    (dstWidth c = 8 ∨ dstWidth c = 16 ∨ dstWidth c = 32 ∨ dstWidth c = 64)

/-! ## Encoding a frame -/

/-- R102, R103: the unsigned count is the least width that holds every value of the block, 0 exactly for a block of zeros.
The signed count is 0 for a block of zeros, and else min(PB, 1 + w), w being the least width that holds every magnitude
(which is bitlen of their OR); so it is 4 for the block -4, 3 (90_conflicts.md C2). -/
def Obligations.SigBitsFromLeastWidth : Prop :=
  ∀ (pb : Nat) (vs : List Int),
    ((∀ v ∈ vs, 0 ≤ v) →
      (∀ v ∈ vs, v < 2 ^ sigBits false pb vs) ∧
      (∀ k, (∀ v ∈ vs, v < (2 : Int) ^ k) → sigBits false pb vs ≤ k) ∧
      (sigBits false pb vs = 0 ↔ ∀ v ∈ vs, v = 0)) ∧
    ((∀ v ∈ vs, v = 0) → sigBits true pb vs = 0) ∧
    (∀ w, (∃ v ∈ vs, v ≠ 0) → (∀ v ∈ vs, v.natAbs < 2 ^ w) → (∀ k, (∀ v ∈ vs, v.natAbs < 2 ^ k) → w ≤ k) →
      sigBits true pb vs = min pb (1 + w)) ∧
    (4 ≤ pb → sigBits true pb [-4, 3] = 4)

/-- R104, the spec's own inference, "For every block `0 <= s <= PB <= 64`": the count of a block of legal values is at most PB, which is at most 64; 0 exactly for a block of zeros; every
value of the block fits it, in two's complement when CFG.SIGNED = 1; and a value's low s bits, read back with that
signedness, give the value again. -/
def Obligations.BlockCountFitsEveryValue : Prop :=
  ∀ (c : Word) (xs : List Word), codecLegal c → wordsLegal c xs →
    streamSig c xs ≤ cfgPb c ∧ cfgPb c ≤ 64 ∧
    (streamSig c xs = 0 ↔ ∀ x ∈ xs, wordValue (cfgSigned c) (cfgPb c) x = 0) ∧
    (∀ x ∈ xs, 0 < streamSig c xs → cfgSigned c = false →
      0 ≤ wordValue (cfgSigned c) (cfgPb c) x ∧ wordValue (cfgSigned c) (cfgPb c) x < 2 ^ streamSig c xs) ∧
    (∀ x ∈ xs, 0 < streamSig c xs → cfgSigned c = true →
      -(2 ^ (streamSig c xs - 1) : Int) ≤ wordValue (cfgSigned c) (cfgPb c) x ∧
        wordValue (cfgSigned c) (cfgPb c) x ≤ 2 ^ (streamSig c xs - 1) - 1) ∧
    ∀ x ∈ xs, fieldInt (cfgSigned c) (streamSig c xs)
      (lowBits (streamSig c xs) (wordValue (cfgSigned c) (cfgPb c) x)) = wordValue (cfgSigned c) (cfgPb c) x

/-- R105, R81: the header chosen gives the block's count back to a decoder, is reuse exactly when the count repeats, and
has length 1, 4, 6 or 12 by the count's range. -/
def Obligations.HeaderSelectionRule : Prop :=
  ∀ prev s : Nat, s ≤ 64 →
    headerSig prev (selectHeader prev s) = s ∧ (selectHeader prev s = .h1 ↔ s = prev) ∧
    headerLen (selectHeader prev s) = (if s = prev then 1 else if s < 7 then 4 else if s < 10 then 6 else 12) ∧
    headerBits (selectHeader prev s) =
      (if s = prev then 1 else if s < 7 then 2 * s else if s < 10 then 14 + 16 * (s - 7) else 62 + 64 * (s - 10))

/-- R29, R111, R143: ENCODE_FRAME with an illegal BLOCK, or else an illegal PB, raises CONFIG with its sub-cause and
changes nothing else. -/
def Obligations.EncodeConfigErrors : Prop :=
  ∀ s : State,
    (¬(1 ≤ cfgBlock s.cfg ∧ cfgBlock s.cfg ≤ 64) →
      ∃ t, exec .encodeFrame s = .next t ∧ raisedOnly 0x10#8 5#4 1#4 s t) ∧
    ((1 ≤ cfgBlock s.cfg ∧ cfgBlock s.cfg ≤ 64) → ¬(1 ≤ cfgPb s.cfg ∧ cfgPb s.cfg ≤ 64) →
      ∃ t, exec .encodeFrame s = .next t ∧ raisedOnly 0x10#8 5#4 2#4 s t)

/-- R110, R105 to R109, R112, R81, R84, R85: ENCODE_FRAME with legal words that fit takes NVALUES words from VALUE_IN,
zeroes the gap up to the byte boundary, writes there exactly the frame's stream bits, leaves POS after them, sets
FRAME_START, FRAME_BITS, RESULT and PREV_S, and changes no other bit, register or port. -/
def Obligations.EncodeFrameWritesStream : Prop :=
  ∀ s : State, Inv s → codecLegal s.cfg → s.nvalues.toNat ≤ s.valueIn.length →
    wordsLegal s.cfg (s.valueIn.take s.nvalues.toNat) →
    ceil8 s.pos.toNat + (streamFrame s.cfg (s.valueIn.take s.nvalues.toNat)).length ≤ capOf s →
    ∃ t, exec .encodeFrame s = .next t ∧
      t = { s with
        inflight := none, buf := t.buf, pos := t.pos, prevS := t.prevS, frameStart := t.frameStart,
        frameBits := t.frameBits, result := t.result, valueIn := s.valueIn.drop s.nvalues.toNat } ∧
      t.frameStart.toNat = ceil8 s.pos.toNat ∧
      t.frameBits.toNat = (streamFrame s.cfg (s.valueIn.take s.nvalues.toNat)).length ∧
      t.result = t.frameBits ∧ t.pos.toNat = t.frameStart.toNat + t.frameBits.toNat ∧
      t.prevS.toNat = frameSig s.cfg (s.valueIn.take s.nvalues.toNat) ∧
      holdsStream t.buf t.frameStart.toNat (streamFrame s.cfg (s.valueIn.take s.nvalues.toNat)) ∧
      (∀ q, s.pos.toNat ≤ q → q < t.frameStart.toNat → memBit t.buf q = false) ∧
      sameBitsOutside s.pos.toNat t.pos.toNat s t

/-- R111, R143: after k whole legal blocks that fit, block k of ENCODE_FRAME has a word that is no legal value, and it raises
RANGE, whether or not the block would fit; or its words are legal and it does not fit below CAP, and it raises BOUNDS. Either
way POS is at the start of that block, PREV_S the last whole block's count, the gap's zeros and the whole blocks written,
FRAME_START set, FRAME_BITS and RESULT as before, and the failing block's words popped but no later one. -/
def Obligations.EncodeErrorPartialEffects : Prop :=
  ∀ (s : State) (k : Nat) (code : BitVec 4), Inv s → codecLegal s.cfg → s.nvalues.toNat ≤ s.valueIn.length →
    k * cfgBlock s.cfg < s.nvalues.toNat →
    wordsLegal s.cfg (s.valueIn.take (k * cfgBlock s.cfg)) →
    ceil8 s.pos.toNat + (streamFrame s.cfg (s.valueIn.take (k * cfgBlock s.cfg))).length ≤ capOf s →
    ((¬wordsLegal s.cfg (s.valueIn.take (min (k * cfgBlock s.cfg + cfgBlock s.cfg) s.nvalues.toNat)) ∧ code = 4#4) ∨
      (wordsLegal s.cfg (s.valueIn.take (min (k * cfgBlock s.cfg + cfgBlock s.cfg) s.nvalues.toNat)) ∧
        capOf s < ceil8 s.pos.toNat + (streamFrame s.cfg
          (s.valueIn.take (min (k * cfgBlock s.cfg + cfgBlock s.cfg) s.nvalues.toNat))).length ∧ code = 3#4)) →
    ∃ t, exec .encodeFrame s = .next t ∧
      t = { s with
        inflight := none, err := code, errSub := 0#4, errOp := 0x10#8
        faults := { err := code, errSub := 0#4, errOp := 0x10#8 } :: s.faults
        buf := t.buf, pos := t.pos, prevS := t.prevS, frameStart := t.frameStart, valueIn := t.valueIn } ∧
      t.pos.toNat = ceil8 s.pos.toNat + (streamFrame s.cfg (s.valueIn.take (k * cfgBlock s.cfg))).length ∧
      t.prevS.toNat = frameSig s.cfg (s.valueIn.take (k * cfgBlock s.cfg)) ∧
      t.frameStart.toNat = ceil8 s.pos.toNat ∧
      t.valueIn = s.valueIn.drop (min (k * cfgBlock s.cfg + cfgBlock s.cfg) s.nvalues.toNat) ∧
      holdsStream t.buf t.frameStart.toNat (streamFrame s.cfg (s.valueIn.take (k * cfgBlock s.cfg))) ∧
      (∀ q, s.pos.toNat ≤ q → q < t.frameStart.toNat → memBit t.buf q = false) ∧
      sameBitsOutside s.pos.toNat t.pos.toNat s t

/-- R8, R14, R40: when elements arrive late never matters. ENCODE_FRAME that waits for words holds the index of the next
value, the current block's words and where that block begins, and LOAD that waits for octets the count done; going on once
more of them are there, each ends where it would have ended had they all been there at the start. (APPEND:
AppendWaitsForWords.) -/
def Obligations.WaitingForElementsChangesNoValue : Prop :=
  (∀ (s : State) (early late : List Word) (t : State) (f : InFlight),
    exec .encodeFrame { s with valueIn := early } = .next t → t.inflight = some f →
    f = .encode early.length (early.drop (cfgBlock s.cfg * (early.length / cfgBlock s.cfg))) t.pos ∧
      early.length < s.nvalues.toNat ∧ t.valueIn = [] ∧
      resume f { t with valueIn := late } = exec .encodeFrame { s with valueIn := early ++ late }) ∧
  ∀ (s : State) (early late : List Octet) (t : State) (f : InFlight),
    exec .load { s with octetIn := early } = .next t → t.inflight = some f →
    f = .load early.length ∧ early.length < s.cnt.toNat ∧ t.octetIn = [] ∧
      resume f { t with octetIn := late } = exec .load { s with octetIn := early ++ late }

/-- R114, the spec's own inference, "Size bound": a frame of N values has at most N * PB + 12 * ceil(N / B) bits. -/
def Obligations.FrameSizeBound : Prop :=
  ∀ (c : Word) (xs : List Word), codecLegal c → wordsLegal c xs →
    (streamFrame c xs).length ≤ xs.length * cfgPb c + 12 * ((xs.length + cfgBlock c - 1) / cfgBlock c)

/-! ## Decoding a frame -/

/-- R120, R29, R143: DECODE_FRAME checks BLOCK, PB, the sign and the width of the destination, in that order, before any
other effect, and raises the first that fails; when none fails, unsigned data into a signed destination among these cases,
it can raise nothing but CORRUPT. -/
def Obligations.DecodeChecksInOrder : Prop :=
  ∀ (s : State) (d : Bool),
    (¬(1 ≤ cfgBlock s.cfg ∧ cfgBlock s.cfg ≤ 64) →
      ∃ t, exec (.decodeFrame d) s = .next t ∧ raisedOnly 0x11#8 5#4 1#4 s t) ∧
    ((1 ≤ cfgBlock s.cfg ∧ cfgBlock s.cfg ≤ 64) → ¬(1 ≤ cfgPb s.cfg ∧ cfgPb s.cfg ≤ 64) →
      ∃ t, exec (.decodeFrame d) s = .next t ∧ raisedOnly 0x11#8 5#4 2#4 s t) ∧
    (codecLegal s.cfg → cfgSigned s.cfg = true → cfgDsigned s.cfg = false →
      ∃ t, exec (.decodeFrame d) s = .next t ∧ raisedOnly 0x11#8 2#4 1#4 s t) ∧
    (codecLegal s.cfg → ¬(cfgSigned s.cfg = true ∧ cfgDsigned s.cfg = false) →
      dstWidth s.cfg < cfgPb s.cfg → cfgClampEn s.cfg = false →
      ∃ t, exec (.decodeFrame d) s = .next t ∧ raisedOnly 0x11#8 2#4 2#4 s t) ∧
    (codecLegal s.cfg → destinationLegal s.cfg → ∀ t, exec (.decodeFrame d) s = .next t →
      (t.err = s.err ∧ t.faults = s.faults) ∨ t.err = 1#4)

/-- R115 to R119, R121, R122: where BUF holds a frame of legal words below LIMIT, DECODE_FRAME pushes, in order, each
value as the destination takes it (with D = 1 nothing), and sets FRAME_START, FRAME_BITS, PREV_S, POS at the next byte
boundary and RESULT the byte offset there; no bit and nothing else changes. -/
def Obligations.DecodeFrameReadsStream : Prop :=
  ∀ (s : State) (d : Bool) (xs : List Word), Inv s → codecLegal s.cfg → destinationLegal s.cfg →
    xs.length = s.nvalues.toNat → wordsLegal s.cfg xs →
    holdsStream s.buf (ceil8 s.pos.toNat) (streamFrame s.cfg xs) →
    (xs ≠ [] → ceil8 s.pos.toNat + (streamFrame s.cfg xs).length ≤ s.limit.toNat) →
    (d = true ∨ s.valueOut.length + xs.length ≤ s.par.voutDepth) →
    ∃ t, exec (.decodeFrame d) s = .next t ∧
      t = { s with
        inflight := none, pos := t.pos, prevS := t.prevS, frameStart := t.frameStart, frameBits := t.frameBits,
        result := t.result, valueOut := t.valueOut } ∧
      t.frameStart.toNat = ceil8 s.pos.toNat ∧ t.frameBits.toNat = (streamFrame s.cfg xs).length ∧
      t.pos.toNat = ceil8 (t.frameStart.toNat + t.frameBits.toNat) ∧ t.result.toNat = t.pos.toNat / 8 ∧
      t.prevS.toNat = frameSig s.cfg xs ∧
      t.valueOut = s.valueOut ++ (if d then []
        else xs.map fun x => deliverWord s.cfg (wordValue (cfgSigned s.cfg) (cfgPb s.cfg) x)) ∧
      sameBits s t

/-- R126, the spec's own inference, "`decode(encode(xs)) == xs`": decode after encode gives the values back. A frame is written by ENCODE_FRAME; DECODE_FRAME from the same POS
with the same BLOCK, SIGNED, PB and NVALUES, LIMIT at or beyond the frame's end, a destination at least PB wide of the
same signedness and room in VALUE_OUT pushes exactly the words VALUE_IN carried, and leaves PREV_S and FRAME_BITS as
ENCODE_FRAME left them and POS at ceil8 of the frame's end. -/
def Obligations.FrameRoundTrip : Prop :=
  ∀ s u t : State, Inv s → Inv u → codecLegal s.cfg → s.nvalues.toNat ≤ s.valueIn.length →
    exec .encodeFrame s = .next t → t.inflight = none → t.err = s.err → t.faults = s.faults →
    u.buf = t.buf → u.par = t.par → u.pos = s.pos → u.nvalues = s.nvalues →
    cfgBlock u.cfg = cfgBlock s.cfg → cfgPb u.cfg = cfgPb s.cfg → cfgSigned u.cfg = cfgSigned s.cfg →
    cfgDsigned u.cfg = cfgSigned s.cfg → cfgPb s.cfg ≤ dstWidth u.cfg → t.pos.toNat ≤ u.limit.toNat →
    u.valueOut.length + s.nvalues.toNat ≤ u.par.voutDepth →
    ∃ w, exec (.decodeFrame false) u = .next w ∧ w.inflight = none ∧ w.err = u.err ∧
      w.valueOut = u.valueOut ++ s.valueIn.take s.nvalues.toNat ∧ w.prevS = t.prevS ∧ w.frameBits = t.frameBits ∧
      w.pos.toNat = ceil8 t.pos.toNat

/-- R115, R117 to R119, R122: a header code H1, H4, H6 or H12 run at a block boundary of DECODE_FRAME, with the whole
block below LIMIT and a count of at most 64: PREV_S becomes the count the code gives, the block's values are pushed (with
D = 1 nothing), and POS moves past header and body to the next block, or, after the frame's last value, the frame ends.
A header code as an instruction of its own is the model's reading (log 15). -/
def Obligations.HeaderCodeDecodesBlock : Prop :=
  ∀ (s : State) (hd : Header) (d : Bool) (ix : Nat) (start : Word), Inv s →
    s.inflight = some (.decode d ix [] start) →
    headerSig s.prevS.toNat hd ≤ 64 →
    s.pos.toNat + headerLen hd + min (cfgBlock s.cfg) (s.nvalues.toNat - ix) * headerSig s.prevS.toNat hd ≤
      s.limit.toNat →
    (d = true ∨ s.valueOut.length + min (cfgBlock s.cfg) (s.nvalues.toNat - ix) ≤ s.par.voutDepth) →
    ∃ t, exec hd.toInstr s = .next t ∧
      t = { s with
        inflight := t.inflight, pos := t.pos, prevS := t.prevS, frameBits := t.frameBits, result := t.result,
        valueOut := t.valueOut } ∧
      t.prevS.toNat = headerSig s.prevS.toNat hd ∧
      t.valueOut = s.valueOut ++ (if d then []
        else (List.range (min (cfgBlock s.cfg) (s.nvalues.toNat - ix))).map fun j =>
          deliverWord s.cfg (fieldInt (cfgSigned s.cfg) (headerSig s.prevS.toNat hd)
            (memRead s.buf (s.pos.toNat + headerLen hd + j * headerSig s.prevS.toNat hd)
              (headerSig s.prevS.toNat hd)))) ∧
      (ix + cfgBlock s.cfg < s.nvalues.toNat →
        t.pos.toNat = s.pos.toNat + headerLen hd + cfgBlock s.cfg * headerSig s.prevS.toNat hd ∧
        t.inflight = some (.decode d (ix + cfgBlock s.cfg) [] t.pos) ∧
        t.frameBits = s.frameBits ∧ t.result = s.result) ∧
      (s.nvalues.toNat ≤ ix + cfgBlock s.cfg →
        t.inflight = none ∧
        t.pos.toNat =
          ceil8 (s.pos.toNat + headerLen hd + (s.nvalues.toNat - ix) * headerSig s.prevS.toNat hd) ∧
        t.result.toNat = t.pos.toNat / 8 ∧
        t.frameBits = BitVec.ofNat 64
          (s.pos.toNat + headerLen hd + (s.nvalues.toNat - ix) * headerSig s.prevS.toNat hd) - s.frameStart) ∧
      sameBits s t

/-- R116, R117, R123, R143: in a block that began at `start`, a header that LIMIT cuts off or a body that does raises
CORRUPT TRUNCATED, and a count above 64 CORRUPT WIDTH; POS goes back to the block's start and nothing else changes. So it is
for `exec` of a header code, and for the step where LIMIT leaves no header code to fetch. A header code as an instruction of
its own is the model's reading (log 15). -/
def Obligations.CorruptBlockIsAbandoned : Prop :=
  ∀ (s : State) (hd : Header) (d : Bool) (ix : Nat) (start : Word), s.inflight = some (.decode d ix [] start) →
    (fetchHeader s = none → hostWaits s →
      ∃ t, step s = .next t ∧ raisedOnly 0x11#8 1#4 1#4 { s with pos := start } t) ∧
    (s.limit.toNat ≤ capOf s →
      (s.limit.toNat < s.pos.toNat + headerLen hd →
        ∃ t, exec hd.toInstr s = .next t ∧ raisedOnly 0x11#8 1#4 1#4 { s with pos := start } t) ∧
      (s.pos.toNat + headerLen hd ≤ s.limit.toNat → 64 < headerSig s.prevS.toNat hd →
        ∃ t, exec hd.toInstr s = .next t ∧ raisedOnly 0x11#8 1#4 2#4 { s with pos := start } t) ∧
      (s.pos.toNat + headerLen hd ≤ s.limit.toNat → headerSig s.prevS.toNat hd ≤ 64 →
        s.limit.toNat < s.pos.toNat + headerLen hd +
          min (cfgBlock s.cfg) (s.nvalues.toNat - ix) * headerSig s.prevS.toNat hd →
        ∃ t, exec hd.toInstr s = .next t ∧ raisedOnly 0x11#8 1#4 1#4 { s with pos := start } t))

/-- R116, R117, R123, R143: DECODE_FRAME after whole blocks `xs` of legal words (R115 to R122), with a next block that LIMIT
cuts off in its header or its body, or whose count is above 64: it raises CORRUPT with that sub-cause. POS is at the start of
that block, PREV_S the last whole block's count, the earlier blocks' values pushed (with D = 1 nothing) and none of that
block's, FRAME_START set, FRAME_BITS and RESULT as before; no bit and nothing else changes. -/
def Obligations.DecodeErrorPartialEffects : Prop :=
  ∀ (s : State) (d : Bool) (xs : List Word) (p : Nat) (sub : BitVec 4), Inv s → codecLegal s.cfg →
    destinationLegal s.cfg → xs.length % cfgBlock s.cfg = 0 → xs.length < s.nvalues.toNat → wordsLegal s.cfg xs →
    holdsStream s.buf (ceil8 s.pos.toNat) (streamFrame s.cfg xs) →
    p = ceil8 s.pos.toNat + (streamFrame s.cfg xs).length → (xs ≠ [] → p ≤ s.limit.toNat) →
    (d = true ∨ s.valueOut.length + xs.length ≤ s.par.voutDepth) →
    ((headerAt s p = none ∧ sub = 1#4) ∨
      ∃ hd, headerAt s p = some hd ∧
        ((64 < headerSig (frameSig s.cfg xs) hd ∧ sub = 2#4) ∨
          (headerSig (frameSig s.cfg xs) hd ≤ 64 ∧
            s.limit.toNat < p + headerLen hd +
              min (cfgBlock s.cfg) (s.nvalues.toNat - xs.length) * headerSig (frameSig s.cfg xs) hd ∧ sub = 1#4))) →
    ∃ t, exec (.decodeFrame d) s = .next t ∧
      t = { s with
        inflight := none, err := 1#4, errSub := sub, errOp := 0x11#8
        faults := { err := 1#4, errSub := sub, errOp := 0x11#8 } :: s.faults
        pos := t.pos, prevS := t.prevS, frameStart := t.frameStart, valueOut := t.valueOut } ∧
      t.pos.toNat = p ∧ t.frameStart.toNat = ceil8 s.pos.toNat ∧ t.prevS.toNat = frameSig s.cfg xs ∧
      t.valueOut = s.valueOut ++ (if d then []
        else xs.map fun x => deliverWord s.cfg (wordValue (cfgSigned s.cfg) (cfgPb s.cfg) x)) ∧
      sameBits s t

/-- R8, R14, R16, R40: DECODE_FRAME waits exactly with VALUE_OUT full and words of a block it has read still to push, of
which with those pushed it holds the count. When the host then pops `k` words, going on ends where the command would have
ended in an engine whose VALUE_OUT is `k` deeper, but for the `k` words popped. That it holds the words is log 17. -/
def Obligations.DecodeWaitingChangesNoValue : Prop :=
  ∀ (s : State) (d : Bool) (t : State) (f : InFlight), Inv s → exec (.decodeFrame d) s = .next t →
    t.inflight = some f →
    (d = false ∧ ∃ ix out start, f = .decode false ix out start ∧ out ≠ [] ∧ ix ≤ s.nvalues.toNat ∧
      t.valueOut.length = s.par.voutDepth ∧ s.valueOut.length + ix = t.valueOut.length + out.length) ∧
    ∀ k, k ≤ t.valueOut.length → ∃ v, exec (.decodeFrame d) (deeper k s) = .next v ∧
      resume f { t with valueOut := t.valueOut.drop k } =
        .next { v with par := s.par, valueOut := v.valueOut.drop k }

/-- R26, R116: DECODE_FRAME reads no bit at or above LIMIT, from its start or when it goes on: two states that differ in
nothing but such bits of BUF are taken to states that differ in nothing but BUF, which neither changes. -/
def Obligations.DecodeReadsOnlyBelowLimit : Prop :=
  ∀ (s : State) (d : Bool) (m : Memory) (t : State),
    (∀ q, q < s.limit.toNat → memBit m q = memBit s.buf q) →
    (exec (.decodeFrame d) s = .next t →
      t.buf = s.buf ∧ exec (.decodeFrame d) { s with buf := m } = .next { t with buf := m }) ∧
    ∀ ix out start, s.inflight = some (.decode d ix out start) → hostWaits s → step s = .next t →
      t.buf = s.buf ∧ step { s with buf := m } = .next { t with buf := m }

/-! ## The serializer -/

/-- R128, R129, R51: SERIALIZE with room in OCTET_OUT pushes ceil(POS / 8) octets from bit 0, bit i of octet k being
stream bit 8k + i below POS and 0 from POS up; RESULT is their number; POS, BUF and all else stay. -/
def Obligations.SerializePushesPayload : Prop :=
  ∀ s : State, Inv s → s.octetOut.length + (s.pos.toNat + 7) / 8 ≤ s.par.ooutDepth →
    ∃ t, exec .serialize s = .next t ∧
      t = { s with inflight := none, result := t.result, octetOut := t.octetOut } ∧
      t.result.toNat = (s.pos.toNat + 7) / 8 ∧
      t.octetOut.length = s.octetOut.length + (s.pos.toNat + 7) / 8 ∧
      t.octetOut.take s.octetOut.length = s.octetOut ∧
      (∀ k i, k < (s.pos.toNat + 7) / 8 → i < 8 →
        (t.octetOut.getD (s.octetOut.length + k) 0#8).getLsbD i =
          (decide (8 * k + i < s.pos.toNat) && memBit s.buf (8 * k + i))) ∧
      sameBits s t

/-- R131, R132: LOAD with its CNT octets in OCTET_IN takes them in order, makes bit i of octet k stream bit 8k + i and
every bit from 8 * CNT up 0, and sets LIMIT = 8 * CNT, POS = 0 and RESULT = CNT; nothing else changes. -/
def Obligations.LoadTakesPayload : Prop :=
  ∀ s : State, Inv s → 8 * s.cnt.toNat ≤ capOf s → s.cnt.toNat ≤ s.octetIn.length →
    ∃ t, exec .load s = .next t ∧
      t = { s with
        inflight := none, buf := t.buf, limit := t.limit, pos := 0#64, result := s.cnt,
        octetIn := s.octetIn.drop s.cnt.toNat } ∧
      t.limit.toNat = 8 * s.cnt.toNat ∧
      (∀ k i, k < s.cnt.toNat → i < 8 → memBit t.buf (8 * k + i) = (s.octetIn.getD k 0#8).getLsbD i) ∧
      (∀ q, 8 * s.cnt.toNat ≤ q → q < capOf s → memBit t.buf q = false)

/-- R133, the spec's own inference, "on every host and for every W": what SERIALIZE pushed, loaded by an engine of any W with room for it, gives back every stream bit below POS,
and zeros above, up to that engine's CAP. -/
def Obligations.SerializeThenLoad : Prop :=
  ∀ s t u : State, Inv s → Inv u → s.octetOut = [] → (s.pos.toNat + 7) / 8 ≤ s.par.ooutDepth →
    exec .serialize s = .next t → u.octetIn = t.octetOut → u.cnt = t.result → 8 * u.cnt.toNat ≤ capOf u →
    ∃ w, exec .load u = .next w ∧ w.octetIn = [] ∧ w.limit.toNat = ceil8 s.pos.toNat ∧
      ∀ q, q < capOf u → memBit w.buf q = (decide (q < s.pos.toNat) && memBit s.buf q)

/-- R51, R50: octet k is stream bits 8k to 8k + 7, bit 8k the least significant; and for words of W = 8 * j bits it is the
octet k mod j, counted from the least significant, of word k div j: the octets do not depend on W. R51's second
half is the spec's own inference, "The two views give the same octets for every W." -/
def Obligations.OctetViewIsWordView : Prop :=
  ∀ (m : Memory) (j k : Nat), 0 < j →
    (∀ i, i < 8 → (bufOctet m k).getLsbD i = memBit m (8 * k + i)) ∧
    (bufOctet m k).toNat = bufWord m (8 * j) (k / j) / 2 ^ (8 * (k % j)) % 256

/-! ## The host and the platform -/

/-- R45, R34, R19, R23, R24, R26, R28, R30: a host write while BUSY = 1 sets OVR and does nothing else, at any register's
offset, read-only ones and CMD included; at any other offset it does nothing at all (which is the model's reading, log 7). A
host write while BUSY = 0 stores ARG, CNT, NVALUES, the defined bits of CFG, and LIMIT as the lesser of the value and CAP; at
every other offset but CMD's it has no effect. -/
def Obligations.HostRegisterWrites : Prop :=
  ∀ (s : State) (off : Nat) (v : Word) (rest : List HostAct), s.host = .write off v :: rest →
    (s.inflight ≠ none →
      ((off % 8 = 0 ∧ off ≤ 0x68) → step s = .next { s with host := rest, ovr := true }) ∧
      (¬(off % 8 = 0 ∧ off ≤ 0x68) → step s = .next { s with host := rest })) ∧
    (s.inflight = none →
      (off = 0x10 → step s = .next { s with host := rest, arg := v }) ∧
      (off = 0x18 → step s = .next { s with host := rest, cnt := v }) ∧
      (off = 0x40 → step s = .next { s with host := rest, nvalues := v }) ∧
      (off = 0x30 → ∃ t, step s = .next t ∧ t = { s with host := rest, limit := t.limit } ∧
        t.limit.toNat = min v.toNat (capOf s)) ∧
      (off = 0x38 → ∃ t, step s = .next t ∧ t = { s with host := rest, cfg := t.cfg } ∧
        ∀ i, i < 64 → t.cfg.getLsbD i = (v.getLsbD i && decide (i < 20 ∧ i ≠ 15))) ∧
      (off ≠ 0x00 ∧ off ≠ 0x10 ∧ off ≠ 0x18 ∧ off ≠ 0x30 ∧ off ≠ 0x38 ∧ off ≠ 0x40 →
        step s = .next { s with host := rest }))

/-- R20 to R34, R45: what the host reads at each register's offset while BUSY = 0, and 0 at every offset from 0x70 to 0xFF.
A read of STATUS, busy or not, gives BUSY, OVR, ERR, ERR_SUB and ERR_OP in their places and 0 in every reserved bit. None of
these reads changes anything. -/
def Obligations.HostRegisterReads : Prop :=
  ∀ (s : State) (off : Nat) (rest : List HostAct), s.host = .read off :: rest →
    (s.inflight = none → 0x70 ≤ off → off ≤ 0xFF →
      step s = .next { s with host := rest, seen := .register off 0#64 :: s.seen }) ∧
    (s.inflight = none → ∀ v : Word,
      (off, v) ∈ [(0x00, 0#64), (0x08, statusWord s), (0x10, s.arg), (0x18, s.cnt), (0x20, s.result), (0x28, s.pos),
        (0x30, s.limit), (0x38, s.cfg), (0x40, s.nvalues), (0x48, s.prevS.setWidth 64), (0x50, s.frameStart),
        (0x58, s.frameBits), (0x60, BitVec.ofNat 64 (s.par.width.bits * s.par.bufWords)),
        (0x68, BitVec.ofNat 64 (s.par.width.bits * 2 ^ 32 + 0x54525058))] →
      step s = .next { s with host := rest, seen := .register off v :: s.seen }) ∧
    (off = 0x08 → ∃ v : Word, step s = .next { s with host := rest, seen := .register 0x08 v :: s.seen } ∧
      v.getLsbD 0 = s.inflight.isSome ∧ v.getLsbD 1 = s.ovr ∧
      (∀ i, i < 4 → v.getLsbD (4 + i) = s.err.getLsbD i) ∧
      (∀ i, i < 4 → v.getLsbD (8 + i) = s.errSub.getLsbD i) ∧
      (∀ i, i < 8 → v.getLsbD (16 + i) = s.errOp.getLsbD i) ∧
      (∀ i, i < 64 → (i = 2 ∨ i = 3 ∨ (12 ≤ i ∧ i < 16) ∨ 24 ≤ i) → v.getLsbD i = false))

/-- R35: elements (what the host gets goes to the model's record, log 21) leave a FIFO in the order they entered: a push enters last and a pop takes the oldest. -/
def Obligations.PortsAreFifos : Prop :=
  ∀ (s : State) (rest : List HostAct) (x : Word) (o : Octet),
    (s.host = .pushValue x :: rest → s.valueIn.length < s.par.vinDepth →
      step s = .next { s with host := rest, valueIn := s.valueIn ++ [x] }) ∧
    (s.host = .pushOctet o :: rest → s.octetIn.length < s.par.oinDepth →
      step s = .next { s with host := rest, octetIn := s.octetIn ++ [o] }) ∧
    (∀ q, s.host = .popValue :: rest → s.valueOut = x :: q →
      step s = .next { s with host := rest, valueOut := q, seen := .value x :: s.seen }) ∧
    (∀ q, s.host = .popOctet :: rest → s.octetOut = o :: q →
      step s = .next { s with host := rest, octetOut := q, seen := .octet o :: s.seen })

/-- R44, R160, R161: after the reset input, whatever was running, every register and field has its reset value, the FIFOs
are empty, no command is in flight, and every bit of BUF is BUF_INIT's. -/
def Obligations.ResetInputResetsEverything : Prop :=
  ∀ (s : State) (rest : List HostAct), s.host = .reset :: rest →
    ∃ t, step s = .next t ∧ t.inflight = none ∧ statusWord t = 0#64 ∧ t.arg = 0#64 ∧ t.cnt = 0#64 ∧ t.result = 0#64 ∧
      t.pos = 0#64 ∧ t.limit = 0#64 ∧ t.cfg = 0x3100C#64 ∧ t.nvalues = 0#64 ∧ t.prevS = 0#7 ∧ t.frameStart = 0#64 ∧
      t.frameBits = 0#64 ∧ t.valueIn = [] ∧ t.valueOut = [] ∧ t.octetIn = [] ∧ t.octetOut = [] ∧ t.par = s.par ∧
      ∀ q, memBit t.buf q = Config.bufInit t.buf.era q

/-- R44: the registers after reset, and CFG's fields among them; the FIFOs are empty, no command is in flight, and every
bit of BUF is BUF_INIT's. -/
def Obligations.ResetStateValues : Prop :=
  statusWord State.reset = 0#64 ∧ State.reset.pos = 0#64 ∧ State.reset.limit = 0#64 ∧ State.reset.result = 0#64 ∧
    State.reset.arg = 0#64 ∧ State.reset.cnt = 0#64 ∧ State.reset.nvalues = 0#64 ∧ State.reset.prevS = 0#7 ∧
    State.reset.frameStart = 0#64 ∧ State.reset.frameBits = 0#64 ∧ State.reset.cfg = 0x3100C#64 ∧
    cfgBlock State.reset.cfg = 12 ∧ cfgSigned State.reset.cfg = false ∧ cfgPb State.reset.cfg = 16 ∧
    cfgDwc State.reset.cfg = 3 ∧ cfgDsigned State.reset.cfg = false ∧ cfgClampEn State.reset.cfg = false ∧
    State.reset.valueIn = [] ∧ State.reset.valueOut = [] ∧ State.reset.octetIn = [] ∧ State.reset.octetOut = [] ∧
    State.reset.inflight = none ∧ ∀ q, memBit State.reset.buf q = Config.bufInit State.reset.buf.era q

/-! ## The whole machine -/

/-- The state after reset, of the instance the model chose (log 1), is sound. -/
def Obligations.ResetStateIsSound : Prop := Inv State.reset

/-- Every step keeps a sound state sound: POS and LIMIT at most CAP (R26, R27), BUF canonical and within CAP (R39), the
reserved bits of CFG 0 (R28), ERR a legal code with its record (R22, R138, R157), the FIFOs within their depths (R8), the
command in flight in agreement with the registers (R40). -/
def Obligations.StepKeepsSound : Prop := ∀ s t : State, Inv s → step s = .next t → Inv t

/-- In a sound state no step stops: whatever the host does and whatever command word it writes, there is a next state.
That the model's own faults need an unsound state is its choice (log 14). -/
def Obligations.SoundStepNeverStops : Prop := ∀ s : State, Inv s → ∃ t, step s = .next t

/-- R23, R24, R28, R30, R42: no instruction writes ARG, CNT, CFG, NVALUES or OVR (CLRERR alone clears OVR), pushes an
input port or pops an output port, or changes the parameters or what the host will do. -/
def Obligations.CommandsLeaveHostRegisters : Prop :=
  ∀ (i : Instr) (s t : State), exec i s = .next t →
    t.arg = s.arg ∧ t.cnt = s.cnt ∧ t.cfg = s.cfg ∧ t.nvalues = s.nvalues ∧ t.par = s.par ∧ t.host = s.host ∧
    t.seen = s.seen ∧ t.draws = s.draws ∧ (i ≠ .clrerr → t.ovr = s.ovr) ∧
    (∃ k, t.valueIn = s.valueIn.drop k) ∧ (∃ k, t.octetIn = s.octetIn.drop k) ∧
    (∃ l, t.valueOut = s.valueOut ++ l) ∧ (∃ l, t.octetOut = s.octetOut ++ l)

/-- R25 to R27, R31, R32, R47: the registers and BUF are written only by the instructions the rules name, the header codes
being DECODE_FRAME's: RESULT, POS, LIMIT, PREV_S, FRAME_START and FRAME_BITS, BUF, and the four ports. -/
def Obligations.OnlyNamedCommandsWrite : Prop :=
  ∀ (i : Instr) (s t : State), exec i s = .next t →
    (t.limit ≠ s.limit ∨ t.octetIn ≠ s.octetIn → i = .load) ∧
    (t.octetOut ≠ s.octetOut → i = .serialize) ∧
    (t.valueIn ≠ s.valueIn → (∃ n, i = .append n) ∨ i = .encodeFrame) ∧
    (t.valueOut ≠ s.valueOut → (∃ n sg, i = .extract n sg) ∨ decodes i) ∧
    (t.prevS ≠ s.prevS ∨ t.frameStart ≠ s.frameStart ∨ t.frameBits ≠ s.frameBits → i = .encodeFrame ∨ decodes i) ∧
    (t.buf ≠ s.buf →
      i = .writebit ∨ (∃ n, i = .write n) ∨ (∃ n, i = .append n) ∨ i = .encodeFrame ∨ i = .load ∨ i = .clear) ∧
    (t.pos ≠ s.pos →
      i = .setpos ∨ i = .advance ∨ (∃ n sg, i = .read n sg) ∨ (∃ n, i = .write n) ∨ i = .align ∨
        (∃ n, i = .append n) ∨ (∃ n sg, i = .extract n sg) ∨ i = .encodeFrame ∨ decodes i ∨ i = .load ∨ i = .clear) ∧
    (t.result ≠ s.result →
      i = .getpos ∨ i = .readbit ∨ (∃ n sg, i = .read n sg) ∨ i = .encodeFrame ∨ decodes i ∨ i = .serialize ∨
        i = .load)

/-- R25, R139, R157: an instruction either leaves ERR, ERR_SUB and ERR_OP and the fault record alone (CLRERR clears the
three fields), or it raises one error: then it ends, the record grows by that error, and RESULT is as before. The record is
the model's field (log 12). -/
def Obligations.ErrorsAreRecordedOnce : Prop :=
  ∀ (i : Instr) (s t : State), exec i s = .next t → i ≠ .clrerr →
    (t.err = s.err ∧ t.errSub = s.errSub ∧ t.errOp = s.errOp ∧ t.faults = s.faults) ∨
      (t.inflight = none ∧ t.err ≠ 0#4 ∧ t.result = s.result ∧
        t.faults = { err := t.err, errSub := t.errSub, errOp := t.errOp } :: s.faults)

/-- R41, R115: a header code means something only where DECODE_FRAME reads one: run elsewhere it is refused by name (the
model's choice, log 15). -/
def Obligations.HeaderOutsideDecodeIsRefused : Prop :=
  ∀ (s : State) (hd : Header), (∀ d ix start, s.inflight ≠ some (.decode d ix [] start)) →
    exec hd.toInstr s = .refused .headerOutsideDecode
end

