-- ==== Sys2Proof/Laws/Memory.lean ====
section
/-! SUPPORT. BUF: what each memory operation does to each bit, and that each keeps the canonical form. -/

namespace Sys2Proof.Machine

/-! ## Octet lists -/

theorem cellGet_of_lt {l : List Host.Cell} : ∀ {lo k : Nat}, cellsWf lo l = true → k < lo → cellGet l k = 0#8 := by
  induction l with
  | nil => intros; rfl
  | cons c r ih =>
    obtain ⟨a, v⟩ := c
    intro lo k hw hk
    simp only [cellsWf, Bool.and_eq_true, decide_eq_true_eq] at hw
    have : a ≠ k := by omega
    simp only [cellGet, if_neg this]
    exact ih hw.2 (by omega)

theorem cellsWf_mono {l : List Host.Cell} {lo lo' : Nat} (h : cellsWf lo l = true) (hl : lo' ≤ lo) :
    cellsWf lo' l = true := by
  cases l with
  | nil => rfl
  | cons c r =>
    simp only [cellsWf, Bool.and_eq_true, decide_eq_true_eq] at h ⊢
    exact ⟨⟨by omega, h.1.2⟩, h.2⟩

/-- Setting an octet sets that octet and no other. -/
theorem cellGet_cellSet {l : List Host.Cell} :
    ∀ {lo : Nat}, cellsWf lo l = true → ∀ (k : Nat) (v : BitVec 8) (j : Nat),
      cellGet (cellSet l k v) j = if j = k then v else cellGet l j := by
  induction l with
  | nil =>
    intro lo _ k v j
    by_cases hv : v = 0#8 <;> by_cases hj : j = k <;> simp [cellSet, cellGet, hv, hj]
    omega
  | cons c r ih =>
    obtain ⟨a, w⟩ := c
    intro lo hw k v j
    have hw' := hw
    simp only [cellsWf, Bool.and_eq_true, decide_eq_true_eq] at hw
    have hr : ∀ i, i ≤ a → cellGet r i = 0#8 := fun i hi => cellGet_of_lt hw.2 (by omega)
    simp only [cellSet]
    split
    · rename_i hka
      by_cases hj : j = k
      · subst hj
        have : a ≠ j := by omega
        by_cases hv : v = 0#8 <;> simp [hv, cellGet, this, hr j (by omega)]
      · have hkj : ¬ k = j := fun h => hj h.symm
        by_cases hv : v = 0#8 <;> simp [hv, hj, cellGet, hkj]
    · split
      · rename_i hka
        subst hka
        by_cases hj : j = k
        · subst hj
          by_cases hv : v = 0#8 <;> simp [hv, cellGet, hr j (by omega)]
        · have hkj : ¬ k = j := fun h => hj h.symm
          by_cases hv : v = 0#8 <;> simp [hv, hj, cellGet, hkj]
      · by_cases haj : a = j
        · subst haj
          have : ¬ a = k := by omega
          simp [cellGet, this]
        · simp [cellGet, haj, ih hw.2 k v j]

theorem cellsWf_cellSet {l : List Host.Cell} :
    ∀ {lo k : Nat} (v : BitVec 8), cellsWf lo l = true → lo ≤ k → cellsWf lo (cellSet l k v) = true := by
  induction l with
  | nil =>
    intro lo k v _ hk
    by_cases hv : v = 0#8 <;> simp [cellSet, cellsWf, hv, hk]
  | cons c r ih =>
    obtain ⟨a, w⟩ := c
    intro lo k v hw hk
    have hw' := hw
    simp only [cellsWf, Bool.and_eq_true, decide_eq_true_eq] at hw
    simp only [cellSet]
    split
    · by_cases hv : v = 0#8
      · simp only [hv, if_true]; exact hw'
      · simp only [hv, if_false, cellsWf, Bool.and_eq_true, decide_eq_true_eq]
        exact ⟨⟨hk, hv⟩, ⟨by omega, hw.1.2⟩, hw.2⟩
    · split
      · by_cases hv : v = 0#8
        · simp only [hv, if_true]; exact cellsWf_mono hw.2 (by omega)
        · simp only [hv, if_false, cellsWf, Bool.and_eq_true, decide_eq_true_eq]
          rename_i hka; subst hka
          exact ⟨⟨hk, hv⟩, hw.2⟩
      · simp only [cellsWf, Bool.and_eq_true, decide_eq_true_eq]
        exact ⟨hw.1, ih v hw.2 (by omega)⟩

/-- In canonical form an octet is listed exactly with what it reads as, which is not 0. -/
theorem mem_iff_cellGet {l : List Host.Cell} :
    ∀ {lo : Nat}, cellsWf lo l = true → ∀ (c : Host.Cell), c ∈ l ↔ (cellGet l c.1 = c.2 ∧ c.2 ≠ 0#8) := by
  induction l with
  | nil =>
    intro lo _ c
    constructor
    · intro h; cases h
    · rintro ⟨h, h'⟩; exact absurd h.symm h'
  | cons d r ih =>
    obtain ⟨a, w⟩ := d
    intro lo hw c
    obtain ⟨b, v⟩ := c
    simp only [cellsWf, Bool.and_eq_true, decide_eq_true_eq] at hw
    simp only [List.mem_cons, Prod.mk.injEq, ih hw.2 (b, v), cellGet]
    by_cases hab : a = b
    · subst hab
      have : cellGet r a = 0#8 := cellGet_of_lt hw.2 (by omega)
      simp only [true_and, this, if_true]
      constructor
      · rintro (h | ⟨h, h'⟩)
        · subst h; exact ⟨rfl, hw.1.2⟩
        · exact absurd h.symm h'
      · rintro ⟨h, _⟩; exact Or.inl h.symm
    · have : ¬ b = a := fun h => hab h.symm
      simp [hab, this]

/-- In canonical form, lists that read alike are equal. -/
theorem cells_ext {l : List Host.Cell} :
    ∀ {m : List Host.Cell} {lo lo' : Nat}, cellsWf lo l = true → cellsWf lo' m = true →
      (∀ k, cellGet l k = cellGet m k) → l = m := by
  induction l with
  | nil =>
    intro m lo lo' _ hm h
    cases m with
    | nil => rfl
    | cons c r =>
      exfalso
      have h1 := (mem_iff_cellGet hm c).1 (by simp)
      exact h1.2 (by rw [← h1.1, ← h c.1]; rfl)
  | cons c r ih =>
    intro m lo lo' hl hm h
    cases m with
    | nil =>
      exfalso
      have h1 := (mem_iff_cellGet hl c).1 (by simp)
      exact h1.2 (by rw [← h1.1, h c.1]; rfl)
    | cons d q =>
      obtain ⟨a, v⟩ := c
      obtain ⟨b, w⟩ := d
      have hl' := hl
      have hm' := hm
      simp only [cellsWf, Bool.and_eq_true, decide_eq_true_eq] at hl hm
      have hab : a = b := by
        rcases Nat.lt_trichotomy a b with hlt | heq | hgt
        · exfalso
          have h1 := h a
          have h2 : cellGet ((b, w) :: q) a = 0#8 :=
            cellGet_of_lt (lo := b) (by simp [cellsWf, hm.1.2, hm.2]) hlt
          rw [h2] at h1
          simp only [cellGet, if_true] at h1
          exact hl.1.2 h1
        · exact heq
        · exfalso
          have h1 := h b
          have h2 : cellGet ((a, v) :: r) b = 0#8 :=
            cellGet_of_lt (lo := a) (by simp [cellsWf, hl.1.2, hl.2]) hgt
          rw [h2] at h1
          simp only [cellGet, if_true] at h1
          exact hm.1.2 h1.symm
      subst hab
      have hvw : v = w := by have := h a; simpa [cellGet] using this
      subst hvw
      congr 1
      refine ih hl.2 hm.2 (fun k => ?_)
      by_cases hk : a = k
      · subst hk
        rw [cellGet_of_lt hl.2 (by omega), cellGet_of_lt hm.2 (by omega)]
      · have := h k
        simpa [cellGet, hk] using this

/-! ## The canonical form of BUF -/

theorem wf_iff {m : Memory} : m.wf = true ↔
    cellsWf 0 m.value = true ∧ cellsWf 0 m.written = true ∧
      ∀ k, cellGet m.value k &&& ~~~(cellGet m.written k) = 0#8 := by
  simp only [Memory.wf, Bool.and_eq_true, List.all_eq_true, beq_iff_eq, and_assoc]
  refine and_congr_right fun hv => and_congr_right fun _ => ⟨fun h k => ?_, fun h c hc => ?_⟩
  · by_cases h0 : cellGet m.value k = 0#8
    · simp [h0]
    · exact h (k, cellGet m.value k) ((mem_iff_cellGet hv _).2 ⟨rfl, h0⟩)
  · have h1 := (mem_iff_cellGet hv c).1 hc
    rw [← h1.1]; exact h c.1

theorem within_iff {m : Memory} (h : cellsWf 0 m.written = true) (o : Nat) :
    m.within o = true ↔ ∀ k, o ≤ k → cellGet m.written k = 0#8 := by
  simp only [Memory.within, List.all_eq_true, decide_eq_true_eq]
  refine ⟨fun hw k hk => ?_, fun hw c hc => ?_⟩
  · by_contra h0
    have := hw (k, cellGet m.written k) ((mem_iff_cellGet h _).2 ⟨rfl, h0⟩)
    simp only at this; omega
  · by_contra hlt
    have h1 := (mem_iff_cellGet h c).1 hc
    exact h1.2 (h1.1 ▸ hw c.1 (by omega))

theorem getLsbD_bitMask (j i : Nat) (hj : j < 8) : (bitMask j).getLsbD i = decide (i = j) := by
  by_cases h : i = j
  · subst h; simp [bitMask, hj]
  · simp only [bitMask, BitVec.getLsbD_shiftLeft, BitVec.getLsbD_one]
    by_cases h2 : i < j
    · simp [h, h2]
    · have : ¬ i - j = 0 := by omega
      simp [h, h2, this]

theorem setBit_wf {m : Memory} (h : m.wf = true) (p : Nat) (b : Bool) : (setBit m p b).wf = true := by
  obtain ⟨hv, hw, hs⟩ := wf_iff.1 h
  refine wf_iff.2 ⟨cellsWf_cellSet _ hv (Nat.zero_le _), cellsWf_cellSet _ hw (Nat.zero_le _), fun k => ?_⟩
  simp only [setBit, cellGet_cellSet hv, cellGet_cellSet hw]
  by_cases hk : k = p / 8
  · subst hk
    have h0 := hs (p / 8)
    simp only [if_true, Memory.valueAt, Memory.writtenAt]
    apply BitVec.eq_of_getLsbD_eq
    intro i hi
    have h1 := congrArg (fun x => BitVec.getLsbD x i) h0
    simp only [BitVec.getLsbD_and, BitVec.getLsbD_not, hi, decide_true, Bool.true_and, BitVec.getLsbD_zero] at h1 ⊢
    cases b <;> simp only [BitVec.getLsbD_and, BitVec.getLsbD_or, BitVec.getLsbD_not, hi, decide_true,
      Bool.true_and, Bool.false_eq_true, if_false, if_true, getLsbD_bitMask _ _ (Nat.mod_lt p (by decide : 8 > 0))] <;>
      cases hx : (cellGet m.value (p / 8)).getLsbD i <;> cases hy : (cellGet m.written (p / 8)).getLsbD i <;>
      simp_all
  · simp only [hk, if_false]
    exact hs k

theorem memBit_setBit {m : Memory} (h : m.wf = true) (p : Nat) (b : Bool) (q : Nat) :
    memBit (setBit m p b) q = if q = p then b else memBit m q := by
  obtain ⟨hv, hw, _⟩ := wf_iff.1 h
  simp only [memBit, Memory.writtenAt, Memory.valueAt, setBit, cellGet_cellSet hv, cellGet_cellSet hw]
  have hp : p % 8 < 8 := Nat.mod_lt _ (by decide)
  have hq : q % 8 < 8 := Nat.mod_lt _ (by decide)
  by_cases hk : q / 8 = p / 8
  · simp only [hk, if_true, BitVec.getLsbD_or]
    by_cases hr : q % 8 = p % 8
    · have : q = p := by omega
      subst this
      cases b <;> simp [getLsbD_bitMask _ _ hp]
    · have : ¬ q = p := fun h => hr (by rw [h])
      have hb : (bitMask (p % 8)).getLsbD (q % 8) = false := by rw [getLsbD_bitMask _ _ hp]; simp [hr]
      rw [if_neg this]
      cases b <;> simp only [BitVec.getLsbD_or, BitVec.getLsbD_and, BitVec.getLsbD_not, hb, hq, Bool.or_false,
        decide_true, Bool.not_false, Bool.and_true, if_true, Bool.false_eq_true, if_false]
  · have : ¬ q = p := fun h => hk (by rw [h])
    simp only [hk, this, if_false]
    rfl

theorem setBit_within {m : Memory} (h : m.wf = true) {o : Nat} (hw : m.within o = true) {p : Nat} (hp : p < 8 * o)
    (b : Bool) : (setBit m p b).within o = true := by
  obtain ⟨_, hc, _⟩ := wf_iff.1 h
  obtain ⟨_, hc', _⟩ := wf_iff.1 (setBit_wf h p b)
  refine (within_iff hc' o).2 fun k hk => ?_
  simp only [setBit, cellGet_cellSet hc]
  have : ¬ k = p / 8 := by omega
  simp [this, (within_iff hc o).1 hw k hk]

/-! ## Fields -/

theorem memWrite_wf : ∀ (n : Nat) {m : Memory} (p v : Nat), m.wf = true → (memWrite m p n v).wf = true
  | 0, _, _, _, h => h
  | n + 1, _, p, v, h => memWrite_wf n (p + 1) (v / 2) (setBit_wf h p _)

theorem memWrite_within : ∀ (n : Nat) {m : Memory} {o p : Nat} (v : Nat), m.wf = true → m.within o = true →
    p + n ≤ 8 * o → (memWrite m p n v).within o = true
  | 0, _, _, _, _, _, hw, _ => hw
  | n + 1, _, _, p, v, h, hw, hp =>
    memWrite_within n (v / 2) (setBit_wf h p _) (setBit_within h hw (by omega) _) (by omega)

/-- A write of a field sets its `n` bits to the value's low `n` bits and no other bit (R12, R59). -/
theorem memBit_memWrite : ∀ (n : Nat) {m : Memory} (p v q : Nat), m.wf = true →
    memBit (memWrite m p n v) q = if p ≤ q ∧ q < p + n then v.testBit (q - p) else memBit m q
  | 0, _, p, v, q, _ => by
    have : ¬ (p ≤ q ∧ q < p + 0) := by omega
    rw [if_neg this]; rfl
  | n + 1, m, p, v, q, h => by
    rw [memWrite, memBit_memWrite n (p + 1) (v / 2) q (setBit_wf h p _), memBit_setBit h]
    by_cases hq : q = p
    · subst hq
      have h1 : ¬ (q + 1 ≤ q ∧ q < q + 1 + n) := by omega
      have h2 : q ≤ q ∧ q < q + (n + 1) := by omega
      rw [if_neg h1, if_pos rfl, if_pos h2, Nat.sub_self, Nat.testBit_zero]
      rfl
    · by_cases h1 : p + 1 ≤ q ∧ q < p + 1 + n
      · have h2 : p ≤ q ∧ q < p + (n + 1) := by omega
        obtain ⟨k, hk⟩ : ∃ k, q - p = k + 1 := ⟨q - p - 1, by omega⟩
        rw [if_pos h1, if_pos h2, hk, Nat.testBit_succ]
        congr 1; omega
      · have h2 : ¬ (p ≤ q ∧ q < p + (n + 1)) := by omega
        rw [if_neg h1, if_neg h2, if_neg hq]

/-- Bit `i` of a field read is stream bit `p + i` (R12, R52). -/
theorem testBit_memRead : ∀ (n : Nat) (m : Memory) (p i : Nat),
    (memRead m p n).testBit i = (decide (i < n) && memBit m (p + i))
  | 0, _, _, i => by simp [memRead]
  | n + 1, m, p, i => by
    cases i with
    | zero => cases h : memBit m p <;> simp [memRead, h, Nat.testBit_zero, Nat.add_mod]
    | succ i =>
      have : (memRead m p (n + 1)).testBit (i + 1) = (memRead m (p + 1) n).testBit i := by
        rw [Nat.testBit_succ]
        congr 1
        simp only [memRead]
        cases memBit m p <;> simp <;> omega
      rw [this, testBit_memRead n m (p + 1) i, show p + 1 + i = p + (i + 1) by omega]
      simp

theorem memRead_lt : ∀ (n : Nat) (m : Memory) (p : Nat), memRead m p n < 2 ^ n
  | 0, _, _ => by simp [memRead]
  | n + 1, m, p => by
    have := memRead_lt n m (p + 1)
    simp only [memRead, Nat.pow_succ]
    cases memBit m p <;> simp <;> omega

/-- A field read depends on its own bits only. -/
theorem memRead_congr {m m' : Memory} {p n : Nat} (h : ∀ i, i < n → memBit m (p + i) = memBit m' (p + i)) :
    memRead m p n = memRead m' p n := by
  apply Nat.eq_of_testBit_eq
  intro i
  rw [testBit_memRead, testBit_memRead]
  by_cases hi : i < n
  · simp [hi, h i hi]
  · simp [hi]

/-- A field just written reads back as its low `n` bits. -/
theorem memRead_memWrite_same {m : Memory} (h : m.wf = true) (p n v : Nat) :
    memRead (memWrite m p n v) p n = v % 2 ^ n := by
  apply Nat.eq_of_testBit_eq
  intro i
  rw [testBit_memRead, memBit_memWrite n p v _ h, Nat.testBit_mod_two_pow]
  by_cases hi : i < n
  · have : p ≤ p + i ∧ p + i < p + n := by omega
    simp [hi, this]
  · simp [hi]

/-- A field apart from the one written reads as before. -/
theorem memRead_memWrite_apart {m : Memory} (h : m.wf = true) {p n v q k : Nat} (hd : q + k ≤ p ∨ p + n ≤ q) :
    memRead (memWrite m p n v) q k = memRead m q k := by
  refine memRead_congr fun i hi => ?_
  have : ¬ (p ≤ q + i ∧ q + i < p + n) := by omega
  rw [memBit_memWrite n p v _ h, if_neg this]

theorem memWrite_append : ∀ (a : Nat) {b p v : Nat} (m : Memory),
    memWrite m p (a + b) v = memWrite (memWrite m p a v) (p + a) b (v / 2 ^ a)
  | 0, b, p, v, m => by simp [memWrite]
  | a + 1, b, p, v, m => by
    rw [show a + 1 + b = (a + b) + 1 by omega]
    simp only [memWrite]
    rw [memWrite_append a, Nat.div_div_eq_div_mul, show p + 1 + a = p + (a + 1) by omega, Nat.pow_succ', Nat.mul_comm]

/-! ## Runs of fields -/

theorem writeFields_wf (w : Nat) : ∀ (l : List Nat) {m : Memory} (p : Nat), m.wf = true →
    (writeFields m p w l).wf = true
  | [], _, _, h => h
  | v :: r, _, p, h => writeFields_wf w r (p + w) (memWrite_wf w p v h)

theorem writeFields_within (w : Nat) : ∀ (l : List Nat) {m : Memory} {o p : Nat}, m.wf = true → m.within o = true →
    p + l.length * w ≤ 8 * o → (writeFields m p w l).within o = true
  | [], _, _, _, _, hw, _ => hw
  | v :: r, _, _, p, h, hw, hp => by
    have h1 : (v :: r).length * w = w + r.length * w := by simp [Nat.add_mul, Nat.add_comm]
    have h2 : p + w + r.length * w ≤ p + (v :: r).length * w := by omega
    exact writeFields_within w r (memWrite_wf w p v h) (memWrite_within w v h hw (by omega)) (by omega)

/-- A run of fields leaves every bit outside the run alone. -/
theorem memBit_writeFields_outside (w : Nat) : ∀ (l : List Nat) {m : Memory} (p q : Nat), m.wf = true →
    (q < p ∨ p + l.length * w ≤ q) → memBit (writeFields m p w l) q = memBit m q
  | [], _, _, _, _, _ => rfl
  | v :: r, m, p, q, h, hq => by
    have h1 : (v :: r).length * w = w + r.length * w := by simp [Nat.add_mul, Nat.add_comm]
    rw [writeFields, memBit_writeFields_outside w r (p + w) q (memWrite_wf w p v h) (by omega),
      memBit_memWrite w p v q h, if_neg (by omega)]

/-- Field `j` of a run holds the low `w` bits of value `j`. -/
theorem memRead_writeFields (w : Nat) : ∀ (l : List Nat) {m : Memory} (p j : Nat) (hj : j < l.length), m.wf = true →
    memRead (writeFields m p w l) (p + j * w) w = l[j] % 2 ^ w
  | v :: r, m, p, 0, _, h => by
    have : memRead (writeFields m p w (v :: r)) (p + 0 * w) w = memRead (memWrite m p w v) p w := by
      rw [Nat.zero_mul, Nat.add_zero, writeFields]
      refine memRead_congr fun i hi => memBit_writeFields_outside w r (p + w) (p + i) (memWrite_wf w p v h) (by omega)
    rw [this, memRead_memWrite_same h]; rfl
  | v :: r, m, p, j + 1, hj, h => by
    have := memRead_writeFields w r (p + w) j (by simpa using hj) (memWrite_wf w p v h)
    rw [writeFields, show p + (j + 1) * w = p + w + j * w by rw [Nat.add_mul]; omega, this]; rfl

theorem readFields_length (m : Memory) (w : Nat) : ∀ (n p : Nat), (readFields m p w n).length = n
  | 0, _ => rfl
  | n + 1, p => by simp [readFields, readFields_length m w n (p + w)]

/-- Field `j` of a run read. -/
theorem getElem_readFields (m : Memory) (w : Nat) : ∀ (n p j : Nat) (hj : j < (readFields m p w n).length),
    (readFields m p w n)[j] = memRead m (p + j * w) w
  | n + 1, p, 0, _ => by simp [readFields]
  | n + 1, p, j + 1, hj => by
    have h := getElem_readFields m w n (p + w) j (by simpa [readFields] using hj)
    simp only [readFields, List.getElem_cons_succ, h]
    rw [Nat.add_mul, show p + w + j * w = p + (j * w + 1 * w) by omega]

theorem readFields_congr {m m' : Memory} (w : Nat) : ∀ (n p : Nat),
    (∀ i, i < n * w → memBit m (p + i) = memBit m' (p + i)) → readFields m p w n = readFields m' p w n
  | 0, _, _ => rfl
  | n + 1, p, h => by
    have hw : (n + 1) * w = w + n * w := by rw [Nat.add_mul]; omega
    simp only [readFields]
    rw [memRead_congr (fun i hi => h i (by omega))]
    congr 1
    refine readFields_congr w n (p + w) fun i hi => ?_
    have := h (w + i) (by omega)
    rwa [show p + (w + i) = p + w + i by omega] at this

/-! ## Zeroed octets -/

theorem cellGet_filter_lt (l : List Host.Cell) (c k : Nat) :
    cellGet (l.filter fun x => decide (x.1 < c)) k = if k < c then cellGet l k else 0#8 := by
  induction l with
  | nil => simp [cellGet]
  | cons d r ih =>
    obtain ⟨a, v⟩ := d
    by_cases hk : a = k
    · subst hk
      by_cases ha : a < c
      · simp [cellGet, ha]
      · simp only [List.filter_cons, ha, decide_false, Bool.false_eq_true, if_false, ih]
    · by_cases ha : a < c <;> simp [cellGet, ha, hk, ih]

theorem cellsWf_filter_lt {l : List Host.Cell} (c : Nat) : ∀ {lo : Nat}, cellsWf lo l = true →
    cellsWf lo (l.filter fun x => decide (x.1 < c)) = true := by
  induction l with
  | nil => intros; rfl
  | cons d r ih =>
    obtain ⟨a, v⟩ := d
    intro lo h
    simp only [cellsWf, Bool.and_eq_true, decide_eq_true_eq] at h
    by_cases ha : a < c
    · simp only [List.filter_cons, ha, decide_true, if_true, cellsWf, Bool.and_eq_true, decide_eq_true_eq]
      exact ⟨h.1, ih h.2⟩
    · simp only [List.filter_cons, ha, decide_false, Bool.false_eq_true, if_false]
      exact cellsWf_mono (ih h.2) (by omega)

theorem cellGet_append (l r : List Host.Cell) (k : Nat) (h : ∀ c ∈ l, c.1 ≠ k) : cellGet (l ++ r) k = cellGet r k := by
  induction l with
  | nil => rfl
  | cons d l ih =>
    obtain ⟨a, v⟩ := d
    have : a ≠ k := h (a, v) (by simp)
    simp only [List.cons_append, cellGet, if_neg this]
    exact ih fun c hc => h c (by simp [hc])

theorem cellGet_append_right (l r : List Host.Cell) (k : Nat) (h : cellGet r k = 0#8) :
    cellGet (l ++ r) k = cellGet l k := by
  induction l with
  | nil => simpa [cellGet] using h
  | cons d l ih =>
    obtain ⟨a, v⟩ := d
    simp only [List.cons_append, cellGet, ih]

theorem cellGet_full : ∀ (n c k : Nat), cellGet ((List.range' c n).map fun k => (k, 0xFF#8)) k =
    if c ≤ k ∧ k < c + n then 0xFF#8 else 0#8
  | 0, c, k => by
    have : ¬ (c ≤ k ∧ k < c + 0) := by omega
    simp [cellGet]
  | n + 1, c, k => by
    rw [List.range'_succ, List.map_cons]
    by_cases h : c = k
    · subst h; simp [cellGet]
    · simp only [cellGet, if_neg h, cellGet_full n (c + 1) k]
      by_cases h2 : c ≤ k ∧ k < c + (n + 1)
      · rw [if_pos h2, if_pos (by omega)]
      · rw [if_neg h2, if_neg (by omega)]

theorem cellsWf_full : ∀ (n c : Nat), cellsWf c ((List.range' c n).map fun k => (k, 0xFF#8)) = true
  | 0, _ => rfl
  | n + 1, c => by simp [List.range'_succ, cellsWf, cellsWf_full n (c + 1)]

theorem cellsWf_append {l r : List Host.Cell} {c : Nat} : ∀ {lo : Nat}, cellsWf lo l = true → (∀ x ∈ l, x.1 < c) →
    lo ≤ c → cellsWf c r = true → cellsWf lo (l ++ r) = true := by
  induction l with
  | nil => intro lo _ _ hc hr; exact cellsWf_mono hr hc
  | cons d l ih =>
    obtain ⟨a, v⟩ := d
    intro lo h hl hc hr
    simp only [cellsWf, Bool.and_eq_true, decide_eq_true_eq] at h
    simp only [List.cons_append, cellsWf, Bool.and_eq_true, decide_eq_true_eq]
    exact ⟨h.1, ih h.2 (fun x hx => hl x (by simp [hx])) (hl (a, v) (by simp)) hr⟩

theorem writtenAt_zeroOctets (m : Memory) (c o k : Nat) :
    cellGet (zeroOctets m c o).written k = if k < c then cellGet m.written k else if k < o then 0xFF#8 else 0#8 := by
  simp only [zeroOctets]
  by_cases hk : k < c
  · rw [cellGet_append_right _ _ _ (by rw [cellGet_full, if_neg (by omega)]), cellGet_filter_lt, if_pos hk, if_pos hk]
  · rw [cellGet_append _ _ _ (by
      intro x hx
      simp only [List.mem_filter, decide_eq_true_eq] at hx
      omega), cellGet_full, if_neg hk]
    by_cases ho : k < o
    · rw [if_pos ho, if_pos (by omega)]
    · rw [if_neg ho, if_neg (by omega)]

theorem zeroOctets_wf {m : Memory} (h : m.wf = true) (c o : Nat) : (zeroOctets m c o).wf = true := by
  obtain ⟨hv, hw, hs⟩ := wf_iff.1 h
  refine wf_iff.2 ⟨cellsWf_filter_lt c hv, ?_, fun k => ?_⟩
  · refine cellsWf_append (c := c) (cellsWf_filter_lt c hw) (fun x hx => ?_) (Nat.zero_le _) (cellsWf_full _ _)
    simpa using (List.mem_filter.1 hx).2
  · rw [writtenAt_zeroOctets]
    simp only [zeroOctets, cellGet_filter_lt]
    by_cases hk : k < c
    · simp [hk, hs k]
    · simp [hk]

theorem zeroOctets_within {m : Memory} (h : m.wf = true) {o : Nat} (hw : m.within o = true) (c : Nat) :
    (zeroOctets m c o).within o = true := by
  obtain ⟨_, hc, _⟩ := wf_iff.1 h
  obtain ⟨_, hc', _⟩ := wf_iff.1 (zeroOctets_wf h c o)
  refine (within_iff hc' o).2 fun k hk => ?_
  rw [writtenAt_zeroOctets]
  by_cases h1 : k < c
  · simp [h1, (within_iff hc o).1 hw k hk]
  · simp [h1, Nat.not_lt.2 hk]

/-- Octets `c` to `o - 1` read 0 after the fill, and the bits below octet `c` as before (R132, R136). -/
theorem memBit_zeroOctets (m : Memory) (c o q : Nat) (hq : q < 8 * o) :
    memBit (zeroOctets m c o) q = if q < 8 * c then memBit m q else false := by
  simp only [memBit, Memory.writtenAt, Memory.valueAt, writtenAt_zeroOctets]
  have hv : cellGet (zeroOctets m c o).value (q / 8) = if q / 8 < c then cellGet m.value (q / 8) else 0#8 := by
    simp only [zeroOctets, cellGet_filter_lt]
  have he : (zeroOctets m c o).era = m.era := rfl
  rw [hv, he]
  by_cases hc : q < 8 * c
  · have : q / 8 < c := by omega
    simp only [hc, this, if_true]
    rfl
  · have h1 : ¬ q / 8 < c := by omega
    have h2 : q / 8 < o := by omega
    have h3 : (0xFF#8).getLsbD (q % 8) = true := by
      have h4 : ∀ i, i < 8 → (0xFF#8 : BitVec 8).getLsbD i = true := by decide
      exact h4 _ (Nat.mod_lt _ (by decide))
    simp [hc, h1, h2, h3]

/-- BUF after reset is in canonical form. -/
theorem reset_wf : State.reset.buf.wf = true := by decide

end Sys2Proof.Machine
end

