-- ==== Sys2Proof/Laws/Operands.lean ====
section
/-! SUPPORT. The arithmetic of the codec: alignment, significant bits, header selection, delivery. -/

namespace Sys2Proof.Machine

/-! ## Alignment -/

theorem le_ceil8 (p : Nat) : p ≤ ceil8 p := by unfold ceil8; omega
theorem ceil8_lt (p : Nat) : ceil8 p < p + 8 := by unfold ceil8; omega
@[simp] theorem ceil8_mod (p : Nat) : ceil8 p % 8 = 0 := by unfold ceil8; omega
theorem ceil8_of_mod {p : Nat} (h : p % 8 = 0) : ceil8 p = p := by unfold ceil8; omega
theorem ceil8_le {p c : Nat} (h : p ≤ 8 * c) : ceil8 p ≤ 8 * c := by unfold ceil8; omega
theorem ceil8_le_cap {p : Nat} {q : Params} (h : p ≤ q.cap) : ceil8 p ≤ q.cap := ceil8_le h
theorem eight_mul_payload (p : Nat) : 8 * ((p + 7) / 8) = ceil8 p := rfl

/-! ## Parameters -/

theorem cap_lt {q : Params} (h : q.legal = true) : q.cap < 2 ^ 63 := by
  simp only [Params.legal, Bool.and_eq_true, decide_eq_true_eq] at h
  exact h.1.1.1.1.2

/-! ## Significant bits -/

theorem lt_two_pow_bitlen (x : Nat) : x < 2 ^ bitlen x := by
  unfold bitlen
  split
  · subst x; simp
  · exact Nat.lt_log2_self

theorem bitlen_le {x n : Nat} (h : x < 2 ^ n) : bitlen x ≤ n := by
  unfold bitlen
  split
  · exact Nat.zero_le _
  · rename_i hx
    exact (Nat.log2_lt hx).2 h

theorem bitlen_eq_zero {x : Nat} : bitlen x = 0 ↔ x = 0 := by
  unfold bitlen; split <;> simp_all

theorem bitlen_mono {x y : Nat} (h : x ≤ y) : bitlen x ≤ bitlen y :=
  bitlen_le (Nat.lt_of_le_of_lt h (lt_two_pow_bitlen y))

theorem natAbs_le_setbits {vs : List Int} {v : Int} (h : v ∈ vs) : v.natAbs ≤ setbits vs := by
  induction vs with
  | nil => cases h
  | cons w r ih =>
    rcases List.mem_cons.1 h with rfl | h'
    · exact Nat.left_le_or
    · exact Nat.le_trans (ih h') Nat.right_le_or

theorem setbits_lt {vs : List Int} {n : Nat} (h : ∀ v ∈ vs, v.natAbs < 2 ^ n) : setbits vs < 2 ^ n := by
  induction vs with
  | nil => exact Nat.two_pow_pos n
  | cons w r ih =>
    exact Nat.or_lt_two_pow (h w (by simp)) (ih fun v hv => h v (by simp [hv]))

theorem sigBits_le_of_unsigned {pb : Nat} {vs : List Int} (h : ∀ v ∈ vs, v.natAbs < 2 ^ pb) :
    sigBits false pb vs ≤ pb := bitlen_le (setbits_lt h)

theorem sigBits_le_of_signed (pb : Nat) (vs : List Int) : sigBits true pb vs ≤ pb := by
  simp only [sigBits, if_true]
  split
  · exact Nat.zero_le _
  · exact Nat.min_le_left _ _

/-! ## Words and values (R36) -/

theorem wordValue_unsigned {pb : Nat} {x : Word} (h : wordLegal false pb x = true) :
    wordValue false pb x = x.toNat ∧ x.toNat < 2 ^ pb := by
  simp only [wordLegal, Bool.false_eq_true, if_false, beq_iff_eq] at h
  have h1 : x.toNat = (x.setWidth pb).toNat % 2 ^ 64 := by
    conv_lhs => rw [h]
    simp
  have h2 : (x.setWidth pb).toNat < 2 ^ pb := (x.setWidth pb).isLt
  have h3 : (x.setWidth pb).toNat ≤ x.toNat := by rw [BitVec.toNat_setWidth]; exact Nat.mod_le _ _
  have h4 : (x.setWidth pb).toNat % 2 ^ 64 ≤ (x.setWidth pb).toNat := Nat.mod_le _ _
  have h5 : (x.setWidth pb).toNat = x.toNat := by omega
  simp only [wordValue, Bool.false_eq_true, if_false]
  constructor
  · rw [h5]
  · rw [← h5]; exact h2

theorem wordValue_signed {pb : Nat} {x : Word} (hp : pb ≤ 64) (h : wordLegal true pb x = true) :
    wordValue true pb x = x.toInt := by
  simp only [wordLegal, if_true, beq_iff_eq] at h
  simp only [wordValue, if_true]
  conv_rhs => rw [h]
  rw [BitVec.toInt_signExtend_of_le hp]

theorem wordValue_bounds (pb : Nat) (x : Word) :
    -(2 ^ (pb - 1) : Int) ≤ wordValue true pb x ∧ wordValue true pb x < 2 ^ (pb - 1) := by
  simp only [wordValue, if_true]
  exact ⟨BitVec.le_toInt _, BitVec.toInt_lt⟩

end Sys2Proof.Machine
end

