-- ==== Sys2Proof/Laws/State.lean ====
section
/-! SUPPORT. One lemma per field for each named update of State, so that no proof unfolds a record update. -/

namespace Sys2Proof.Machine

/-! ## retire -/

@[simp] theorem retire_par (s : State) : (retire s).par = s.par := rfl
@[simp] theorem retire_inflight (s : State) : (retire s).inflight = none := rfl
@[simp] theorem retire_ovr (s : State) : (retire s).ovr = s.ovr := rfl
@[simp] theorem retire_err (s : State) : (retire s).err = s.err := rfl
@[simp] theorem retire_errSub (s : State) : (retire s).errSub = s.errSub := rfl
@[simp] theorem retire_errOp (s : State) : (retire s).errOp = s.errOp := rfl
@[simp] theorem retire_arg (s : State) : (retire s).arg = s.arg := rfl
@[simp] theorem retire_cnt (s : State) : (retire s).cnt = s.cnt := rfl
@[simp] theorem retire_result (s : State) : (retire s).result = s.result := rfl
@[simp] theorem retire_pos (s : State) : (retire s).pos = s.pos := rfl
@[simp] theorem retire_limit (s : State) : (retire s).limit = s.limit := rfl
@[simp] theorem retire_cfg (s : State) : (retire s).cfg = s.cfg := rfl
@[simp] theorem retire_nvalues (s : State) : (retire s).nvalues = s.nvalues := rfl
@[simp] theorem retire_prevS (s : State) : (retire s).prevS = s.prevS := rfl
@[simp] theorem retire_frameStart (s : State) : (retire s).frameStart = s.frameStart := rfl
@[simp] theorem retire_frameBits (s : State) : (retire s).frameBits = s.frameBits := rfl
@[simp] theorem retire_buf (s : State) : (retire s).buf = s.buf := rfl
@[simp] theorem retire_valueIn (s : State) : (retire s).valueIn = s.valueIn := rfl
@[simp] theorem retire_valueOut (s : State) : (retire s).valueOut = s.valueOut := rfl
@[simp] theorem retire_octetIn (s : State) : (retire s).octetIn = s.octetIn := rfl
@[simp] theorem retire_octetOut (s : State) : (retire s).octetOut = s.octetOut := rfl
@[simp] theorem retire_host (s : State) : (retire s).host = s.host := rfl
@[simp] theorem retire_seen (s : State) : (retire s).seen = s.seen := rfl
@[simp] theorem retire_draws (s : State) : (retire s).draws = s.draws := rfl
@[simp] theorem retire_faults (s : State) : (retire s).faults = s.faults := rfl
@[simp] theorem retire_capOf (s : State) : capOf (retire s) = capOf s := rfl

/-! ## hold -/

@[simp] theorem hold_par (f : InFlight) (s : State) : (hold f s).par = s.par := rfl
@[simp] theorem hold_inflight (f : InFlight) (s : State) : (hold f s).inflight = some f := rfl
@[simp] theorem hold_ovr (f : InFlight) (s : State) : (hold f s).ovr = s.ovr := rfl
@[simp] theorem hold_err (f : InFlight) (s : State) : (hold f s).err = s.err := rfl
@[simp] theorem hold_errSub (f : InFlight) (s : State) : (hold f s).errSub = s.errSub := rfl
@[simp] theorem hold_errOp (f : InFlight) (s : State) : (hold f s).errOp = s.errOp := rfl
@[simp] theorem hold_arg (f : InFlight) (s : State) : (hold f s).arg = s.arg := rfl
@[simp] theorem hold_cnt (f : InFlight) (s : State) : (hold f s).cnt = s.cnt := rfl
@[simp] theorem hold_result (f : InFlight) (s : State) : (hold f s).result = s.result := rfl
@[simp] theorem hold_pos (f : InFlight) (s : State) : (hold f s).pos = s.pos := rfl
@[simp] theorem hold_limit (f : InFlight) (s : State) : (hold f s).limit = s.limit := rfl
@[simp] theorem hold_cfg (f : InFlight) (s : State) : (hold f s).cfg = s.cfg := rfl
@[simp] theorem hold_nvalues (f : InFlight) (s : State) : (hold f s).nvalues = s.nvalues := rfl
@[simp] theorem hold_prevS (f : InFlight) (s : State) : (hold f s).prevS = s.prevS := rfl
@[simp] theorem hold_frameStart (f : InFlight) (s : State) : (hold f s).frameStart = s.frameStart := rfl
@[simp] theorem hold_frameBits (f : InFlight) (s : State) : (hold f s).frameBits = s.frameBits := rfl
@[simp] theorem hold_buf (f : InFlight) (s : State) : (hold f s).buf = s.buf := rfl
@[simp] theorem hold_valueIn (f : InFlight) (s : State) : (hold f s).valueIn = s.valueIn := rfl
@[simp] theorem hold_valueOut (f : InFlight) (s : State) : (hold f s).valueOut = s.valueOut := rfl
@[simp] theorem hold_octetIn (f : InFlight) (s : State) : (hold f s).octetIn = s.octetIn := rfl
@[simp] theorem hold_octetOut (f : InFlight) (s : State) : (hold f s).octetOut = s.octetOut := rfl
@[simp] theorem hold_host (f : InFlight) (s : State) : (hold f s).host = s.host := rfl
@[simp] theorem hold_seen (f : InFlight) (s : State) : (hold f s).seen = s.seen := rfl
@[simp] theorem hold_draws (f : InFlight) (s : State) : (hold f s).draws = s.draws := rfl
@[simp] theorem hold_faults (f : InFlight) (s : State) : (hold f s).faults = s.faults := rfl
@[simp] theorem hold_capOf (f : InFlight) (s : State) : capOf (hold f s) = capOf s := rfl

/-! ## raise -/

@[simp] theorem raise_par (op : BitVec 8) (c : Cause) (s : State) : (raise op c s).par = s.par := rfl
@[simp] theorem raise_inflight (op : BitVec 8) (c : Cause) (s : State) : (raise op c s).inflight = none := rfl
@[simp] theorem raise_ovr (op : BitVec 8) (c : Cause) (s : State) : (raise op c s).ovr = s.ovr := rfl
@[simp] theorem raise_err (op : BitVec 8) (c : Cause) (s : State) : (raise op c s).err = errCode c := rfl
@[simp] theorem raise_errSub (op : BitVec 8) (c : Cause) (s : State) : (raise op c s).errSub = errSubCode c := rfl
@[simp] theorem raise_errOp (op : BitVec 8) (c : Cause) (s : State) : (raise op c s).errOp = op := rfl
@[simp] theorem raise_arg (op : BitVec 8) (c : Cause) (s : State) : (raise op c s).arg = s.arg := rfl
@[simp] theorem raise_cnt (op : BitVec 8) (c : Cause) (s : State) : (raise op c s).cnt = s.cnt := rfl
@[simp] theorem raise_result (op : BitVec 8) (c : Cause) (s : State) : (raise op c s).result = s.result := rfl
@[simp] theorem raise_pos (op : BitVec 8) (c : Cause) (s : State) : (raise op c s).pos = s.pos := rfl
@[simp] theorem raise_limit (op : BitVec 8) (c : Cause) (s : State) : (raise op c s).limit = s.limit := rfl
@[simp] theorem raise_cfg (op : BitVec 8) (c : Cause) (s : State) : (raise op c s).cfg = s.cfg := rfl
@[simp] theorem raise_nvalues (op : BitVec 8) (c : Cause) (s : State) : (raise op c s).nvalues = s.nvalues := rfl
@[simp] theorem raise_prevS (op : BitVec 8) (c : Cause) (s : State) : (raise op c s).prevS = s.prevS := rfl
@[simp] theorem raise_frameStart (op : BitVec 8) (c : Cause) (s : State) :
    (raise op c s).frameStart = s.frameStart := rfl
@[simp] theorem raise_frameBits (op : BitVec 8) (c : Cause) (s : State) : (raise op c s).frameBits = s.frameBits := rfl
@[simp] theorem raise_buf (op : BitVec 8) (c : Cause) (s : State) : (raise op c s).buf = s.buf := rfl
@[simp] theorem raise_valueIn (op : BitVec 8) (c : Cause) (s : State) : (raise op c s).valueIn = s.valueIn := rfl
@[simp] theorem raise_valueOut (op : BitVec 8) (c : Cause) (s : State) : (raise op c s).valueOut = s.valueOut := rfl
@[simp] theorem raise_octetIn (op : BitVec 8) (c : Cause) (s : State) : (raise op c s).octetIn = s.octetIn := rfl
@[simp] theorem raise_octetOut (op : BitVec 8) (c : Cause) (s : State) : (raise op c s).octetOut = s.octetOut := rfl
@[simp] theorem raise_host (op : BitVec 8) (c : Cause) (s : State) : (raise op c s).host = s.host := rfl
@[simp] theorem raise_seen (op : BitVec 8) (c : Cause) (s : State) : (raise op c s).seen = s.seen := rfl
@[simp] theorem raise_draws (op : BitVec 8) (c : Cause) (s : State) : (raise op c s).draws = s.draws := rfl
@[simp] theorem raise_faults (op : BitVec 8) (c : Cause) (s : State) :
    (raise op c s).faults = { err := errCode c, errSub := errSubCode c, errOp := op } :: s.faults := rfl
@[simp] theorem raise_capOf (op : BitVec 8) (c : Cause) (s : State) : capOf (raise op c s) = capOf s := rfl

/-! ## clearError -/

@[simp] theorem clearError_par (s : State) : (clearError s).par = s.par := rfl
@[simp] theorem clearError_inflight (s : State) : (clearError s).inflight = s.inflight := rfl
@[simp] theorem clearError_ovr (s : State) : (clearError s).ovr = false := rfl
@[simp] theorem clearError_err (s : State) : (clearError s).err = 0#4 := rfl
@[simp] theorem clearError_errSub (s : State) : (clearError s).errSub = 0#4 := rfl
@[simp] theorem clearError_errOp (s : State) : (clearError s).errOp = 0#8 := rfl
@[simp] theorem clearError_arg (s : State) : (clearError s).arg = s.arg := rfl
@[simp] theorem clearError_cnt (s : State) : (clearError s).cnt = s.cnt := rfl
@[simp] theorem clearError_result (s : State) : (clearError s).result = s.result := rfl
@[simp] theorem clearError_pos (s : State) : (clearError s).pos = s.pos := rfl
@[simp] theorem clearError_limit (s : State) : (clearError s).limit = s.limit := rfl
@[simp] theorem clearError_cfg (s : State) : (clearError s).cfg = s.cfg := rfl
@[simp] theorem clearError_nvalues (s : State) : (clearError s).nvalues = s.nvalues := rfl
@[simp] theorem clearError_prevS (s : State) : (clearError s).prevS = s.prevS := rfl
@[simp] theorem clearError_frameStart (s : State) : (clearError s).frameStart = s.frameStart := rfl
@[simp] theorem clearError_frameBits (s : State) : (clearError s).frameBits = s.frameBits := rfl
@[simp] theorem clearError_buf (s : State) : (clearError s).buf = s.buf := rfl
@[simp] theorem clearError_valueIn (s : State) : (clearError s).valueIn = s.valueIn := rfl
@[simp] theorem clearError_valueOut (s : State) : (clearError s).valueOut = s.valueOut := rfl
@[simp] theorem clearError_octetIn (s : State) : (clearError s).octetIn = s.octetIn := rfl
@[simp] theorem clearError_octetOut (s : State) : (clearError s).octetOut = s.octetOut := rfl
@[simp] theorem clearError_host (s : State) : (clearError s).host = s.host := rfl
@[simp] theorem clearError_seen (s : State) : (clearError s).seen = s.seen := rfl
@[simp] theorem clearError_draws (s : State) : (clearError s).draws = s.draws := rfl
@[simp] theorem clearError_faults (s : State) : (clearError s).faults = s.faults := rfl
@[simp] theorem clearError_capOf (s : State) : capOf (clearError s) = capOf s := rfl

/-! ## observe -/

@[simp] theorem observe_par (off : Nat) (v : Word) (s : State) : (observe off v s).par = s.par := rfl
@[simp] theorem observe_inflight (off : Nat) (v : Word) (s : State) : (observe off v s).inflight = s.inflight := rfl
@[simp] theorem observe_ovr (off : Nat) (v : Word) (s : State) : (observe off v s).ovr = s.ovr := rfl
@[simp] theorem observe_err (off : Nat) (v : Word) (s : State) : (observe off v s).err = s.err := rfl
@[simp] theorem observe_errSub (off : Nat) (v : Word) (s : State) : (observe off v s).errSub = s.errSub := rfl
@[simp] theorem observe_errOp (off : Nat) (v : Word) (s : State) : (observe off v s).errOp = s.errOp := rfl
@[simp] theorem observe_arg (off : Nat) (v : Word) (s : State) : (observe off v s).arg = s.arg := rfl
@[simp] theorem observe_cnt (off : Nat) (v : Word) (s : State) : (observe off v s).cnt = s.cnt := rfl
@[simp] theorem observe_result (off : Nat) (v : Word) (s : State) : (observe off v s).result = s.result := rfl
@[simp] theorem observe_pos (off : Nat) (v : Word) (s : State) : (observe off v s).pos = s.pos := rfl
@[simp] theorem observe_limit (off : Nat) (v : Word) (s : State) : (observe off v s).limit = s.limit := rfl
@[simp] theorem observe_cfg (off : Nat) (v : Word) (s : State) : (observe off v s).cfg = s.cfg := rfl
@[simp] theorem observe_nvalues (off : Nat) (v : Word) (s : State) : (observe off v s).nvalues = s.nvalues := rfl
@[simp] theorem observe_prevS (off : Nat) (v : Word) (s : State) : (observe off v s).prevS = s.prevS := rfl
@[simp] theorem observe_frameStart (off : Nat) (v : Word) (s : State) :
    (observe off v s).frameStart = s.frameStart := rfl
@[simp] theorem observe_frameBits (off : Nat) (v : Word) (s : State) : (observe off v s).frameBits = s.frameBits := rfl
@[simp] theorem observe_buf (off : Nat) (v : Word) (s : State) : (observe off v s).buf = s.buf := rfl
@[simp] theorem observe_valueIn (off : Nat) (v : Word) (s : State) : (observe off v s).valueIn = s.valueIn := rfl
@[simp] theorem observe_valueOut (off : Nat) (v : Word) (s : State) : (observe off v s).valueOut = s.valueOut := rfl
@[simp] theorem observe_octetIn (off : Nat) (v : Word) (s : State) : (observe off v s).octetIn = s.octetIn := rfl
@[simp] theorem observe_octetOut (off : Nat) (v : Word) (s : State) : (observe off v s).octetOut = s.octetOut := rfl
@[simp] theorem observe_host (off : Nat) (v : Word) (s : State) : (observe off v s).host = s.host := rfl
@[simp] theorem observe_seen (off : Nat) (v : Word) (s : State) :
    (observe off v s).seen = .register off v :: s.seen := rfl
@[simp] theorem observe_draws (off : Nat) (v : Word) (s : State) : (observe off v s).draws = s.draws := rfl
@[simp] theorem observe_faults (off : Nat) (v : Word) (s : State) : (observe off v s).faults = s.faults := rfl
@[simp] theorem observe_capOf (off : Nat) (v : Word) (s : State) : capOf (observe off v s) = capOf s := rfl

/-! ## corruptBlock -/

@[simp] theorem corruptBlock_par (c : Cause) (start : Word) (s : State) : (corruptBlock c start s).par = s.par := rfl
@[simp] theorem corruptBlock_inflight (c : Cause) (start : Word) (s : State) :
    (corruptBlock c start s).inflight = none := rfl
@[simp] theorem corruptBlock_ovr (c : Cause) (start : Word) (s : State) : (corruptBlock c start s).ovr = s.ovr := rfl
@[simp] theorem corruptBlock_err (c : Cause) (start : Word) (s : State) :
    (corruptBlock c start s).err = errCode c := rfl
@[simp] theorem corruptBlock_errSub (c : Cause) (start : Word) (s : State) :
    (corruptBlock c start s).errSub = errSubCode c := rfl
@[simp] theorem corruptBlock_errOp (c : Cause) (start : Word) (s : State) :
    (corruptBlock c start s).errOp = 0x11#8 := rfl
@[simp] theorem corruptBlock_arg (c : Cause) (start : Word) (s : State) : (corruptBlock c start s).arg = s.arg := rfl
@[simp] theorem corruptBlock_cnt (c : Cause) (start : Word) (s : State) : (corruptBlock c start s).cnt = s.cnt := rfl
@[simp] theorem corruptBlock_result (c : Cause) (start : Word) (s : State) :
    (corruptBlock c start s).result = s.result := rfl
@[simp] theorem corruptBlock_pos (c : Cause) (start : Word) (s : State) : (corruptBlock c start s).pos = start := rfl
@[simp] theorem corruptBlock_limit (c : Cause) (start : Word) (s : State) :
    (corruptBlock c start s).limit = s.limit := rfl
@[simp] theorem corruptBlock_cfg (c : Cause) (start : Word) (s : State) : (corruptBlock c start s).cfg = s.cfg := rfl
@[simp] theorem corruptBlock_nvalues (c : Cause) (start : Word) (s : State) :
    (corruptBlock c start s).nvalues = s.nvalues := rfl
@[simp] theorem corruptBlock_prevS (c : Cause) (start : Word) (s : State) :
    (corruptBlock c start s).prevS = s.prevS := rfl
@[simp] theorem corruptBlock_frameStart (c : Cause) (start : Word) (s : State) :
    (corruptBlock c start s).frameStart = s.frameStart := rfl
@[simp] theorem corruptBlock_frameBits (c : Cause) (start : Word) (s : State) :
    (corruptBlock c start s).frameBits = s.frameBits := rfl
@[simp] theorem corruptBlock_buf (c : Cause) (start : Word) (s : State) : (corruptBlock c start s).buf = s.buf := rfl
@[simp] theorem corruptBlock_valueIn (c : Cause) (start : Word) (s : State) :
    (corruptBlock c start s).valueIn = s.valueIn := rfl
@[simp] theorem corruptBlock_valueOut (c : Cause) (start : Word) (s : State) :
    (corruptBlock c start s).valueOut = s.valueOut := rfl
@[simp] theorem corruptBlock_octetIn (c : Cause) (start : Word) (s : State) :
    (corruptBlock c start s).octetIn = s.octetIn := rfl
@[simp] theorem corruptBlock_octetOut (c : Cause) (start : Word) (s : State) :
    (corruptBlock c start s).octetOut = s.octetOut := rfl
@[simp] theorem corruptBlock_host (c : Cause) (start : Word) (s : State) : (corruptBlock c start s).host = s.host := rfl
@[simp] theorem corruptBlock_seen (c : Cause) (start : Word) (s : State) : (corruptBlock c start s).seen = s.seen := rfl
@[simp] theorem corruptBlock_draws (c : Cause) (start : Word) (s : State) :
    (corruptBlock c start s).draws = s.draws := rfl
@[simp] theorem corruptBlock_faults (c : Cause) (start : Word) (s : State) :
    (corruptBlock c start s).faults = { err := errCode c, errSub := errSubCode c, errOp := 0x11#8 } :: s.faults := rfl
@[simp] theorem corruptBlock_capOf (c : Cause) (start : Word) (s : State) : capOf (corruptBlock c start s) = capOf s := rfl

/-! ## BUSY -/

@[simp] theorem busy_retire (s : State) : busy (retire s) = false := rfl
@[simp] theorem busy_hold (f : InFlight) (s : State) : busy (hold f s) = true := rfl
@[simp] theorem busy_raise (op : BitVec 8) (c : Cause) (s : State) : busy (raise op c s) = false := rfl

end Sys2Proof.Machine
end

