-- ==== Sys2Proof/Laws/Loops.lean ====
section
/-! SUPPORT. The series commands' loops: what `k` turns of each do, whatever is left after them, and that each ends or
waits. -/

namespace Sys2Proof.Machine

theorem ofNat_toNat_add_zero (p : Word) : BitVec.ofNat 64 (p.toNat + 0) = p := by simp

theorem toNat_ofNat_add {p : Word} {k : Nat} (h : p.toNat + k < 2 ^ 64) :
    (BitVec.ofNat 64 (p.toNat + k)).toNat = p.toNat + k := by
  rw [BitVec.toNat_ofNat]; exact Nat.mod_eq_of_lt h

theorem toNat_ofNat_lt {k : Nat} (h : k < 2 ^ 64) : (BitVec.ofNat 64 k).toNat = k := by
  rw [BitVec.toNat_ofNat]; exact Nat.mod_eq_of_lt h

/-! ## APPEND -/

/-- APPEND after `k` words of VALUE_IN: they are popped and written, in order, from POS. -/
theorem appendLoop_take (n : BitVec 7) : ∀ (k left : Nat) (s : State), k ≤ left → k ≤ s.valueIn.length →
    s.pos.toNat + k * n.toNat < 2 ^ 64 →
    appendLoop n left s = appendLoop n (left - k) { s with
      valueIn := s.valueIn.drop k
      buf := writeFields s.buf s.pos.toNat n.toNat ((s.valueIn.take k).map BitVec.toNat)
      pos := BitVec.ofNat 64 (s.pos.toNat + k * n.toNat) }
  | 0, left, s, _, _, _ => by simp [writeFields]
  | k + 1, 0, s, h, _, _ => by omega
  | k + 1, left + 1, s, h, hl, hp => by
    cases hv : s.valueIn with
    | nil => rw [hv] at hl; simp at hl
    | cons x q =>
      have hk : (k + 1) * n.toNat = n.toNat + k * n.toNat := by rw [Nat.add_mul]; omega
      have h1 := toNat_ofNat_add (p := s.pos) (k := n.toNat) (by omega)
      rw [appendLoop, hv]
      simp only []
      rw [appendLoop_take n k left _ (by omega) (by rw [hv] at hl; simpa using hl) (by
        simp only []; rw [h1]; omega)]
      simp only [h1, List.drop_succ_cons, List.take_succ_cons, List.map_cons, writeFields]
      rw [show left + 1 - (k + 1) = left - k by omega, hk, Nat.add_assoc]

/-- With nothing in VALUE_IN, APPEND waits unless it is done. -/
theorem appendLoop_nil (n : BitVec 7) (left : Nat) (s : State) (h : s.valueIn = []) :
    appendLoop n left s = if left = 0 then retire s else hold (.append n (s.cnt.toNat - left)) s := by
  cases left with
  | zero => simp [appendLoop]
  | succ l => simp [appendLoop, h]

/-! ## EXTRACT -/

/-- EXTRACT after `k` fields for which VALUE_OUT has room: they are read, clamped and pushed, in order. -/
theorem extractLoop_take (n : BitVec 7) (sg : Bool) : ∀ (k left : Nat) (s : State), k ≤ left →
    s.valueOut.length + k ≤ s.par.voutDepth → s.pos.toNat + k * n.toNat < 2 ^ 64 →
    extractLoop n sg left s = extractLoop n sg (left - k) { s with
      valueOut := s.valueOut ++ (readFields s.buf s.pos.toNat n.toNat k).map fun f =>
        deliverWord s.cfg (fieldInt sg n.toNat f)
      pos := BitVec.ofNat 64 (s.pos.toNat + k * n.toNat) }
  | 0, left, s, _, _, _ => by simp [readFields]
  | k + 1, 0, s, h, _, _ => by omega
  | k + 1, left + 1, s, h, hl, hp => by
    have hk : (k + 1) * n.toNat = n.toNat + k * n.toNat := by rw [Nat.add_mul]; omega
    have h1 := toNat_ofNat_add (p := s.pos) (k := n.toNat) (by omega)
    rw [extractLoop, if_pos (by omega), extractLoop_take n sg k left _ (by omega) (by simp; omega) (by
      simp only []; rw [h1]; omega)]
    simp only [h1, readFields, List.map_cons, List.append_assoc, List.singleton_append]
    rw [show left + 1 - (k + 1) = left - k by omega, hk, Nat.add_assoc]

/-- With VALUE_OUT full, EXTRACT waits unless it is done. -/
theorem extractLoop_full (n : BitVec 7) (sg : Bool) (left : Nat) (s : State)
    (h : s.par.voutDepth ≤ s.valueOut.length) :
    extractLoop n sg left s = if left = 0 then retire s else hold (.extract n sg (s.cnt.toNat - left)) s := by
  cases left with
  | zero => simp [extractLoop]
  | succ l =>
    have : ¬ s.valueOut.length < s.par.voutDepth := by omega
    simp [extractLoop, this]

/-! ## SERIALIZE -/

/-- SERIALIZE after `k` octets for which OCTET_OUT has room. -/
theorem serializeLoop_take : ∀ (k left : Nat) (s : State), k ≤ left → left ≤ payloadOctets s →
    s.octetOut.length + k ≤ s.par.ooutDepth →
    serializeLoop left s = serializeLoop (left - k) { s with
      octetOut := s.octetOut ++ (List.range' (payloadOctets s - left) k).map fun j =>
        payloadOctet s.buf s.pos.toNat j }
  | 0, left, s, _, _, _ => by simp
  | k + 1, 0, s, h, _, _ => by omega
  | k + 1, left + 1, s, h, hp, hl => by
    rw [serializeLoop, if_pos (by omega), serializeLoop_take k left _ (by omega) (by
      simp only [payloadOctets] at hp ⊢; omega) (by simp; omega)]
    rw [show left + 1 - (k + 1) = left - k by omega, List.range'_succ]
    simp only [payloadOctets, List.map_cons, List.append_assoc, List.singleton_append]
    rw [show (s.pos.toNat + 7) / 8 - left = (s.pos.toNat + 7) / 8 - (left + 1) + 1 by
      simp only [payloadOctets] at hp; omega]

/-- With OCTET_OUT full, SERIALIZE waits unless it is done. -/
theorem serializeLoop_full (left : Nat) (s : State) (h : s.par.ooutDepth ≤ s.octetOut.length) :
    serializeLoop left s = if left = 0 then retire { s with result := BitVec.ofNat 64 (payloadOctets s) }
      else hold (.serialize (payloadOctets s - left)) s := by
  cases left with
  | zero => simp [serializeLoop]
  | succ l =>
    have : ¬ s.octetOut.length < s.par.ooutDepth := by omega
    simp [serializeLoop, this]

/-! ## LOAD -/

/-- LOAD after `k` octets of OCTET_IN: they are popped and written, in order, from the first octet not yet written. -/
theorem loadLoop_take : ∀ (k left : Nat) (s : State), k ≤ left → left ≤ s.cnt.toNat → k ≤ s.octetIn.length →
    loadLoop left s = loadLoop (left - k) { s with
      octetIn := s.octetIn.drop k
      buf := writeFields s.buf (8 * (s.cnt.toNat - left)) 8 ((s.octetIn.take k).map BitVec.toNat) }
  | 0, left, s, _, _, _ => by simp [writeFields]
  | k + 1, 0, s, h, _, _ => by omega
  | k + 1, left + 1, s, h, hc, hl => by
    cases hv : s.octetIn with
    | nil => rw [hv] at hl; simp at hl
    | cons x q =>
      rw [loadLoop, hv]
      simp only []
      rw [loadLoop_take k left _ (by omega) (by simp only []; omega) (by rw [hv] at hl; simpa using hl)]
      simp only [List.drop_succ_cons, List.take_succ_cons, List.map_cons, writeFields]
      rw [show left + 1 - (k + 1) = left - k by omega,
        show 8 * (s.cnt.toNat - (left + 1)) + 8 = 8 * (s.cnt.toNat - left) by omega]

/-- With nothing in OCTET_IN, LOAD waits unless it is done. -/
theorem loadLoop_nil (left : Nat) (s : State) (h : s.octetIn = []) :
    loadLoop left s = if left = 0 then finishLoad s else hold (.load (s.cnt.toNat - left)) s := by
  cases left with
  | zero => simp [loadLoop]
  | succ l => simp [loadLoop, h]

/-! ## Delivery of a decoded block -/

/-- DECODE_FRAME after `k` of a block's words for which VALUE_OUT has room. -/
theorem deliverLoop_take (d : Bool) (ix : Nat) (start : Word) : ∀ (out rest : List Word) (s : State),
    s.valueOut.length + out.length ≤ s.par.voutDepth →
    deliverLoop d ix start (out ++ rest) s = deliverLoop d ix start rest { s with valueOut := s.valueOut ++ out }
  | [], rest, s, _ => by simp
  | y :: r, rest, s, h => by
    simp only [List.length_cons] at h
    rw [List.cons_append, deliverLoop, if_pos (by omega), deliverLoop_take d ix start r rest _ (by simp; omega)]
    simp

/-- A whole block delivered: the frame ends, or the next block's boundary is reached. -/
theorem deliverLoop_all (d : Bool) (ix : Nat) (start : Word) (out : List Word) (s : State)
    (h : s.valueOut.length + out.length ≤ s.par.voutDepth) :
    deliverLoop d ix start out s =
      if s.nvalues.toNat ≤ ix then finishDecode { s with valueOut := s.valueOut ++ out }
      else hold (.decode d ix [] s.pos) { s with valueOut := s.valueOut ++ out } := by
  have h1 := deliverLoop_take d ix start out [] s h
  rw [List.append_nil] at h1
  rw [h1, deliverLoop]

/-! ## A block of ENCODE_FRAME -/

/-- ENCODE_FRAME gathers words while its block is not complete. -/
theorem encodeLoop_gather : ∀ (ys vals q : List Word) (left : Nat) (start : Word) (s : State),
    s.valueIn = ys ++ q → ys.length ≤ left → vals.length + ys.length < min (cfgBlock s.cfg) (vals.length + left) →
    encodeLoop left vals start s = encodeLoop (left - ys.length) (vals ++ ys) start { s with valueIn := q }
  | [], vals, q, left, start, s, hv, _, _ => by
    simp only [List.nil_append] at hv
    subst hv
    simp
  | y :: ys, vals, q, 0, start, s, _, h, _ => by simp at h
  | y :: ys, vals, q, left + 1, start, s, hv, hl, hb => by
    rw [encodeLoop, hv]
    simp only [List.cons_append, List.length_append, List.length_cons, List.length_nil] at hl hb ⊢
    rw [if_pos (by omega), encodeLoop_gather ys (vals ++ [y]) q left start { s with valueIn := ys ++ q } rfl (by omega) (by
      simp only [List.length_append, List.length_cons, List.length_nil]; omega)]
    simp only [List.append_assoc, List.singleton_append]
    rw [show left + 1 - (ys.length + 1) = left - ys.length by omega]

/-- ENCODE_FRAME at a block boundary with the block's words in VALUE_IN: the block is encoded, or its error raised. -/
theorem encodeLoop_block (xs q : List Word) (left : Nat) (start : Word) (s : State) (hv : s.valueIn = xs ++ q)
    (hx : xs ≠ []) (hl : xs.length ≤ left) (hb : xs.length = min (cfgBlock s.cfg) left) :
    encodeLoop left [] start s =
      match encodeBlock xs { s with valueIn := q } with
      | .error c => raise 0x10#8 c { s with valueIn := q, pos := start }
      | .ok s' => encodeLoop (left - xs.length) [] s'.pos s' := by
  obtain ⟨ys, x, rfl⟩ : ∃ ys x, xs = ys ++ [x] := ⟨xs.dropLast, xs.getLast hx, (List.dropLast_append_getLast hx).symm⟩
  simp only [List.length_append, List.length_cons, List.length_nil] at hl hb
  rw [encodeLoop_gather ys [] (x :: q) left start s (by rw [hv]; simp) (by omega) (by
    simp only [List.length_nil]; omega)]
  obtain ⟨l, hl'⟩ : ∃ l, left - ys.length = l + 1 := ⟨left - ys.length - 1, by omega⟩
  rw [hl', encodeLoop]
  simp only [List.nil_append, List.length_append, List.length_cons, List.length_nil]
  rw [if_neg (by omega), show left - (ys.length + (0 + 1)) = l by omega]
  all_goals rfl

end Sys2Proof.Machine
end

