-- ==== Sys2Proof/Laws/Stream.lean ====
section
/-! SUPPORT. The stream format against BUF: fields, headers and blocks as the bits BUF holds. -/

namespace Sys2Proof.Machine

/-! ## Bits of BUF and lists of bits -/

@[simp] theorem streamField_length (w v : Nat) : (streamField w v).length = w := by simp [streamField]

theorem getElem_streamField (w v i : Nat) (h : i < (streamField w v).length) :
    (streamField w v)[i] = v.testBit i := by simp [streamField]

theorem streamField_congr {w v v' : Nat} (h : ∀ i, i < w → v.testBit i = v'.testBit i) :
    streamField w v = streamField w v' := by
  unfold streamField
  refine List.map_congr_left fun i hi => h i (by simpa using hi)

theorem holdsStream_append {m : Memory} {p : Nat} {a b : List Bool} :
    holdsStream m p (a ++ b) ↔ holdsStream m p a ∧ holdsStream m (p + a.length) b := by
  refine ⟨fun h => ⟨fun i hi => ?_, fun i hi => ?_⟩, fun h i hi => ?_⟩
  · have := h i (by simp; omega)
    rwa [List.getElem_append_left hi] at this
  · have := h (a.length + i) (by simp; omega)
    rw [List.getElem_append_right (by omega)] at this
    simpa [Nat.add_assoc] using this
  · by_cases hia : i < a.length
    · rw [List.getElem_append_left hia]; exact h.1 i hia
    · rw [List.getElem_append_right (by omega)]
      have := h.2 (i - a.length) (by simp at hi; omega)
      rwa [show p + a.length + (i - a.length) = p + i by omega] at this

theorem holdsStream_congr {m m' : Memory} {p : Nat} {bs : List Bool} (h : holdsStream m p bs)
    (he : ∀ i, i < bs.length → memBit m' (p + i) = memBit m (p + i)) : holdsStream m' p bs :=
  fun i hi => (he i hi).trans (h i hi)

theorem holdsStream_memWrite {m : Memory} (h : m.wf = true) (p w v : Nat) :
    holdsStream (memWrite m p w v) p (streamField w v) := by
  intro i hi
  rw [getElem_streamField, memBit_memWrite w p v _ h]
  have : p ≤ p + i ∧ p + i < p + w := by simp at hi; omega
  simp [this]

/-- The field BUF holds is the number whose bits it holds. -/
theorem memRead_of_holds {m : Memory} {p w v : Nat} (h : holdsStream m p (streamField w v)) :
    memRead m p w = v % 2 ^ w := by
  apply Nat.eq_of_testBit_eq
  intro i
  rw [testBit_memRead, Nat.testBit_mod_two_pow]
  by_cases hi : i < w
  · have := h i (by simpa using hi)
    rw [getElem_streamField] at this
    simp [hi, this]
  · simp [hi]

theorem holdsStream_writeFields (w : Nat) : ∀ (l : List Nat) {m : Memory} (p : Nat), m.wf = true →
    holdsStream (writeFields m p w l) p (l.flatMap fun v => streamField w v)
  | [], _, _, _ => fun i hi => by simp at hi
  | v :: r, m, p, h => by
    have hw := memWrite_wf w p v h
    rw [List.flatMap_cons, holdsStream_append, streamField_length]
    refine ⟨?_, holdsStream_writeFields w r (p + w) hw⟩
    refine holdsStream_congr (holdsStream_memWrite h p w v) fun i hi => ?_
    simp only [streamField_length] at hi
    exact memBit_writeFields_outside w r (p + w) (p + i) hw (by omega)

theorem readFields_of_holds {m : Memory} (w : Nat) : ∀ (l : List Nat) (p : Nat),
    holdsStream m p (l.flatMap fun v => streamField w v) → readFields m p w l.length = l.map fun v => v % 2 ^ w
  | [], _, _ => rfl
  | v :: r, p, h => by
    rw [List.flatMap_cons, holdsStream_append, streamField_length] at h
    simp only [List.length_cons, readFields, List.map_cons, memRead_of_holds h.1, readFields_of_holds w r (p + w) h.2]

theorem flatMap_streamField_length (w : Nat) (f : α → Nat) (l : List α) :
    (l.flatMap fun x => streamField w (f x)).length = l.length * w := by
  induction l with
  | nil => simp
  | cons x r ih => rw [List.flatMap_cons, List.length_append, ih, List.length_cons, streamField_length]; ring

/-! ## Header codes -/

theorem headerBits_lt (hd : Header) : headerBits hd < 2 ^ headerLen hd := by
  cases hd with
  | h1 => decide
  | h4 b => simp only [headerBits, headerLen]; omega
  | h6 b => simp only [headerBits, headerLen]; omega
  | h12 b => simp only [headerBits, headerLen]; have := b.isLt; omega

theorem headerLen_pos (hd : Header) : 1 ≤ headerLen hd := by cases hd <;> simp [headerLen]

theorem headerLen_le (hd : Header) : headerLen hd ≤ 12 := by cases hd <;> simp [headerLen]

theorem streamHeader_eq (hd : Header) : streamHeader hd = streamField (headerLen hd) (headerBits hd) := by
  cases hd with
  | h1 => decide
  | h4 b => revert b; decide
  | h6 b => revert b; decide
  | h12 b =>
    have hall : ∀ k : Fin 64, [false, true, true, true, true, true] ++ streamField 6 k.val =
        streamField 12 (62 + 64 * k.val) := by decide +kernel
    exact hall ⟨b.toNat, b.isLt⟩

/-- A decoder with at least the header's bits to read finds the header that the bits begin with. -/
theorem decodeHeader_of_bits (hd : Header) (a tail : Nat) (ha : headerLen hd ≤ a) :
    decodeHeader a (headerBits hd + 2 ^ headerLen hd * tail) = some hd := by
  generalize hh : headerBits hd + 2 ^ headerLen hd * tail = h
  unfold decodeHeader
  cases hd with
  | h1 =>
    have ha : 1 ≤ a := ha
    have hh : 1 + 2 ^ 1 * tail = h := hh
    rw [if_neg (by omega), if_pos (by omega)]
  | h4 b =>
    have hb := b.isLt
    have ha : 4 ≤ a := ha
    have hh : 2 * b.val + 2 ^ 4 * tail = h := hh
    have h1 : h / 2 % 8 = b.val := by omega
    rw [if_neg (by omega), if_neg (by omega), if_neg (by omega), dif_pos (by omega)]
    exact congrArg (fun x => some (Header.h4 x)) (Fin.ext h1)
  | h6 b =>
    have hb := b.isLt
    have ha : 6 ≤ a := ha
    have hh : 14 + 16 * b.val + 2 ^ 6 * tail = h := hh
    have h1 : h / 16 % 4 = b.val := by omega
    rw [if_neg (by omega), if_neg (by omega), if_neg (by omega), dif_neg (by omega), if_neg (by omega),
      dif_pos (by omega)]
    exact congrArg (fun x => some (Header.h6 x)) (Fin.ext h1)
  | h12 b =>
    have hb := b.isLt
    have ha : 12 ≤ a := ha
    have hh : 62 + 64 * b.toNat + 2 ^ 12 * tail = h := hh
    rw [if_neg (by omega), if_neg (by omega), if_neg (by omega), dif_neg (by omega), if_neg (by omega),
      dif_neg (by omega), if_neg (by omega)]
    refine congrArg (fun x => some (Header.h12 x)) (BitVec.eq_of_toNat_eq ?_)
    rw [BitVec.toNat_ofNat]
    omega

theorem selectHeader_sig {prev s : Nat} (h : s ≤ 64) : headerSig prev (selectHeader prev s) = s := by
  unfold selectHeader
  split
  · simp_all [headerSig]
  · split
    · simp [headerSig]
    · split
      · simp only [headerSig]; omega
      · simp only [headerSig, BitVec.toNat_ofNat]; omega

/-- Reading at the header BUF holds finds it, whatever follows. -/
theorem decodeHeader_of_holds {m : Memory} {p a : Nat} {hd : Header} (ha : headerLen hd ≤ a)
    (h : holdsStream m p (streamHeader hd)) : decodeHeader a (memRead m p a) = some hd := by
  rw [streamHeader_eq] at h
  have h1 : memRead m p a % 2 ^ headerLen hd = headerBits hd := by
    apply Nat.eq_of_testBit_eq
    intro i
    rw [Nat.testBit_mod_two_pow, testBit_memRead]
    by_cases hi : i < headerLen hd
    · have := h i (by simpa using hi)
      rw [getElem_streamField] at this
      have h2 : i < a := by omega
      simp [hi, h2, this]
    · have h2 : headerBits hd < 2 ^ i :=
        Nat.lt_of_lt_of_le (headerBits_lt hd) (Nat.pow_le_pow_right (by decide) (by omega))
      simp [hi, Nat.testBit_lt_two_pow h2]
  have h2 := Nat.mod_add_div (memRead m p a) (2 ^ headerLen hd)
  rw [h1] at h2
  rw [← h2]
  exact decodeHeader_of_bits hd a _ ha

/-! ## Values and fields (R104) -/

theorem toNat_lowBits_signed {s : Nat} {v : Int} : (lowBits s v : Int) = v % (2 ^ s : Nat) := by
  unfold lowBits
  exact Int.toNat_of_nonneg (Int.emod_nonneg _ (by positivity))

/-- The field written for a legal word is the word's low bits (R107). -/
theorem lowBits_wordValue {sg : Bool} {pb s : Nat} {x : Word} (hp : pb ≤ 64) (hs : s ≤ 64)
    (h : wordLegal sg pb x = true) : lowBits s (wordValue sg pb x) = x.toNat % 2 ^ s := by
  cases sg with
  | false =>
    rw [(wordValue_unsigned h).1]
    unfold lowBits
    omega
  | true =>
    rw [wordValue_signed hp h]
    have h1 : (lowBits s x.toInt : Int) = (x.toNat % 2 ^ s : Nat) := by
      rw [toNat_lowBits_signed, BitVec.toInt_eq_toNat_bmod, Int.bmod_def]
      have h2 : ((2 ^ s : Nat) : Int) ∣ ((2 ^ 64 : Nat) : Int) := by
        exact_mod_cast Nat.pow_dvd_pow 2 hs
      split
      · rw [Int.emod_emod_of_dvd _ h2, Int.natCast_emod]
      · rw [Int.sub_emod, Int.emod_emod_of_dvd _ h2, Int.emod_eq_zero_of_dvd h2, sub_zero,
          Int.emod_emod_of_dvd _ (dvd_refl _), Int.natCast_emod]
    exact_mod_cast h1

theorem natAbs_lt_of_signed {b : Nat} {v : Int} (h : v.natAbs < 2 ^ b) : -(2 ^ b : Int) ≤ v ∧ v < 2 ^ b := by
  have h1 : (v.natAbs : Int) < 2 ^ b := by exact_mod_cast h
  omega

/-- A block's count is at most PB, which is at most 64 (R104). -/
theorem streamSig_le {c : Word} {xs : List Word} (h : wordsLegal c xs) :
    streamSig c xs ≤ cfgPb c := by
  unfold streamSig
  cases hs : cfgSigned c with
  | true => exact sigBits_le_of_signed _ _
  | false =>
    refine sigBits_le_of_unsigned fun v hv => ?_
    obtain ⟨x, hx, rfl⟩ := List.mem_map.1 hv
    have := h x hx
    rw [hs] at this
    have h1 := wordValue_unsigned this
    rw [h1.1]
    simpa using h1.2

/-- The field of a legal word, read back with the block's count and signedness, is its value (R104, R118). -/
theorem fieldInt_of_word {c : Word} {xs : List Word} (hc : codecLegal c) (h : wordsLegal c xs) {x : Word}
    (hx : x ∈ xs) : fieldInt (cfgSigned c) (streamSig c xs) (x.toNat % 2 ^ streamSig c xs) =
      wordValue (cfgSigned c) (cfgPb c) x := by
  have hl := h x hx
  have hle := streamSig_le h
  obtain ⟨_, hp1, hp2⟩ := hc
  have hmem : wordValue (cfgSigned c) (cfgPb c) x ∈ xs.map (wordValue (cfgSigned c) (cfgPb c)) :=
    List.mem_map.2 ⟨x, hx, rfl⟩
  have hbits := natAbs_le_setbits hmem
  have hlt := lt_two_pow_bitlen (setbits (xs.map (wordValue (cfgSigned c) (cfgPb c))))
  cases hs : cfgSigned c with
  | false =>
    rw [hs] at hl
    have h1 := wordValue_unsigned hl
    simp only [fieldInt, Bool.false_eq_true, if_false, h1.1, BitVec.toNat_ofNat]
    have h2 : x.toNat < 2 ^ streamSig c xs := by
      unfold streamSig
      simp only [sigBits, hs, Bool.false_eq_true, if_false]
      rw [hs] at hbits hlt
      rw [h1.1] at hbits
      simp only [Int.natAbs_natCast] at hbits
      omega
    rw [Nat.mod_mod, Nat.mod_eq_of_lt h2]
  | true =>
    rw [hs] at hl hbits hlt
    have h1 := wordValue_signed hp2 hl
    rw [← lowBits_wordValue hp2 (by omega) hl]
    simp only [fieldInt, if_true]
    have hb := wordValue_bounds (cfgPb c) x
    have key : (BitVec.ofInt (streamSig c xs) (wordValue true (cfgPb c) x)).toInt = wordValue true (cfgPb c) x := by
      have hsig : streamSig c xs = if setbits (xs.map (wordValue true (cfgPb c))) = 0 then 0
          else min (cfgPb c) (1 + bitlen (setbits (xs.map (wordValue true (cfgPb c))))) := by
        unfold streamSig; simp only [sigBits, hs, if_true]
      by_cases h0 : setbits (xs.map (wordValue true (cfgPb c))) = 0
      · rw [h0] at hbits
        have : wordValue true (cfgPb c) x = 0 := by omega
        rw [this]; simp
      · rw [if_neg h0] at hsig
        rw [hsig]
        have h3 := natAbs_lt_of_signed (Nat.lt_of_le_of_lt hbits hlt)
        rcases Nat.le_total (cfgPb c) (1 + bitlen (setbits (xs.map (wordValue true (cfgPb c))))) with hmin | hmin
        · rw [Nat.min_eq_left hmin]
          exact BitVec.toInt_ofInt_eq_self hp1 hb.1 hb.2
        · rw [Nat.min_eq_right hmin]
          refine BitVec.toInt_ofInt_eq_self (by omega) ?_ ?_ <;> rw [Nat.add_sub_cancel_left] <;>
            [exact h3.1; exact h3.2]
    rw [← key]
    congr 1
    apply BitVec.eq_of_toNat_eq
    rw [BitVec.toNat_ofNat, BitVec.toNat_ofInt, key]
    unfold lowBits
    rw [Nat.mod_eq_of_lt]
    have := Int.emod_lt_of_pos (wordValue true (cfgPb c) x) (b := ((2 ^ streamSig c xs : Nat) : Int)) (by positivity)
    have h4 := Int.emod_nonneg (wordValue true (cfgPb c) x) (b := ((2 ^ streamSig c xs : Nat) : Int)) (by positivity)
    omega

/-! ## Blocks -/

theorem streamBlock_length (c : Word) (prev : Nat) (xs : List Word) : (streamBlock c prev xs).length =
    headerLen (selectHeader prev (streamSig c xs)) + xs.length * streamSig c xs := by
  unfold streamBlock
  rw [List.length_append, flatMap_streamField_length, streamHeader_eq, streamField_length]

theorem streamBlocks_append (c : Word) : ∀ (a b : List (List Word)) (prev : Nat),
    streamBlocks c prev (a ++ b) = streamBlocks c prev a ++ streamBlocks c (lastSig c prev a) b
  | [], _, _ => rfl
  | x :: r, b, prev => by
    simp only [List.cons_append, streamBlocks, lastSig, streamBlocks_append c r b, List.append_assoc]

/-- A frame's partition, one block at a time. -/
theorem blocksOf_cons {b : Nat} (hb : 1 ≤ b) {xs : List Word} (hx : xs ≠ []) :
    blocksOf b xs = xs.take b :: blocksOf b (xs.drop b) := by
  have hl : 0 < xs.length := List.length_pos_iff.2 hx
  have h1 : (xs.length + b - 1) / b = ((xs.drop b).length + b - 1) / b + 1 := by
    rw [List.length_drop]
    by_cases h : b ≤ xs.length
    · rw [show xs.length + b - 1 = (xs.length - b + b - 1) + b by omega, Nat.add_div_right _ (by omega)]
    · rw [show xs.length - b = 0 by omega, Nat.div_eq_of_lt (a := 0 + b - 1) (by omega),
        Nat.div_eq_of_lt_le (k := 1) (by omega) (by omega)]
  unfold blocksOf
  rw [h1, List.range_succ_eq_map, List.map_cons, List.map_map]
  congr 1
  · simp
  · refine List.map_congr_left fun k _ => ?_
    simp only [Function.comp, List.drop_drop]
    congr 2
    rw [Nat.succ_mul]; omega

@[simp] theorem blocksOf_nil {b : Nat} (hb : 1 ≤ b) : blocksOf b [] = [] := by
  unfold blocksOf
  rw [Nat.div_eq_of_lt (by simp; omega)]
  rfl

/-- `bs` are the next blocks of a frame with `left` values still to come, and leave `left'` of them. -/
def blockRun (b : Nat) : (left : Nat) → List (List Word) → (left' : Nat) → Prop
  | left, [], left' => left = left'
  | left, xs :: r, left' => xs ≠ [] ∧ xs.length = min b left ∧ blockRun b (left - xs.length) r left'

/-- The whole blocks a list of values begins with, or all of a frame's blocks. -/
theorem blockRun_blocksOf {b : Nat} (hb : 1 ≤ b) : ∀ (n left' : Nat) (xs : List Word), xs.length ≤ n →
    (left' = 0 ∨ xs.length % b = 0) → blockRun b (xs.length + left') (blocksOf b xs) left'
  | 0, left', xs, hn, _ => by
    have : xs = [] := List.length_eq_zero_iff.1 (by omega)
    subst this
    simp [blocksOf_nil hb, blockRun]
  | n + 1, left', xs, hn, hd => by
    by_cases hx : xs = []
    · subst hx; simp [blocksOf_nil hb, blockRun]
    · have hl : 0 < xs.length := List.length_pos_iff.2 hx
      rw [blocksOf_cons hb hx]
      have hdiv : left' = 0 ∨ b ≤ xs.length := by
        rcases hd with h | h
        · exact Or.inl h
        · exact Or.inr (Nat.le_of_dvd hl (Nat.dvd_of_mod_eq_zero h))
      have hdrop := blockRun_blocksOf hb n left' (xs.drop b) (by rw [List.length_drop]; omega) (by
        rcases hd with h | h
        · exact Or.inl h
        · refine Or.inr ?_
          rw [List.length_drop]
          rcases hdiv with h' | h'
          · rcases Nat.le_total b xs.length with hle | hle
            · rw [← Nat.mod_eq_sub_mod hle]; exact h
            · rw [show xs.length - b = 0 by omega]; rfl
          · rw [← Nat.mod_eq_sub_mod h']; exact h)
      refine ⟨?_, ?_, ?_⟩
      · intro h0
        have := congrArg List.length h0
        rw [List.length_take, List.length_nil] at this
        omega
      · rw [List.length_take]; omega
      · rw [List.length_take]
        rw [List.length_drop] at hdrop
        rwa [show xs.length + left' - min b xs.length = xs.length - b + left' by omega]

theorem flatten_blocksOf {b : Nat} (hb : 1 ≤ b) : ∀ (n : Nat) (xs : List Word), xs.length ≤ n →
    (blocksOf b xs).flatten = xs
  | 0, xs, hn => by
    have : xs = [] := List.length_eq_zero_iff.1 (by omega)
    subst this; simp [blocksOf_nil hb]
  | n + 1, xs, hn => by
    by_cases hx : xs = []
    · subst hx; simp [blocksOf_nil hb]
    · have hl : 0 < xs.length := List.length_pos_iff.2 hx
      rw [blocksOf_cons hb hx, List.flatten_cons, flatten_blocksOf hb n _ (by rw [List.length_drop]; omega),
        List.take_append_drop]

/-- Whole blocks are partitioned by themselves. -/
theorem blocksOf_append {b : Nat} (hb : 1 ≤ b) (ys : List Word) : ∀ (n : Nat) (xs : List Word), xs.length ≤ n →
    xs.length % b = 0 → blocksOf b (xs ++ ys) = blocksOf b xs ++ blocksOf b ys
  | 0, xs, hn, _ => by
    have : xs = [] := List.length_eq_zero_iff.1 (by omega)
    subst this; simp [blocksOf_nil hb]
  | n + 1, xs, hn, hd => by
    by_cases hx : xs = []
    · subst hx; simp [blocksOf_nil hb]
    · have hl : 0 < xs.length := List.length_pos_iff.2 hx
      have hle : b ≤ xs.length := Nat.le_of_dvd hl (Nat.dvd_of_mod_eq_zero hd)
      rw [blocksOf_cons hb (by simp [hx]), blocksOf_cons hb hx, List.take_append_of_le_length hle,
        List.drop_append_of_le_length hle, blocksOf_append hb ys n _ (by rw [List.length_drop]; omega)
          (by rw [List.length_drop, ← Nat.mod_eq_sub_mod hle]; exact hd), List.cons_append]

/-- A block or less is one block. -/
theorem blocksOf_one {b : Nat} (hb : 1 ≤ b) {xs : List Word} (hx : xs ≠ []) (hl : xs.length ≤ b) :
    blocksOf b xs = [xs] := by
  rw [blocksOf_cons hb hx, List.take_of_length_le hl, List.drop_eq_nil_iff.2 hl, blocksOf_nil hb]

theorem length_le_streamBlocks (c : Word) : ∀ (bs : List (List Word)) (prev : Nat),
    bs.length ≤ (streamBlocks c prev bs).length
  | [], _ => Nat.le_refl _
  | xs :: r, prev => by
    rw [streamBlocks, List.length_append, List.length_cons, streamBlock_length]
    have := length_le_streamBlocks c r (streamSig c xs)
    have := headerLen_pos (selectHeader prev (streamSig c xs))
    omega

end Sys2Proof.Machine
end

