-- ==== Sys2Proof/Laws/Commands.lean ====
section
/-! SUPPORT. ENCODE_FRAME and DECODE_FRAME block by block: what a run of whole blocks does, whatever comes after it. -/

namespace Sys2Proof.Machine

/-! ## ENCODE_FRAME -/

theorem streamSig_le_64 {c : Word} {xs : List Word} (hc : codecLegal c) (h : wordsLegal c xs) : streamSig c xs ≤ 64 :=
  Nat.le_trans (streamSig_le h) hc.2.2

theorem ofNat_streamSig {c : Word} {xs : List Word} (hc : codecLegal c) (h : wordsLegal c xs) :
    (BitVec.ofNat 7 (streamSig c xs)).toNat = streamSig c xs := by
  have := streamSig_le_64 hc h
  rw [BitVec.toNat_ofNat]; exact Nat.mod_eq_of_lt (by omega)

/-- A block of legal words that fits: its stream bits stand at POS, POS is after them, PREV_S is its count, and no other
bit changes (R105 to R107, R110). -/
theorem encodeBlock_writes {xs : List Word} {s : State} (hw : s.buf.wf = true) (hc : codecLegal s.cfg)
    (hl : wordsLegal s.cfg xs)
    (hf : s.pos.toNat + (streamBlock s.cfg s.prevS.toNat xs).length ≤ capOf s) :
    ∃ m : Memory, encodeBlock xs s = .ok { s with
        buf := m
        pos := BitVec.ofNat 64 (s.pos.toNat + (streamBlock s.cfg s.prevS.toNat xs).length)
        prevS := BitVec.ofNat 7 (streamSig s.cfg xs) } ∧
      m.wf = true ∧ (∀ o, s.buf.within o = true → capOf s ≤ 8 * o → m.within o = true) ∧
      holdsStream m s.pos.toNat (streamBlock s.cfg s.prevS.toNat xs) ∧
      ∀ q, (q < s.pos.toNat ∨ s.pos.toNat + (streamBlock s.cfg s.prevS.toNat xs).length ≤ q) →
        memBit m q = memBit s.buf q := by
  have hlen := streamBlock_length s.cfg s.prevS.toNat xs
  have hall : xs.all (wordLegal (cfgSigned s.cfg) (cfgPb s.cfg)) = true := List.all_eq_true.2 hl
  have hsig : blockBits s xs = streamSig s.cfg xs := rfl
  have h64 := streamSig_le_64 hc hl
  generalize hhd : selectHeader s.prevS.toNat (streamSig s.cfg xs) = hd at hlen
  generalize hm1 : memWrite s.buf s.pos.toNat (headerLen hd) (headerBits hd) = m1
  generalize hfs : xs.map (fun x => lowBits (streamSig s.cfg xs) (wordValue (cfgSigned s.cfg) (cfgPb s.cfg) x)) = fs
  have hw1 : m1.wf = true := by rw [← hm1]; exact memWrite_wf _ _ _ hw
  have hfl : fs.length = xs.length := by rw [← hfs, List.length_map]
  refine ⟨writeFields m1 (s.pos.toNat + headerLen hd) (streamSig s.cfg xs) fs, ?_, ?_, ?_, ?_, ?_⟩
  · unfold encodeBlock
    simp only [hsig, hhd, hall, Bool.true_eq_false, if_false]
    rw [if_neg (by omega), hm1, hfs, hlen, Nat.add_assoc]
  · exact writeFields_wf _ _ _ hw1
  · intro o ho hco
    refine writeFields_within _ _ hw1 ?_ (by rw [hfl]; omega)
    rw [← hm1]
    exact memWrite_within _ _ hw ho (by omega)
  · unfold streamBlock
    rw [hhd, holdsStream_append, streamHeader_eq, streamField_length]
    constructor
    · refine holdsStream_congr (m := m1) ?_ fun i hi => ?_
      · rw [← hm1]; exact holdsStream_memWrite hw _ _ _
      · rw [streamField_length] at hi
        exact memBit_writeFields_outside _ _ _ _ hw1 (by omega)
    · have h1 : (xs.flatMap fun x => streamField (streamSig s.cfg xs) x.toNat) =
          fs.flatMap fun v => streamField (streamSig s.cfg xs) v := by
        rw [← hfs, List.flatMap_map]
        refine List.flatMap_congr fun x hx => streamField_congr fun i hi => ?_
        rw [lowBits_wordValue hc.2.2 h64 (hl x hx), Nat.testBit_mod_two_pow]
        simp [hi]
      rw [h1]
      exact holdsStream_writeFields _ _ _ hw1
  · intro q hq
    rw [memBit_writeFields_outside _ _ _ _ hw1 (by rw [hfl]; omega), ← hm1, memBit_memWrite _ _ _ _ hw, if_neg (by omega)]

/-- ENCODE_FRAME over whole blocks of legal words that fit: all of them are written, whatever comes after. -/
theorem encodeLoop_blocks : ∀ (bs : List (List Word)) (left left' : Nat) (q : List Word) (s : State),
    s.buf.wf = true → codecLegal s.cfg → blockRun (cfgBlock s.cfg) left bs left' → s.valueIn = bs.flatten ++ q →
    (∀ xs ∈ bs, wordsLegal s.cfg xs) → capOf s < 2 ^ 64 →
    s.pos.toNat + (streamBlocks s.cfg s.prevS.toNat bs).length ≤ capOf s →
    ∃ m : Memory, ∃ p : Word, p.toNat = s.pos.toNat + (streamBlocks s.cfg s.prevS.toNat bs).length ∧
      encodeLoop left [] s.pos s = encodeLoop left' [] p { s with
        valueIn := q, buf := m, pos := p, prevS := BitVec.ofNat 7 (lastSig s.cfg s.prevS.toNat bs) } ∧
      m.wf = true ∧ (∀ o, s.buf.within o = true → capOf s ≤ 8 * o → m.within o = true) ∧
      holdsStream m s.pos.toNat (streamBlocks s.cfg s.prevS.toNat bs) ∧
      ∀ b, (b < s.pos.toNat ∨ s.pos.toNat + (streamBlocks s.cfg s.prevS.toNat bs).length ≤ b) →
        memBit m b = memBit s.buf b
  | [], left, left', q, s, hw, _, hr, hv, _, _, _ => by
    have hr : left = left' := hr
    have hv : s.valueIn = q := hv
    subst hr hv
    refine ⟨s.buf, s.pos, rfl, ?_, hw, fun _ h _ => h, fun i hi => absurd hi (Nat.not_lt_zero i), fun _ _ => rfl⟩
    simp only [lastSig, BitVec.ofNat_toNat, BitVec.setWidth_eq]
  | xs :: r, left, left', q, s, hw, hc, hr, hv, hl, h64, hf => by
    obtain ⟨hne, hlen, hr⟩ := hr
    have hlx := hl xs (by simp)
    rw [List.flatten_cons, List.append_assoc] at hv
    simp only [streamBlocks, List.length_append] at hf ⊢
    obtain ⟨m, he, hmw, hmi, hmh, hmo⟩ := encodeBlock_writes (xs := xs) (s := { s with valueIn := r.flatten ++ q })
      hw hc hlx (by
        show s.pos.toNat + (streamBlock s.cfg s.prevS.toNat xs).length ≤ capOf s
        omega)
    have hsig := ofNat_streamSig hc hlx
    have hp : (BitVec.ofNat 64 (s.pos.toNat + (streamBlock s.cfg s.prevS.toNat xs).length)).toNat =
        s.pos.toNat + (streamBlock s.cfg s.prevS.toNat xs).length := toNat_ofNat_add (by omega)
    obtain ⟨m', p', hp', heq, hw', hi', hh', ho'⟩ := encodeLoop_blocks r (left - xs.length) left' q
      { s with
        valueIn := r.flatten ++ q, buf := m
        pos := BitVec.ofNat 64 (s.pos.toNat + (streamBlock s.cfg s.prevS.toNat xs).length)
        prevS := BitVec.ofNat 7 (streamSig s.cfg xs) }
      hmw hc hr rfl (fun ys hy => hl ys (by simp [hy])) h64 (by
        show (BitVec.ofNat 64 (s.pos.toNat + (streamBlock s.cfg s.prevS.toNat xs).length)).toNat +
          (streamBlocks s.cfg (BitVec.ofNat 7 (streamSig s.cfg xs)).toNat r).length ≤ capOf s
        rw [hp, hsig]; omega)
    simp only [hp, hsig] at hp' heq hh' ho'
    refine ⟨m', p', by omega, ?_, hw', fun o h1 h2 => hi' o (hmi o h1 h2) h2, ?_, ?_⟩
    · rw [encodeLoop_block xs (r.flatten ++ q) left s.pos s hv hne (by rw [hlen]; exact Nat.min_le_right _ _) hlen, he]
      exact heq
    · rw [holdsStream_append]
      exact ⟨holdsStream_congr hmh fun i hi => ho' _ (by omega), hh'⟩
    · intro b hb
      rw [ho' b (by omega)]
      have hb' : b < s.pos.toNat ∨ s.pos.toNat + (streamBlock s.cfg s.prevS.toNat xs).length ≤ b := by omega
      exact hmo b hb'

theorem lastSig_le {c : Word} (hc : codecLegal c) : ∀ (bs : List (List Word)) (prev : Nat), prev ≤ 64 →
    (∀ xs ∈ bs, wordsLegal c xs) → lastSig c prev bs ≤ 64
  | [], _, h, _ => h
  | _ :: r, _, _, hl => lastSig_le hc r _ (streamSig_le_64 hc (hl _ (by simp))) fun ys hy => hl ys (by simp [hy])

/-! ## DECODE_FRAME -/

/-- The meaning of a header code at a block boundary is the block under it. -/
theorem runHeader_boundary {d : Bool} {ix : Nat} {start : Word} {s : State} (hd : Header)
    (hi : s.inflight = some (.decode d ix [] start)) (hl : s.limit.toNat ≤ capOf s) :
    runHeader hd s = .next (decodeBlock d ix start (headerLen hd) (headerSig s.prevS.toNat hd) s) := by
  have hx : ∀ len sig, execHeader len sig s = .next (decodeBlock d ix start len sig s) := by
    intro len sig
    unfold execHeader
    rw [hi]
    simp only []
    rw [if_neg (by omega)]
  cases hd <;> exact hx _ _

theorem exec_toInstr (hd : Header) (s : State) : exec hd.toInstr s = runHeader hd s := by cases hd <;> rfl

/-- Where BUF holds a block of legal words below LIMIT, under the header the encoder chooses, DECODE_FRAME finds that
header. -/
theorem fetchHeader_of_holds {s : State} {xs : List Word}
    (hh : holdsStream s.buf s.pos.toNat (streamBlock s.cfg s.prevS.toNat xs))
    (hf : s.pos.toNat + (streamBlock s.cfg s.prevS.toNat xs).length ≤ s.limit.toNat) :
    fetchHeader s = some (selectHeader s.prevS.toNat (streamSig s.cfg xs)) := by
  rw [streamBlock_length] at hf
  unfold streamBlock at hh
  have := headerLen_le (selectHeader s.prevS.toNat (streamSig s.cfg xs))
  exact decodeHeader_of_holds (by omega) (holdsStream_append.1 hh).1

/-- The words DECODE_FRAME makes of a block BUF holds. -/
theorem block_values {s : State} {xs : List Word} (hc : codecLegal s.cfg) (hl : wordsLegal s.cfg xs)
    (hh : holdsStream s.buf s.pos.toNat (streamBlock s.cfg s.prevS.toNat xs)) :
    (readFields s.buf (s.pos.toNat + headerLen (selectHeader s.prevS.toNat (streamSig s.cfg xs)))
        (streamSig s.cfg xs) xs.length).map
        (fun f => deliverWord s.cfg (fieldInt (cfgSigned s.cfg) (streamSig s.cfg xs) f)) =
      xs.map fun x => deliverWord s.cfg (wordValue (cfgSigned s.cfg) (cfgPb s.cfg) x) := by
  unfold streamBlock at hh
  rw [holdsStream_append, streamHeader_eq, streamField_length] at hh
  have h1 := readFields_of_holds (streamSig s.cfg xs) (xs.map BitVec.toNat) _ (by rw [List.flatMap_map]; exact hh.2)
  rw [List.length_map] at h1
  rw [h1, List.map_map, List.map_map]
  refine List.map_congr_left fun x hx => ?_
  simp only [Function.comp]
  rw [fieldInt_of_word hc hl hx]

/-- What a whole block leaves: POS after it, PREV_S its count, its words pushed unless D = 1. -/
def blockDone (d : Bool) (xs : List Word) (s : State) : State :=
  { s with
    pos := BitVec.ofNat 64 (s.pos.toNat + (streamBlock s.cfg s.prevS.toNat xs).length)
    prevS := BitVec.ofNat 7 (streamSig s.cfg xs)
    valueOut := s.valueOut ++ if d then []
      else xs.map fun x => deliverWord s.cfg (wordValue (cfgSigned s.cfg) (cfgPb s.cfg) x) }

/-- A block of legal words BUF holds below LIMIT, with room in VALUE_OUT: it is decoded whole (R115 to R119, R122). -/
theorem decodeBlock_reads {d : Bool} {ix : Nat} {start : Word} {s : State} {xs : List Word} (hc : codecLegal s.cfg)
    (hl : wordsLegal s.cfg xs) (hn : xs.length = min (cfgBlock s.cfg) (s.nvalues.toNat - ix))
    (hh : holdsStream s.buf s.pos.toNat (streamBlock s.cfg s.prevS.toNat xs))
    (hf : s.pos.toNat + (streamBlock s.cfg s.prevS.toNat xs).length ≤ s.limit.toNat)
    (ho : d = true ∨ s.valueOut.length + xs.length ≤ s.par.voutDepth) :
    decodeBlock d ix start (headerLen (selectHeader s.prevS.toNat (streamSig s.cfg xs))) (streamSig s.cfg xs) s =
      if s.nvalues.toNat ≤ ix + xs.length then finishDecode (blockDone d xs s)
      else hold (.decode d (ix + xs.length) [] (blockDone d xs s).pos) (blockDone d xs s) := by
  have h64 := streamSig_le_64 hc hl
  have hlen := streamBlock_length s.cfg s.prevS.toNat xs
  have hv := block_values hc hl hh
  unfold decodeBlock
  simp only [← hn]
  rw [if_neg (by omega), if_neg (by omega), if_neg (by omega)]
  cases d with
  | true =>
    rw [if_pos rfl, deliverLoop]
    unfold blockDone
    simp only [hlen, Nat.add_assoc, if_true, List.append_nil]
  | false =>
    have ho : s.valueOut.length + xs.length ≤ s.par.voutDepth := ho.resolve_left (by decide)
    rw [if_neg (by decide), hv, deliverLoop_all _ _ _ _ _ (by simpa using ho)]
    unfold blockDone
    simp only [hlen, Nat.add_assoc, Bool.false_eq_true, if_false]

theorem decodeLoop_idle {s : State} (h : s.inflight = none) : ∀ fuel, decodeLoop fuel s = .next s
  | 0 => rfl
  | _ + 1 => by rw [decodeLoop, h]

/-! ## Block boundaries -/

/-- A block's delivery that reaches a block boundary has pushed all its words. -/
theorem deliverLoop_boundary (d : Bool) (ix : Nat) (start : Word) : ∀ (out : List Word) (s : State),
    atBoundary (deliverLoop d ix start out s) →
    deliverLoop d ix start out s = hold (.decode d ix [] s.pos) { s with valueOut := s.valueOut ++ out }
  | [], s, h => by
    rw [deliverLoop] at h ⊢
    split at h
    · obtain ⟨_, _, _, h⟩ := h; cases h
    · rw [if_neg (by assumption), List.append_nil]
  | y :: r, s, h => by
    rw [deliverLoop] at h ⊢
    split at h
    · rw [if_pos (by assumption), deliverLoop_boundary d ix start r _ h, List.append_assoc]; rfl
    · obtain ⟨_, _, _, h⟩ := h; cases h

/-- A block that is passed lies below LIMIT, and its header takes a bit. -/
theorem decodeBlock_boundary {d : Bool} {ix len sig : Nat} {start : Word} {s : State} (hlen : 1 ≤ len)
    (h : atBoundary (decodeBlock d ix start len sig s)) :
    (decodeBlock d ix start len sig s).limit = s.limit ∧ s.pos.toNat < (decodeBlock d ix start len sig s).pos.toNat ∧
      (decodeBlock d ix start len sig s).pos.toNat ≤ s.limit.toNat := by
  unfold decodeBlock at h ⊢
  simp only [] at h ⊢
  split at h
  · obtain ⟨_, _, _, h⟩ := h; cases h
  split at h
  · obtain ⟨_, _, _, h⟩ := h; cases h
  split at h
  · obtain ⟨_, _, _, h⟩ := h; cases h
  rename_i h1 h2 h3
  rw [if_neg h1, if_neg h2, if_neg h3, deliverLoop_boundary _ _ _ _ _ h]
  have hp : ∀ k, k ≤ s.limit.toNat → (BitVec.ofNat 64 k).toNat = k := fun k hk =>
    toNat_ofNat_lt (Nat.lt_of_le_of_lt hk s.limit.isLt)
  refine ⟨rfl, ?_, ?_⟩
  · show s.pos.toNat < (BitVec.ofNat 64 _).toNat
    rw [hp _ (by omega)]; omega
  · show (BitVec.ofNat 64 _).toNat ≤ _
    rw [hp _ (by omega)]; omega

/-- A header code that leaves a block boundary has passed a block. -/
theorem runHeader_advances {hd : Header} {s t : State} (hs : atBoundary s) (h : runHeader hd s = .next t) (hb : atBoundary t) :
    t.limit = s.limit ∧ s.pos.toNat < t.pos.toNat ∧ t.pos.toNat ≤ s.limit.toNat := by
  obtain ⟨d, ix, start, hs⟩ := hs
  by_cases hc : s.limit.toNat ≤ capOf s
  · rw [runHeader_boundary hd hs hc] at h
    cases h
    exact decodeBlock_boundary (headerLen_pos hd) hb
  · cases hd <;> simp only [runHeader, execH1, execH4, execH6, execH12, execHeader, hs] at h <;>
      rw [if_pos (by omega)] at h <;> cases h

/-- Away from a block boundary there is nothing to go on with. -/
theorem decodeLoop_stays {s : State} (h : ¬atBoundary s) : ∀ fuel, decodeLoop fuel s = .next s
  | 0 => rfl
  | fuel + 1 => by
    rw [decodeLoop]
    split
    · exact absurd ⟨_, _, _, ‹_›⟩ h
    · rfl

/-- Any number of headers above the bits below LIMIT is enough. -/
theorem decodeLoop_fuel : ∀ (fuel fuel' : Nat) (s : State), s.limit.toNat - s.pos.toNat < fuel →
    s.limit.toNat - s.pos.toNat < fuel' → decodeLoop fuel s = decodeLoop fuel' s
  | 0, _, _, h, _ => by omega
  | _, 0, _, _, h => by omega
  | fuel + 1, fuel' + 1, s, h, h' => by
    by_cases hs : atBoundary s
    · obtain ⟨d, ix, start, hs'⟩ := hs
      simp only [decodeLoop, hs']
      cases fetchHeader s with
      | none => rfl
      | some hd =>
        simp only []
        cases hr : runHeader hd s with
        | fault f => rfl
        | refused r => rfl
        | next t =>
          simp only []
          by_cases hb : atBoundary t
          · obtain ⟨h1, h2, h3⟩ := runHeader_advances ⟨d, ix, start, hs'⟩ hr hb
            exact decodeLoop_fuel fuel fuel' t (by rw [h1]; omega) (by rw [h1]; omega)
          · rw [decodeLoop_stays hb, decodeLoop_stays hb]
    · rw [decodeLoop_stays hs, decodeLoop_stays hs]

/-- With enough of them DECODE_FRAME never stops at a block boundary (R16). -/
theorem decodeLoop_passes : ∀ (fuel : Nat) (s t : State), s.limit.toNat - s.pos.toNat < fuel →
    decodeLoop fuel s = .next t → ¬atBoundary t
  | 0, _, _, h, _ => by omega
  | fuel + 1, s, t, h, ht => by
    by_cases hs : atBoundary s
    · obtain ⟨d, ix, start, hs'⟩ := hs
      simp only [decodeLoop, hs'] at ht
      split at ht
      · cases ht
        rintro ⟨_, _, _, h⟩
        cases h
      · rename_i hd _
        split at ht
        · rename_i u hr
          by_cases hb : atBoundary u
          · obtain ⟨h1, h2, h3⟩ := runHeader_advances ⟨d, ix, start, hs'⟩ hr hb
            exact decodeLoop_passes fuel u t (by rw [h1]; omega) ht
          · rw [decodeLoop_stays hb] at ht
            cases ht
            exact hb
        · cases ht
        · cases ht
    · rw [decodeLoop_stays hs] at ht
      cases ht
      exact hs

theorem decodeBlocks_passes {s t : State} (h : decodeBlocks s = .next t) : ¬atBoundary t :=
  decodeLoop_passes _ s t (by omega) h

theorem decodeBlocks_stays {s : State} (h : ¬atBoundary s) : decodeBlocks s = .next s := decodeLoop_stays h _

/-- At a block boundary: the header code, its block, and what follows. -/
theorem decodeBlocks_boundary {s : State} {d : Bool} {ix : Nat} {start : Word}
    (hs : s.inflight = some (.decode d ix [] start)) : decodeBlocks s =
      match fetchHeader s with
      | none => .next (corruptBlock .corruptTruncated start s)
      | some hd =>
        match runHeader hd s with
        | .next t => decodeBlocks t
        | .fault f => .fault f
        | .refused r => .refused r := by
  unfold decodeBlocks
  rw [decodeLoop, hs]
  simp only []
  cases fetchHeader s with
  | none => rfl
  | some hd =>
    simp only []
    cases hr : runHeader hd s with
    | fault f => rfl
    | refused r => rfl
    | next t =>
      simp only []
      by_cases hb : atBoundary t
      · obtain ⟨h1, h2, h3⟩ := runHeader_advances ⟨d, ix, start, hs⟩ hr hb
        exact decodeLoop_fuel _ _ t (by rw [h1]; omega) (by omega)
      · rw [decodeLoop_stays hb, decodeLoop_stays hb]
/-- What a run of whole blocks leaves. -/
def blocksDone (d : Bool) : List (List Word) → State → State
  | [], s => s
  | xs :: r, s => blocksDone d r (blockDone d xs s)

/-- DECODE_FRAME over whole blocks that BUF holds below LIMIT, with room in VALUE_OUT: it ends after the frame's last
block, and stands at the next block boundary otherwise. -/
theorem decodeBlocks_run (d : Bool) : ∀ (bs : List (List Word)) (ix left' : Nat) (s : State), codecLegal s.cfg →
    ix < s.nvalues.toNat → blockRun (cfgBlock s.cfg) (s.nvalues.toNat - ix) bs left' →
    (∀ ys ∈ bs, wordsLegal s.cfg ys) → s.limit.toNat ≤ capOf s →
    holdsStream s.buf s.pos.toNat (streamBlocks s.cfg s.prevS.toNat bs) →
    (bs ≠ [] → s.pos.toNat + (streamBlocks s.cfg s.prevS.toNat bs).length ≤ s.limit.toNat) →
    (d = true ∨ s.valueOut.length + bs.flatten.length ≤ s.par.voutDepth) →
    decodeBlocks (hold (.decode d ix [] s.pos) s) =
      if left' = 0 then .next (finishDecode (blocksDone d bs s))
      else decodeBlocks (hold (.decode d (s.nvalues.toNat - left') [] (blocksDone d bs s).pos) (blocksDone d bs s))
  | [], ix, left', s, _, hix, hr, _, _, _, _, _ => by
    have hr : s.nvalues.toNat - ix = left' := hr
    rw [if_neg (by omega), show s.nvalues.toNat - left' = ix by omega]
    rfl
  | xs :: bs, ix, left', s, hc, hix, hr, hl, hcap, hh, hf, ho => by
    obtain ⟨hne, hn, hr⟩ := hr
    have hlx := hl xs (by simp)
    have hf := hf (by simp)
    simp only [streamBlocks, List.length_append] at hf
    simp only [List.flatten_cons, List.length_append] at ho
    rw [streamBlocks, holdsStream_append] at hh
    have hsig := ofNat_streamSig hc hlx
    have hpos : 1 ≤ xs.length := List.length_pos_iff.2 hne
    have hle : xs.length ≤ s.nvalues.toNat - ix := by rw [hn]; exact Nat.min_le_right _ _
    have hp : (BitVec.ofNat 64 (s.pos.toNat + (streamBlock s.cfg s.prevS.toNat xs).length)).toNat =
        s.pos.toNat + (streamBlock s.cfg s.prevS.toNat xs).length := toNat_ofNat_add (by have := s.limit.isLt; omega)
    have hfetch : fetchHeader (hold (.decode d ix [] s.pos) s) =
        some (selectHeader s.prevS.toNat (streamSig s.cfg xs)) := fetchHeader_of_holds (s := s) hh.1 (by omega)
    have hblock := decodeBlock_reads (d := d) (ix := ix) (start := s.pos) (s := hold (.decode d ix [] s.pos) s) hc hlx hn
      hh.1 (by
        show s.pos.toNat + (streamBlock s.cfg s.prevS.toNat xs).length ≤ s.limit.toNat
        omega) (ho.imp_right fun h => by
        show s.valueOut.length + xs.length ≤ s.par.voutDepth
        omega)
    have hsel : headerSig s.prevS.toNat (selectHeader s.prevS.toNat (streamSig s.cfg xs)) = streamSig s.cfg xs :=
      selectHeader_sig (streamSig_le_64 hc hlx)
    have hrun := runHeader_boundary (s := hold (.decode d ix [] s.pos) s) (d := d) (ix := ix) (start := s.pos)
      (selectHeader s.prevS.toNat (streamSig s.cfg xs)) rfl hcap
    rw [hold_prevS, hsel] at hrun
    have hblock' := hrun.trans (congrArg _ hblock)
    by_cases hend : s.nvalues.toNat ≤ ix + xs.length
    · have hbs : bs = [] := by
        cases bs with
        | nil => rfl
        | cons ys r =>
          obtain ⟨hne', hn', _⟩ := hr
          exact absurd (List.length_eq_zero_iff.1 (by omega)) hne'
      subst hbs
      have hr : s.nvalues.toNat - ix - xs.length = left' := hr
      have hb := hblock'.trans (congrArg _ (if_pos hend))
      rw [decodeBlocks_boundary (hold_inflight _ _), hfetch]
      simp only [hb]
      rw [if_pos (by omega)]
      exact decodeLoop_idle rfl _
    · have hb := hblock'.trans (congrArg _ (if_neg hend))
      rw [decodeBlocks_boundary (hold_inflight _ _), hfetch]
      simp only [hb]
      refine decodeBlocks_run d bs (ix + xs.length) left' (blockDone d xs s) hc (Nat.not_le.1 hend) ?_
        (fun zs hz => hl zs (List.mem_cons_of_mem _ hz)) hcap ?_ ?_ ?_
      · show blockRun (cfgBlock s.cfg) (s.nvalues.toNat - (ix + xs.length)) bs left'
        rw [← Nat.sub_sub]
        exact hr
      · show holdsStream s.buf (BitVec.ofNat 64 _).toNat (streamBlocks s.cfg (BitVec.ofNat 7 _).toNat _)
        rw [hp, hsig]
        exact hh.2
      · intro _
        show (BitVec.ofNat 64 _).toNat + (streamBlocks s.cfg (BitVec.ofNat 7 _).toNat _).length ≤ s.limit.toNat
        rw [hp, hsig]
        omega
      · refine ho.imp_right fun h => ?_
        show (s.valueOut ++ _).length + bs.flatten.length ≤ s.par.voutDepth
        have hd : (if d then ([] : List Word) else xs.map fun x =>
            deliverWord s.cfg (wordValue (cfgSigned s.cfg) (cfgPb s.cfg) x)).length ≤ xs.length := by
          cases d <;> simp
        rw [List.length_append]
        omega

/-- A run of whole blocks, field by field. -/
theorem blocksDone_eq (d : Bool) : ∀ (bs : List (List Word)) (s : State), codecLegal s.cfg →
    (∀ xs ∈ bs, wordsLegal s.cfg xs) → s.pos.toNat + (streamBlocks s.cfg s.prevS.toNat bs).length < 2 ^ 64 →
    blocksDone d bs s = { s with
      pos := BitVec.ofNat 64 (s.pos.toNat + (streamBlocks s.cfg s.prevS.toNat bs).length)
      prevS := BitVec.ofNat 7 (lastSig s.cfg s.prevS.toNat bs)
      valueOut := s.valueOut ++ if d then []
        else bs.flatten.map fun x => deliverWord s.cfg (wordValue (cfgSigned s.cfg) (cfgPb s.cfg) x) }
  | [], s, _, _, _ => by cases d <;> simp [blocksDone, streamBlocks, lastSig]
  | xs :: r, s, hc, hl, h64 => by
    simp only [streamBlocks, List.length_append] at h64
    have hp : (BitVec.ofNat 64 (s.pos.toNat + (streamBlock s.cfg s.prevS.toNat xs).length)).toNat =
        s.pos.toNat + (streamBlock s.cfg s.prevS.toNat xs).length := toNat_ofNat_add (by omega)
    have hsig := ofNat_streamSig hc (hl xs (by simp))
    rw [blocksDone, blocksDone_eq d r (blockDone d xs s) hc (fun ys hy => hl ys (by simp [hy])) (by
      show (BitVec.ofNat 64 _).toNat + (streamBlocks s.cfg (BitVec.ofNat 7 _).toNat r).length < 2 ^ 64
      rw [hp, hsig]; omega)]
    simp only [blockDone, hp, hsig, streamBlocks, lastSig, List.length_append, Nat.add_assoc]
    cases d <;> simp

end Sys2Proof.Machine
end

