-- ==== Sys2Proof/Laws/PerInstr.lean ====
section
/-! SUPPORT. What is stated per instruction: that the encoder's bits are the ones its row of the opcode table matches. -/

namespace Sys2Proof.Laws.TableRow

/-- A row of the opcode table: how many bits it numbers, its mask and its match. -/
structure Row where
  nbits : Nat
  mask : Nat
  value : Nat
  deriving DecidableEq, Repr

/-- The row of each instruction, as the table has it. -/
def row : Instr → Row
  | .nop => ⟨64, 0xFFFFFFFFFFFFFFFF, 0x00⟩
  | .setpos => ⟨64, 0xFFFFFFFFFFFFFFFF, 0x01⟩
  | .advance => ⟨64, 0xFFFFFFFFFFFFFFFF, 0x02⟩
  | .getpos => ⟨64, 0xFFFFFFFFFFFFFFFF, 0x03⟩
  | .readbit => ⟨64, 0xFFFFFFFFFFFFFFFF, 0x04⟩
  | .writebit => ⟨64, 0xFFFFFFFFFFFFFFFF, 0x05⟩
  | .read _ _ => ⟨64, 0xFFFFFFFFFFFF00FF, 0x06⟩
  | .write _ => ⟨64, 0xFFFFFFFFFFFF80FF, 0x07⟩
  | .align => ⟨64, 0xFFFFFFFFFFFFFFFF, 0x08⟩
  | .append _ => ⟨64, 0xFFFFFFFFFFFF80FF, 0x09⟩
  | .extract _ _ => ⟨64, 0xFFFFFFFFFFFF00FF, 0x0A⟩
  | .encodeFrame => ⟨64, 0xFFFFFFFFFFFFFFFF, 0x10⟩
  | .decodeFrame _ => ⟨64, 0xFFFFFFFFFFFEFFFF, 0x11⟩
  | .serialize => ⟨64, 0xFFFFFFFFFFFFFFFF, 0x18⟩
  | .load => ⟨64, 0xFFFFFFFFFFFFFFFF, 0x19⟩
  | .clear => ⟨64, 0xFFFFFFFFFFFFFFFF, 0x1E⟩
  | .clrerr => ⟨64, 0xFFFFFFFFFFFFFFFF, 0x1F⟩
  | .h1 => ⟨1, 0x1, 0x1⟩
  | .h4 _ => ⟨4, 0x1, 0x0⟩
  | .h6 _ => ⟨6, 0xF, 0xE⟩
  | .h12 _ => ⟨12, 0x3F, 0x3E⟩

/-- The bits of a code and how many there are. -/
def bitsOf : Code → Nat × Nat
  | .command w => (64, w.toNat)
  | .header len h => (len, h)

/-- The encoder writes as many bits as the row numbers, and under the row's mask they are the row's match (R70, R72,
R81). -/
def Statement (i : Instr) : Prop :=
  (bitsOf (encode i)).1 = (row i).nbits ∧ (bitsOf (encode i)).2 < 2 ^ (row i).nbits ∧
    (bitsOf (encode i)).2 &&& (row i).mask = (row i).value

theorem nop : Statement .nop := by unfold Statement; decide
theorem setpos : Statement .setpos := by unfold Statement; decide
theorem advance : Statement .advance := by unfold Statement; decide
theorem getpos : Statement .getpos := by unfold Statement; decide
theorem readbit : Statement .readbit := by unfold Statement; decide
theorem writebit : Statement .writebit := by unfold Statement; decide
theorem read (n : BitVec 7) (sg : Bool) : Statement (.read n sg) := by
  unfold Statement; revert n sg; decide +kernel
theorem write (n : BitVec 7) : Statement (.write n) := by unfold Statement; revert n; decide +kernel
theorem align : Statement .align := by unfold Statement; decide
theorem append (n : BitVec 7) : Statement (.append n) := by unfold Statement; revert n; decide +kernel
theorem extract (n : BitVec 7) (sg : Bool) : Statement (.extract n sg) := by
  unfold Statement; revert n sg; decide +kernel
theorem encodeFrame : Statement .encodeFrame := by unfold Statement; decide
theorem decodeFrame (d : Bool) : Statement (.decodeFrame d) := by unfold Statement; revert d; decide
theorem serialize : Statement .serialize := by unfold Statement; decide
theorem load : Statement .load := by unfold Statement; decide
theorem clear : Statement .clear := by unfold Statement; decide
theorem clrerr : Statement .clrerr := by unfold Statement; decide
theorem h1 : Statement .h1 := by unfold Statement; decide
theorem h4 (b3 : Fin 7) : Statement (.h4 b3) := by unfold Statement; revert b3; decide
theorem h6 (b2 : Fin 3) : Statement (.h6 b2) := by unfold Statement; revert b2; decide
theorem h12 (b6 : BitVec 6) : Statement (.h12 b6) := by unfold Statement; revert b6; decide +kernel

end Sys2Proof.Laws.TableRow
end

