-- ==== Sys2Proof/Laws/Step.lean ====
section
/-! SUPPORT. Whose turn a step is, and what the engine's turn is at a block boundary. -/

namespace Sys2Proof.Machine

/-- Where the host has nothing left or must wait, the step is the engine's turn. -/
theorem step_of_hostWaits {s : State} (h : hostWaits s) : step s = engineTurn s := by
  unfold hostWaits at h
  unfold step
  split at h <;> rename_i hh <;> rw [hh]
  all_goals try exact absurd h id
  · rename_i rest
    have hw : hostAct .waitIdle { s with host := rest } = none := if_pos (Option.isSome_iff_ne_none.2 h)
    simp only [hw]
  · simp only [hostAct]
    rw [if_neg (by simpa using h)]
  · simp only [hostAct]
    rw [if_neg (by simpa using h)]
  · simp only [hostAct, h]
  · simp only [hostAct, h]

/-- Where the host passes, it is the engine's too. -/
theorem step_of_pass {s : State} {rest : List HostAct} (h : s.host = .pass :: rest) :
    step s = engineTurn { s with host := rest } := by
  unfold step; rw [h]

/-- A host with nothing left waits. -/
theorem hostWaits_of_nil {s : State} (h : s.host = []) : hostWaits s := by
  unfold hostWaits; rw [h]; trivial

/-- At a block boundary the engine's turn is DECODE_FRAME from there on. -/
theorem engineTurn_of_boundary {s : State} (h : atBoundary s) : engineTurn s = decodeBlocks s := by
  obtain ⟨d, ix, start, hs⟩ := h
  rw [decodeBlocks_boundary hs]
  unfold engineTurn
  rw [hs]
  simp only []
  cases fetchHeader s with
  | none => rfl
  | some hd =>
    simp only [exec_toInstr]
    cases runHeader hd s <;> rfl

end Sys2Proof.Machine
end

