-- ==== Sys2Proof/Tests/Slice0.lean ====
section
/-! SUPPORT. Small tests: the well-formedness checks, the decoding of words written out from the spec, one step of each
instruction with the results the spec gives (the examples of its rules, and vectors of 95_test_vectors.md, named in the
comments), and for each obligation with hypotheses a witness that meets them. -/

set_option Elab.async false

namespace Sys2Proof.Tests

open Sys2Proof.Machine

/-! ## Helpers -/

/-- BUF with these octets from octet 0 on written, and nothing else. -/
def mem (l : List Octet) : Memory where
  value := ((List.range l.length).zip l).filter fun c => c.2 != 0#8
  written := (List.range l.length).map fun k => (k, 0xFF#8)
  era := 0

/-- The state after reset with these octets in BUF and POS at `p`. -/
def st (l : List Octet) (p : Nat) : State := { State.reset with buf := mem l, pos := BitVec.ofNat 64 p }

/-- The next state of an outcome. -/
def got (o : Host.Outcome State Fault Refusal) : Option State :=
  match o with
  | .next t => some t
  | _ => none

/-- One step of the engine with this command word issued. -/
def run (w : Word) (s : State) : Option State := got (step { s with inflight := some (.issued w) })

/-- STATUS, POS and RESULT. -/
def regs (o : Option State) : Option (Nat × Nat × Nat) :=
  o.map fun t => ((statusWord t).toNat, t.pos.toNat, t.result.toNat)

/-- The first `n` octets of BUF. -/
def octets (n : Nat) (o : Option State) : Option (List Nat) :=
  o.map fun t => (List.range n).map fun k => (bufOctet t.buf k).toNat

/-- A DECODE_FRAME at a block boundary at bit 0, LIMIT at the end of the octets. -/
def boundary (l : List Octet) (c n : Word) : State :=
  { st l 0 with inflight := some (.decode false 0 [] 0#64), limit := BitVec.ofNat 64 (8 * l.length), cfg := c, nvalues := n }

/-! ## Well-formedness: R73, R78 -/

theorem test_read_width_0_is_ill_formed : (Instr.read 0 true).wellFormed = false := by decide
theorem test_write_width_65_is_ill_formed : (Instr.write 65).wellFormed = false := by decide
theorem test_append_width_0_is_ill_formed : (Instr.append 0).wellFormed = false := by decide
theorem test_extract_width_127_is_ill_formed : (Instr.extract 127 false).wellFormed = false := by decide
theorem test_widths_1_and_64_are_well_formed :
    (Instr.read 1 true).wellFormed = true ∧ (Instr.write 64).wellFormed = true ∧ (Instr.append 64).wellFormed = true ∧
      (Instr.extract 1 false).wellFormed = true := by decide

/-- A DECODE_FRAME that waited with the word 7 of its first block in hand; the second block, one zero under H1, follows. -/
def waiting : State :=
  { st [0x01] 0 with
    inflight := some (.decode false 2 [7#64] 0#64), cfg := 0x31002#64, nvalues := 3#64, limit := 8#64 }

/-! ## Decoding: the command words of R88, the header codes of R81 -/

theorem test_decode_nop : decodeTableWord 64 0x00000000 = some .nop := by decide
theorem test_decode_setpos : decodeTableWord 64 0x00000001 = some .setpos := by decide
theorem test_decode_advance : decodeTableWord 64 0x00000002 = some .advance := by decide
theorem test_decode_getpos : decodeTableWord 64 0x00000003 = some .getpos := by decide
theorem test_decode_readbit : decodeTableWord 64 0x00000004 = some .readbit := by decide
theorem test_decode_writebit : decodeTableWord 64 0x00000005 = some .writebit := by decide
/-- `read.s 12` is 0x00008C06 (R88). -/
theorem test_decode_read : decodeTableWord 64 0x00008C06 = some (.read 12 true) := by decide
/-- `write 5`: 0x07 + (5 << 8). -/
theorem test_decode_write : decodeTableWord 64 0b0000010100000111 = some (.write 5) := by decide
theorem test_decode_align : decodeTableWord 64 0x00000008 = some .align := by decide
/-- `append 64`: 0x09 + (64 << 8). -/
theorem test_decode_append : decodeTableWord 64 0b0100000000001001 = some (.append 64) := by decide
/-- `extract.s 4`: 0x0A + (4 << 8) + 0x8000. -/
theorem test_decode_extract : decodeTableWord 64 0b1000010000001010 = some (.extract 4 true) := by decide
theorem test_decode_encode : decodeTableWord 64 0x00000010 = some .encodeFrame := by decide
theorem test_decode_decode : decodeTableWord 64 0x00000011 = some (.decodeFrame false) := by decide
theorem test_decode_decode_d : decodeTableWord 64 0x00010011 = some (.decodeFrame true) := by decide
theorem test_decode_serialize : decodeTableWord 64 0x00000018 = some .serialize := by decide
theorem test_decode_load : decodeTableWord 64 0x00000019 = some .load := by decide
theorem test_decode_clear : decodeTableWord 64 0x0000001E = some .clear := by decide
theorem test_decode_clrerr : decodeTableWord 64 0x0000001F = some .clrerr := by decide
/-- Stream bit `1`; what follows does not matter. -/
theorem test_decode_h1 : decodeTableWord 8 0b00000001 = some .h1 := by decide
/-- Stream bits `0 110`, b3 = 3, written here last stream bit first. -/
theorem test_decode_h4 : decodeTableWord 8 0b0110 = some (.h4 3) := by decide
/-- Stream bits `0 111 01`, b2 = 2. -/
theorem test_decode_h6 : decodeTableWord 8 0b101110 = some (.h6 2) := by decide
/-- Stream bits `0 111 11 011000`, b6 = 6, so s = 16. -/
theorem test_decode_h12 : decodeTableWord 16 0b000110111110 = some (.h12 6) := by decide
/-- The priority of R143: OPCODE, then RESERVED, then WIDTH (vectors W3, W4, W5, W6, W7, W9). -/
theorem test_decode_rejections :
    decodeCommand 0x0B#64 = .error .opcode ∧ decodeCommand 0x1000000FF#64 = .error .opcode ∧
      decodeCommand 0x20006#64 = .error .reserved ∧ decodeCommand 0x6#64 = .error .width ∧
      decodeCommand 0x4106#64 = .error .width ∧ decodeCommand 0x8807#64 = .error .reserved := by decide

/-! ## One step of each instruction -/

/-- R134's example. -/
theorem test_nop : run 0x00#64 (st [0xB4] 5) = some (st [0xB4] 5) := by decide +kernel
/-- R91's example, and vector C2: above CAP. -/
theorem test_setpos : regs (run 0x01#64 { st [] 7 with arg := 20#64 }) = some (0, 20, 0) := by decide +kernel
theorem test_setpos_bounds : regs (run 0x01#64 { st [] 7 with arg := 2049#64 }) = some (0x10030, 7, 0) := by
  decide +kernel
/-- R92's example, and vector C5: below 0. -/
theorem test_advance : regs (run 0x02#64 { st [] 20 with arg := 0xFFFFFFFFFFFFFFF4#64 }) = some (0, 8, 0) := by
  decide +kernel
theorem test_advance_bounds :
    regs (run 0x02#64 { st [] 20 with arg := 0xFFFFFFFFFFFFFFEB#64 }) = some (0x20030, 20, 0) := by decide +kernel
/-- R93's example. -/
theorem test_getpos : regs (run 0x03#64 (st [] 131)) = some (0, 131, 131) := by decide +kernel
/-- R94's example, and vector C14: at CAP. -/
theorem test_readbit : regs (run 0x04#64 (st [0xB4] 2)) = some (0, 2, 1) := by decide +kernel
theorem test_readbit_bounds : regs (run 0x04#64 (st [] 2048)) = some (0x40030, 2048, 0) := by decide +kernel
/-- R95's example, and vector C13: only ARG[0] counts. -/
theorem test_writebit : octets 1 (run 0x05#64 { st [0xB4] 0 with arg := 1#64 }) = some [0xB5] := by decide +kernel
theorem test_writebit_low_bit : octets 1 (run 0x05#64 { st [0] 0 with arg := 0xFE#64 }) = some [0] := by decide +kernel
/-- R96's example, and the same field unsigned. -/
theorem test_read_signed : regs (run 0x8206#64 (st [0xB4] 4)) = some (0, 6, 0xFFFFFFFFFFFFFFFF) := by decide +kernel
theorem test_read_unsigned : regs (run 0x0206#64 (st [0xB4] 4)) = some (0, 6, 3) := by decide +kernel
/-- R97's example, and vector C23: the bits are replaced. -/
theorem test_write : octets 2 (run 0x0507#64 { st [0, 0] 6 with arg := 0x1D#64 }) = some [0x40, 0x07] := by
  decide +kernel
theorem test_write_replaces : octets 1 (run 0x0307#64 { st [0xFF] 2 with arg := 0xF0#64 }) = some [0xE3] := by
  decide +kernel
/-- R98's examples. -/
theorem test_align : regs (run 0x08#64 (st [] 131)) = some (0, 136, 0) := by decide +kernel
theorem test_align_aligned : regs (run 0x08#64 (st [] 136)) = some (0, 136, 0) := by decide +kernel
/-- R99's example, and the wait of R14 with one word missing. -/
theorem test_append :
    octets 2 (run 0x0409#64 { st [0, 0] 0 with cnt := 3#64, valueIn := [0x3#64, 0xA#64, 0x15#64] }) =
      some [0xA3, 0x05] := by decide +kernel
theorem test_append_waits :
    (run 0x0409#64 { st [0, 0] 0 with cnt := 3#64, valueIn := [0x3#64, 0xA#64] }).map (·.inflight) =
      some (some (.append 4 2)) := by decide +kernel
/-- R101's example, and vector C30's clamp of an unsigned field into u8. -/
theorem test_extract :
    (run 0x840A#64 { st [0xA3, 0x05] 0 with cnt := 3#64, cfg := 0x4100C#64 }).map (·.valueOut) =
      some [0x3#64, 0xFFFFFFFFFFFFFFFA#64, 0x5#64] := by decide +kernel
theorem test_extract_clamps :
    (run 0x100A#64 { st [0x01, 0x80] 0 with cnt := 1#64, cfg := 0x100C#64 }).map (·.valueOut) = some [0xFF#64] := by
  decide +kernel
/-- R110's example (EX4), and vector E-E-3's RANGE in the second block. -/
theorem test_encode :
    octets 3 (run 0x10#64 { st [] 0 with cfg := 0x801#64, nvalues := 5#64, valueIn := [3#64, 4#64, 2#64, 1#64, 0#64] }) =
      some [0xB4, 0x91, 0x94] := by decide +kernel
theorem test_encode_range :
    regs (run 0x10#64 { st [] 0 with
      cfg := 0x30802#64, nvalues := 6#64, valueIn := [1#64, 2#64, 3#64, 300#64, 5#64, 6#64] }) =
      some (0x100040, 8, 0) := by decide +kernel
/-- R122's example, one step up to the first header; and vector D-SIGN-1. -/
theorem test_decode_frame :
    regs (run 0x11#64 { st [0xF4, 0xFF, 0x0F] 0 with cfg := 0x51088#64, nvalues := 8#64, limit := 24#64 }) =
      some (0, 24, 3) := by decide +kernel
theorem test_decode_frame_sign :
    regs (run 0x11#64 { st [0xF4, 0xFF, 0x0F] 0 with cfg := 0x11088#64, nvalues := 8#64, limit := 24#64 }) =
      some (0x110120, 0, 0) := by decide +kernel
/-- R129's example: the bits from POS = 20 up are forced to 0 in the output. -/
theorem test_serialize :
    (run 0x18#64 (st [0xF4, 0xFF, 0xFF] 20)).map (·.octetOut) = some [0xF4#8, 0xFF#8, 0x0F#8] := by decide +kernel
/-- R131's example, and BOUNDS before any pop. -/
theorem test_load :
    octets 5 (run 0x19#64 { st [] 9 with cnt := 3#64, octetIn := [0xF4#8, 0xFF#8, 0x0F#8] }) =
      some [0xF4, 0xFF, 0x0F, 0, 0] := by decide +kernel
theorem test_load_bounds :
    regs (run 0x19#64 { st [] 9 with cnt := 257#64 }) = some (0x190030, 9, 0) := by decide +kernel
/-- R136's example. -/
theorem test_clear :
    (octets 2 (run 0x1E#64 (st [0xB4] 77)), regs (run 0x1E#64 (st [0xB4] 77))) = (some [0, 0], some (0, 0, 0)) := by
  decide +kernel
/-- R135's example. -/
theorem test_clrerr : regs (run 0x1F#64 { st [] 3 with err := 1#4, errSub := 1#4 }) = some (0, 3, 0) := by
  decide +kernel
/-- H1 at a frame's start: s = 0, so the block is zeros (R122's corner case). -/
theorem test_h1 : (got (step (boundary [0x01] 0x31008#64 2#64))).map (·.valueOut) = some [0#64, 0#64] := by
  decide +kernel
/-- H4 with b3 = 2 (vector EX5): eight signed fields of two ones. -/
theorem test_h4 :
    (got (step (boundary [0xF4, 0xFF, 0x0F] 0x51088#64 8#64))).map (·.valueOut) =
      some (List.replicate 8 0xFFFFFFFFFFFFFFFF#64) := by decide +kernel
/-- H6 with b2 = 0 (vector E-H-7, value 64): s = 7. -/
theorem test_h6 : (got (step (boundary [0x0E, 0x10] 0x34001#64 1#64))).map (·.valueOut) = some [64#64] := by
  decide +kernel
/-- H12 with b6 = 0 (vector E-H-10, value 512), and b6 = 55 (vector D-WIDTH). -/
theorem test_h12 : (got (step (boundary [0x3E, 0x00, 0x20] 0x34001#64 1#64))).map (·.valueOut) = some [512#64] := by
  decide +kernel
theorem test_h12_width : regs (got (step (boundary [0xFE, 0x0D] 0x34001#64 1#64))) = some (0x110210, 0, 0) := by
  decide +kernel
/-- A DECODE_FRAME that waited goes on past the block boundary in the same step, to the frame's end (R16). -/
theorem test_goes_on_past_boundary :
    (got (step waiting)).map (fun t => (t.valueOut, t.inflight, t.pos)) = some ([7#64, 0#64], none, 8#64) := by
  decide +kernel
/-- The first step after reset runs a placed command word and a placed header code. -/
theorem test_with_fetch_word :
    regs (got (step (State.reset.withFetchWord 64 0x1E))) = some (0, 0, 0) ∧
      regs (got (step (State.reset.withFetchWord 16 0x3E))) = some (0, 24, 3) := by decide +kernel
/-- ID for W = 32 reads 0x2054525058 (R33). -/
theorem test_id : (idWord State.reset).toNat = 0x2054525058 := by decide

/-! ## Witnesses: a state and operands that meet the hypotheses of each obligation -/

/-- `Inv` of a state with no command in flight, in a form that evaluates. -/
def idleSound (s : State) : Bool :=
  s.par.legal && s.buf.wf && s.buf.within s.par.octets && decide (s.pos.toNat ≤ capOf s) &&
    decide (s.limit.toNat ≤ capOf s) && decide (s.cfg &&& ~~~cfgMask = 0#64) && decide (s.prevS.toNat ≤ 64) &&
    decide (s.frameStart.toNat % 8 = 0 ∧ s.frameStart.toNat ≤ capOf s) && decide (s.err = 0#4) &&
    decide (s.errSub = 0#4 ∧ s.errOp = 0#8) && decide (s.valueIn.length ≤ s.par.vinDepth) &&
    decide (s.valueOut.length ≤ s.par.voutDepth) && decide (s.octetIn.length ≤ s.par.oinDepth) &&
    decide (s.octetOut.length ≤ s.par.ooutDepth)

/-- The same with a command in flight that agrees with the registers. -/
theorem inv_of_check {s : State} (h : idleSound s = true) (hf : ∀ f, s.inflight = some f → inflightSound s f) :
    Inv s := by
  simp only [idleSound, Bool.and_eq_true, decide_eq_true_eq] at h
  obtain ⟨⟨⟨⟨⟨⟨⟨⟨⟨⟨⟨⟨⟨h1, h2⟩, h3⟩, h4⟩, h5⟩, h6⟩, h7⟩, h8⟩, h9⟩, h10⟩, h11⟩, h12⟩, h13⟩, h14⟩ := h
  exact ⟨h1, h2, h3, h4, h5, h6, h7, h8, by rw [h9]; decide, fun _ => h10, fun h => absurd h9 h, h11, h12, h13, h14, hf⟩

theorem inv_of_idle {s : State} (h : (idleSound s && s.inflight.isNone) = true) : Inv s := by
  simp only [Bool.and_eq_true, Option.isNone_iff_eq_none] at h
  exact inv_of_check h.1 fun f hf => by rw [h.2] at hf; cases hf

/-- The next state of an outcome that is one. -/
def after (o : Host.Outcome State Fault Refusal) : State := (got o).getD State.reset

theorem next_after {o : Host.Outcome State Fault Refusal} (h : (got o).isSome = true) : o = .next (after o) := by
  cases o <;> first | rfl | cases h

theorem wordsLegal_iff (c : Word) (xs : List Word) :
    wordsLegal c xs ↔ xs.all (wordLegal (cfgSigned c) (cfgPb c)) = true := by
  simp only [wordsLegal, List.all_eq_true]

/-- A command word issued after reset. -/
def issued (w : Word) : State := { State.reset with inflight := some (.issued w) }

/-- The first and last reserved opcodes of each run are rejected, with the word issued and no host action left. -/
theorem witness_ReservedOpcodesRaiseIllegal :
    ∀ op ∈ [0x0B, 0x0F, 0x12, 0x17, 0x1A, 0x1D, 0x20, 0xFF], decodeCommand (BitVec.ofNat 64 op) = .error .opcode ∧
      (issued (BitVec.ofNat 64 op)).inflight = some (.issued (BitVec.ofNat 64 op)) ∧
      (issued (BitVec.ofNat 64 op)).host = [] := by decide +kernel

/-- Bits 17 and 63, then D, S and N where the opcode does not use them. -/
theorem witness_ReservedFieldsRaiseIllegal :
    ∀ w ∈ [0x20006, 0x8000000000000106, 0x10010, 0x8807, 0x100],
      decodeCommand (BitVec.ofNat 64 w) ≠ .error .opcode ∧ decodeCommand (BitVec.ofNat 64 w) = .error .reserved ∧
        (issued (BitVec.ofNat 64 w)).inflight = some (.issued (BitVec.ofNat 64 w)) ∧
        (issued (BitVec.ofNat 64 w)).host = [] := by decide +kernel

/-- n = 0, 65 and 127. -/
theorem witness_IllegalWidthsRaiseIllegal :
    ∀ w ∈ [0x0006, 0x4107, 0x7F09, 0x800A],
      decodeCommand (BitVec.ofNat 64 w) ≠ .error .opcode ∧ decodeCommand (BitVec.ofNat 64 w) ≠ .error .reserved ∧
        decodeCommand (BitVec.ofNat 64 w) = .error .width ∧
        (issued (BitVec.ofNat 64 w)).inflight = some (.issued (BitVec.ofNat 64 w)) ∧
        (issued (BitVec.ofNat 64 w)).host = [] := by decide +kernel

theorem witness_DecodeEncodeRoundTrip :
    (Instr.read 1 true).wellFormed = true ∧ (Instr.extract 64 false).wellFormed = true := by
  decide +kernel
theorem witness_CommandWordsAreCanonical :
    decodeCommand 0x4006#64 = .ok (.read 64 false) ∧ decodeCommand 0x8106#64 = .ok (.read 1 true) := by decide +kernel
theorem witness_HeaderCodesArePrefixFree : headerLen (.h12 63) ≤ 12 ∧ headerLen .h1 ≤ 1 := by decide +kernel
theorem witness_HeaderCodesAreComplete :
    decodeHeader 12 0x3E = some (.h12 0) ∧ 11 < headerLen (.h12 0) ∧ 3 < headerLen (.h4 0) := by decide +kernel

/-- The ways in which the host leaves the turn to the engine: nothing left, a poll while busy, a push to a full FIFO, a pop
from an empty one; and a pass. -/
theorem witness_StepRunsIssuedCommand :
    decodeCommand 0x8C06#64 = .ok (.read 12 true) ∧ (issued 0x8C06#64).inflight = some (.issued 0x8C06#64) ∧
      (∀ h ∈ [[], [.waitIdle], [.popValue], [.popOctet]], hostWaits { issued 0x8C06#64 with host := h }) ∧
      hostWaits { issued 0x8C06#64 with valueIn := List.replicate 64 0#64, host := [.pushValue 1#64] } ∧
      hostWaits { issued 0x8C06#64 with octetIn := List.replicate 64 0#8, host := [.pushOctet 1#8] } ∧
      ({ issued 0x8C06#64 with host := [.pass, .read 0x08] } : State).host = .pass :: [.read 0x08] := by
  refine ⟨by decide +kernel, rfl, fun h hm => ?_, by unfold hostWaits; decide +kernel,
    by unfold hostWaits; decide +kernel, rfl⟩
  simp only [List.mem_cons, List.not_mem_nil, or_false] at hm
  rcases hm with rfl | rfl | rfl | rfl
  · trivial
  · exact fun h => by cases h
  · rfl
  · rfl
/-- The frame's only block, and the first of two blocks, after which `exec` leaves a block boundary. -/
theorem witness_StepRunsHeaderAtPos :
    atBoundary (boundary [0xF4, 0xFF, 0x0F] 0x51088#64 8#64) ∧
      fetchHeader (boundary [0xF4, 0xFF, 0x0F] 0x51088#64 8#64) = some (.h4 2) ∧
      hostWaits (boundary [0xF4, 0xFF, 0x0F] 0x51088#64 8#64) ∧
      (∃ t, exec (.h4 2) (boundary [0xF4, 0xFF, 0x0F] 0x51088#64 8#64) = .next t ∧ ¬atBoundary t) ∧
      ({ boundary [0xF4, 0xFF, 0x0F] 0x51088#64 8#64 with host := [.pass] } : State).host = .pass :: [] ∧
      ∃ t, exec (.h4 2) (boundary [0xF4, 0xFF, 0x0F] 0x51084#64 8#64) = .next t ∧ atBoundary t :=
  ⟨⟨false, 0, 0#64, rfl⟩, by decide +kernel, trivial,
    ⟨_, next_after (by decide +kernel), fun ⟨_, _, _, h⟩ =>
      absurd ((by decide +kernel : (after (exec (.h4 2) (boundary [0xF4, 0xFF, 0x0F] 0x51088#64 8#64))).inflight = none).symm.trans h)
        nofun⟩,
    rfl, _, next_after (by decide +kernel), false, 4, 12#64, by decide +kernel⟩
/-- A DECODE_FRAME that waited with one word to push, an idle engine, and a step of the former. -/
theorem witness_StepGoesOnAfterWait :
    waiting.inflight = some (.decode false 2 [7#64] 0#64) ∧ hostWaits waiting ∧
      (∀ w, InFlight.decode false 2 [7#64] 0#64 ≠ .issued w) ∧ ¬atBoundary waiting ∧ State.reset.inflight = none ∧
      State.reset.host = [] ∧ ∃ t, step waiting = .next t :=
  ⟨rfl, trivial, fun _ => nofun, fun ⟨_, _, _, h⟩ => (by cases h), rfl, rfl, _, next_after (by decide +kernel)⟩
/-- One state for each of the two clauses. -/
theorem witness_CmdWriteStartsOrIsDropped :
    ({ State.reset with host := [.write 0x00 0x10#64] } : State).host = .write 0x00 0x10#64 :: [] ∧
      State.reset.inflight = none ∧ State.reset.err = 0#4 ∧
      ({ State.reset with err := 1#4, host := [.write 0x00 0x11F#64] } : State).err ≠ 0#4 ∧ 0x11F#64 ≠ 0x1F#64 := by
  decide +kernel

/-- ARG = CAP moves, ARG = CAP + 1 raises. -/
theorem witness_SetposMovesOrRaises :
    ({ State.reset with arg := 2048#64 } : State).arg.toNat ≤ capOf State.reset ∧
      capOf State.reset < ({ State.reset with arg := 2049#64 } : State).arg.toNat := by decide +kernel
/-- The moves to exactly 0 and exactly CAP, and one bit further each way. -/
theorem witness_AdvanceMovesOrRaises :
    Inv (st [] 20) ∧ (0 : Int) ≤ (20#64).toNat + (0xFFFFFFFFFFFFFFEC#64).toInt ∧
      ((20#64).toNat : Int) + (2028#64).toInt ≤ capOf (st [] 20) ∧
      ¬((0 : Int) ≤ (20#64).toNat + (0xFFFFFFFFFFFFFFEB#64).toInt) ∧
      ¬(((20#64).toNat : Int) + (2029#64).toInt ≤ capOf (st [] 20)) :=
  ⟨inv_of_idle (by decide +kernel), by decide +kernel, by decide +kernel, by decide +kernel, by decide +kernel⟩
theorem witness_AlignMovesToByteBoundary : Inv (st [] 2047) := inv_of_idle (by decide +kernel)
/-- The last bit below CAP, and CAP itself. -/
theorem witness_SingleBitAccess :
    (st [] 2047).pos.toNat + 1 ≤ capOf (st [] 2047) ∧ (st [] 2047).buf.wf = true ∧
      capOf (st [] 2048) < (st [] 2048).pos.toNat + 1 := by decide +kernel
/-- A 64-bit field that ends at CAP, and one that ends a bit above it. -/
theorem witness_ReadReturnsField :
    Inv (st [] 1984) ∧ 1 ≤ (64#7).toNat ∧ (64#7).toNat ≤ 64 ∧
      (st [] 1984).pos.toNat + (64#7).toNat ≤ capOf (st [] 1984) ∧ Inv (st [] 1985) ∧
      capOf (st [] 1985) < (st [] 1985).pos.toNat + (64#7).toNat :=
  ⟨inv_of_idle (by decide +kernel), by decide +kernel, by decide +kernel, by decide +kernel,
    inv_of_idle (by decide +kernel), by decide +kernel⟩
theorem witness_WriteStoresField :
    Inv (st [] 2047) ∧ 1 ≤ (1#7).toNat ∧ (1#7).toNat ≤ 64 ∧
      (st [] 2047).pos.toNat + (1#7).toNat ≤ capOf (st [] 2047) ∧ Inv (st [] 2048) ∧
      capOf (st [] 2048) < (st [] 2048).pos.toNat + (1#7).toNat :=
  ⟨inv_of_idle (by decide +kernel), by decide +kernel, by decide +kernel, by decide +kernel,
    inv_of_idle (by decide +kernel), by decide +kernel⟩

/-- Two words for a series of two that ends at CAP (vector C26). -/
def series : State := { st [] 2040 with cnt := 2#64, valueIn := [1#64, 2#64] }

theorem witness_AppendStoresSeries :
    Inv series ∧ 1 ≤ (4#7).toNat ∧ (4#7).toNat ≤ 64 ∧
      series.pos.toNat + series.cnt.toNat * (4#7).toNat ≤ capOf series ∧ series.cnt.toNat ≤ series.valueIn.length :=
  ⟨inv_of_idle (by decide +kernel), by decide +kernel, by decide +kernel, by decide +kernel, by decide +kernel⟩
theorem witness_AppendWaitsForWords :
    Inv { series with valueIn := [1#64] } ∧ 1 ≤ (4#7).toNat ∧ (4#7).toNat ≤ 64 ∧
      series.pos.toNat + series.cnt.toNat * (4#7).toNat ≤ capOf series ∧ [1#64].length < series.cnt.toNat :=
  ⟨inv_of_idle (by decide +kernel), by decide +kernel, by decide +kernel, by decide +kernel, by decide +kernel⟩
/-- Vector C34's count of 0 at CAP, and a series that fills VALUE_OUT to its depth. -/
theorem witness_ExtractPushesSeries :
    Inv { st [] 0 with cnt := 64#64 } ∧ 1 ≤ (1#7).toNat ∧ (1#7).toNat ≤ 64 ∧
      (st [] 0).pos.toNat + (64#64).toNat * (1#7).toNat ≤ capOf (st [] 0) ∧
      (st [] 0).valueOut.length + (64#64).toNat ≤ (st [] 0).par.voutDepth ∧ Inv (st [] 2048) ∧
      (st [] 2048).pos.toNat + (0#64).toNat * (8#7).toNat ≤ capOf (st [] 2048) :=
  ⟨inv_of_idle (by decide +kernel), by decide +kernel, by decide +kernel, by decide +kernel, by decide +kernel,
    inv_of_idle (by decide +kernel), by decide +kernel⟩
/-- Vector C25's series, a bit too long, and a payload one octet too long. -/
theorem witness_BoundsErrorsChangeNothing :
    1 ≤ (3#7).toNat ∧ (3#7).toNat ≤ 64 ∧ capOf (st [] 2040) < (st [] 2040).pos.toNat + (3#64).toNat * (3#7).toNat ∧
      capOf (st [] 0) < 8 * (257#64).toNat := by decide +kernel
/-- Output FIFOs of one element: EXTRACT of three fields and SERIALIZE of three octets wait after one. -/
theorem witness_WaitingForRoomChangesNoValue :
    (Inv { st [0xA3, 0x05] 0 with par := { Params.vectors with voutDepth := 1 }, cnt := 3#64 } ∧
      ∃ t, exec (.extract 4 false)
          { st [0xA3, 0x05] 0 with par := { Params.vectors with voutDepth := 1 }, cnt := 3#64 } = .next t ∧
        t.inflight = some (.extract 4 false 1) ∧ 1 ≤ t.valueOut.length) ∧
    Inv { st [0xF4, 0xFF, 0x0F] 20 with par := { Params.vectors with ooutDepth := 1 } } ∧
      ∃ t, exec .serialize { st [0xF4, 0xFF, 0x0F] 20 with par := { Params.vectors with ooutDepth := 1 } } = .next t ∧
        t.inflight = some (.serialize 1) ∧ 1 ≤ t.octetOut.length :=
  ⟨⟨inv_of_idle (by decide +kernel), _, next_after (by decide +kernel), by decide +kernel, by decide +kernel⟩,
    inv_of_idle (by decide +kernel), _, next_after (by decide +kernel), by decide +kernel, by decide +kernel⟩
theorem witness_DeliveredValueIsClamped : cfgDsigned 0x4100C#64 = true ∧ cfgDsigned 0x100C#64 = false := by decide +kernel

/-- An unsigned block; the signed block of 90_conflicts.md C2, whose magnitudes need 3 bits and no fewer; a block of zeros. -/
theorem witness_SigBitsFromLeastWidth :
    (∀ v ∈ [(3 : Int), 4], 0 ≤ v) ∧ (∀ v ∈ [(3 : Int), 4], v < (2 : Int) ^ 3) ∧ (∀ v ∈ [(0 : Int), 0], v = 0) ∧
      (∃ v ∈ [(-4 : Int), 3], v ≠ 0) ∧ (∀ v ∈ [(-4 : Int), 3], v.natAbs < 2 ^ 3) ∧
      (∀ k, (∀ v ∈ [(-4 : Int), 3], v.natAbs < 2 ^ k) → 3 ≤ k) ∧ (4 : Nat) ≤ 8 := by
  refine ⟨by decide, by decide, by decide, by decide, by decide, fun k h => ?_, by decide⟩
  have h4 := h (-4) (by decide)
  by_contra hk
  have : 2 ^ k ≤ 2 ^ 2 := Nat.pow_le_pow_right (by decide) (by omega)
  omega
/-- A signed block and an unsigned one, each with a count above 0, and a block of zeros. -/
theorem witness_BlockCountFitsEveryValue :
    codecLegal 0x51088#64 ∧ wordsLegal 0x51088#64 [0xFFFFFFFFFFFFFFFF#64, 0#64] ∧
      0 < streamSig 0x51088#64 [0xFFFFFFFFFFFFFFFF#64, 0#64] ∧ cfgSigned 0x51088#64 = true ∧ codecLegal 0x801#64 ∧
      wordsLegal 0x801#64 [255#64] ∧ 0 < streamSig 0x801#64 [255#64] ∧ cfgSigned 0x801#64 = false ∧
      wordsLegal 0x801#64 [0#64] ∧ streamSig 0x801#64 [0#64] = 0 := by
  simp only [codecLegal, wordsLegal_iff]; decide +kernel
theorem witness_HeaderSelectionRule : (64 : Nat) ≤ 64 := by decide +kernel
/-- BLOCK = 0 and 65; PB = 0 and 65 with BLOCK legal. -/
theorem witness_EncodeConfigErrors :
    (¬(1 ≤ cfgBlock 0x31000#64 ∧ cfgBlock 0x31000#64 ≤ 64)) ∧ (¬(1 ≤ cfgBlock 0x31041#64 ∧ cfgBlock 0x31041#64 ≤ 64)) ∧
      (1 ≤ cfgBlock 0x30008#64 ∧ cfgBlock 0x30008#64 ≤ 64) ∧ (¬(1 ≤ cfgPb 0x30008#64 ∧ cfgPb 0x30008#64 ≤ 64)) ∧
      ¬(1 ≤ cfgPb 0x34108#64 ∧ cfgPb 0x34108#64 ≤ 64) := by decide +kernel

/-- Vector EX4's values, at bit 3. -/
def encoding : State := { st [] 3 with cfg := 0x801#64, nvalues := 5#64, valueIn := [3#64, 4#64, 2#64, 1#64, 0#64] }

theorem witness_EncodeFrameWritesStream :
    Inv encoding ∧ codecLegal encoding.cfg ∧ encoding.nvalues.toNat ≤ encoding.valueIn.length ∧
      wordsLegal encoding.cfg (encoding.valueIn.take encoding.nvalues.toNat) ∧
      ceil8 encoding.pos.toNat +
        (streamFrame encoding.cfg (encoding.valueIn.take encoding.nvalues.toNat)).length ≤ capOf encoding :=
  ⟨inv_of_idle (by decide +kernel), by unfold codecLegal; decide +kernel, by decide +kernel,
    by rw [wordsLegal_iff]; decide +kernel,
    by decide +kernel⟩

/-- Vector E-E-3: block 0 holds 1 and 2, block 1 holds 300 of 8 bits. -/
def badBlock : State :=
  { st [] 0 with cfg := 0x30802#64, nvalues := 6#64, valueIn := [1#64, 2#64, 3#64, 300#64, 5#64, 6#64] }

/-- Block 0 fits 16 bits of BUF and ends there; block 1 is legal and does not fit. -/
def fullBuffer : State :=
  { State.reset with
    par := { Params.vectors with width := .w8, bufWords := 2 }, cfg := 0x30802#64, nvalues := 4#64
    valueIn := [1#64, 2#64, 3#64, 255#64] }

theorem witness_EncodeErrorPartialEffects :
    (Inv badBlock ∧ codecLegal badBlock.cfg ∧ badBlock.nvalues.toNat ≤ badBlock.valueIn.length ∧
      1 * cfgBlock badBlock.cfg < badBlock.nvalues.toNat ∧
      wordsLegal badBlock.cfg (badBlock.valueIn.take (1 * cfgBlock badBlock.cfg)) ∧
      ceil8 badBlock.pos.toNat +
        (streamFrame badBlock.cfg (badBlock.valueIn.take (1 * cfgBlock badBlock.cfg))).length ≤ capOf badBlock ∧
      ¬wordsLegal badBlock.cfg (badBlock.valueIn.take
        (min (1 * cfgBlock badBlock.cfg + cfgBlock badBlock.cfg) badBlock.nvalues.toNat))) ∧
    Inv fullBuffer ∧ codecLegal fullBuffer.cfg ∧ fullBuffer.nvalues.toNat ≤ fullBuffer.valueIn.length ∧
      1 * cfgBlock fullBuffer.cfg < fullBuffer.nvalues.toNat ∧
      wordsLegal fullBuffer.cfg (fullBuffer.valueIn.take (1 * cfgBlock fullBuffer.cfg)) ∧
      ceil8 fullBuffer.pos.toNat +
        (streamFrame fullBuffer.cfg (fullBuffer.valueIn.take (1 * cfgBlock fullBuffer.cfg))).length ≤ capOf fullBuffer ∧
      wordsLegal fullBuffer.cfg (fullBuffer.valueIn.take
        (min (1 * cfgBlock fullBuffer.cfg + cfgBlock fullBuffer.cfg) fullBuffer.nvalues.toNat)) ∧
      capOf fullBuffer < ceil8 fullBuffer.pos.toNat + (streamFrame fullBuffer.cfg (fullBuffer.valueIn.take
        (min (1 * cfgBlock fullBuffer.cfg + cfgBlock fullBuffer.cfg) fullBuffer.nvalues.toNat))).length :=
  ⟨⟨inv_of_idle (by decide +kernel), by unfold codecLegal; decide +kernel, by decide +kernel, by decide +kernel,
    by rw [wordsLegal_iff]; decide +kernel, by decide +kernel, by rw [wordsLegal_iff]; decide +kernel⟩,
    inv_of_idle (by decide +kernel), by unfold codecLegal; decide +kernel, by decide +kernel, by decide +kernel,
    by rw [wordsLegal_iff]; decide +kernel, by decide +kernel, by rw [wordsLegal_iff]; decide +kernel, by decide +kernel⟩
theorem witness_WaitingForElementsChangesNoValue :
    (∃ t, exec .encodeFrame { badBlock with valueIn := [1#64, 2#64, 3#64] } = .next t ∧
      t.inflight = some (.encode 3 [3#64] 8#64)) ∧
    ∃ t, exec .load { st [] 0 with cnt := 3#64, octetIn := [1#8] } = .next t ∧ t.inflight = some (.load 1) :=
  ⟨⟨_, next_after (by decide +kernel), by decide +kernel⟩, _, next_after (by decide +kernel), by decide +kernel⟩
theorem witness_FrameSizeBound : codecLegal 0x801#64 ∧ wordsLegal 0x801#64 [3#64, 255#64] := by
  simp only [codecLegal, wordsLegal_iff]; decide +kernel

/-- CFG words for the four checks and for none: BLOCK, PB, SIGN, NARROW, and unsigned data into a signed destination. -/
theorem witness_DecodeChecksInOrder :
    (¬(1 ≤ cfgBlock 0x11080#64 ∧ cfgBlock 0x11080#64 ≤ 64)) ∧
      ((1 ≤ cfgBlock 0x10088#64 ∧ cfgBlock 0x10088#64 ≤ 64) ∧ ¬(1 ≤ cfgPb 0x10088#64 ∧ cfgPb 0x10088#64 ≤ 64)) ∧
      (codecLegal 0x11088#64 ∧ cfgSigned 0x11088#64 = true ∧ cfgDsigned 0x11088#64 = false) ∧
      (codecLegal 0x1008#64 ∧ ¬(cfgSigned 0x1008#64 = true ∧ cfgDsigned 0x1008#64 = false) ∧
        dstWidth 0x1008#64 < cfgPb 0x1008#64 ∧ cfgClampEn 0x1008#64 = false) ∧
      codecLegal 0x51001#64 ∧ destinationLegal 0x51001#64 ∧
      ∃ t, exec (.decodeFrame false) { st [] 0 with cfg := 0x51001#64 } = .next t := by
  refine ⟨?_, ?_, ?_, ?_, ?_, ?_, _, next_after (o := exec (.decodeFrame false) { st [] 0 with cfg := 0x51001#64 }) ?_⟩ <;>
    first | decide +kernel | (simp only [codecLegal, destinationLegal]; decide +kernel)

/-- The frame of `encoding`, written, at bit 8 and with LIMIT at its end. -/
def decoding : State :=
  { st [0, 0xB4, 0x91, 0x94, 0x00] 3 with cfg := 0x801#64, nvalues := 5#64, limit := 36#64 }

theorem witness_DecodeFrameReadsStream :
    Inv decoding ∧ codecLegal decoding.cfg ∧ destinationLegal decoding.cfg ∧
      [3#64, 4#64, 2#64, 1#64, 0#64].length = decoding.nvalues.toNat ∧
      wordsLegal decoding.cfg [3#64, 4#64, 2#64, 1#64, 0#64] ∧
      holdsStream decoding.buf (ceil8 decoding.pos.toNat) (streamFrame decoding.cfg [3#64, 4#64, 2#64, 1#64, 0#64]) ∧
      ceil8 decoding.pos.toNat + (streamFrame decoding.cfg [3#64, 4#64, 2#64, 1#64, 0#64]).length ≤
        decoding.limit.toNat ∧
      decoding.valueOut.length + [3#64, 4#64, 2#64, 1#64, 0#64].length ≤ decoding.par.voutDepth :=
  ⟨inv_of_idle (by decide +kernel), by unfold codecLegal; decide +kernel, by unfold destinationLegal; decide +kernel,
    by decide +kernel,
    by rw [wordsLegal_iff]; decide +kernel, by unfold holdsStream; decide +kernel, by decide +kernel, by decide +kernel⟩

/-- What ENCODE_FRAME makes of `encoding`. -/
def encoded : State := after (exec .encodeFrame encoding)

/-- A decoder set up on it: the same POS and NVALUES, LIMIT at the frame's end. -/
def reader : State := { encoded with pos := encoding.pos, limit := encoded.pos }

theorem witness_FrameRoundTrip :
    Inv encoding ∧ Inv reader ∧ codecLegal encoding.cfg ∧ encoding.nvalues.toNat ≤ encoding.valueIn.length ∧
      exec .encodeFrame encoding = .next encoded ∧ encoded.inflight = none ∧ encoded.err = encoding.err ∧
      encoded.faults = encoding.faults ∧ reader.buf = encoded.buf ∧ reader.par = encoded.par ∧
      reader.pos = encoding.pos ∧ reader.nvalues = encoding.nvalues ∧ reader.cfg = encoding.cfg ∧
      cfgDsigned reader.cfg = cfgSigned encoding.cfg ∧ cfgPb encoding.cfg ≤ dstWidth reader.cfg ∧
      encoded.pos.toNat ≤ reader.limit.toNat ∧
      reader.valueOut.length + encoding.nvalues.toNat ≤ reader.par.voutDepth :=
  ⟨inv_of_idle (by decide +kernel), inv_of_idle (by decide +kernel),
    by unfold codecLegal; decide +kernel, by decide +kernel, next_after (by decide +kernel), by decide +kernel,
    by decide +kernel, by decide +kernel, rfl, rfl, rfl, by decide +kernel, rfl, by decide +kernel, by decide +kernel,
    Nat.le_refl _, by decide +kernel⟩

/-- A block of two of three values, and the frame's last block, with LIMIT at the block's end. -/
theorem witness_HeaderCodeDecodesBlock :
    Inv (boundary [0xF4, 0xFF] 0x51082#64 3#64) ∧
      (boundary [0xF4, 0xFF] 0x51082#64 3#64).inflight = some (.decode false 0 [] 0#64) ∧
      headerSig 0 (.h4 6) ≤ 64 ∧ 0 + headerLen (.h4 6) + min (cfgBlock 0x51082#64) (3 - 0) * headerSig 0 (.h4 6) ≤ 16 ∧
      0 + cfgBlock 0x51082#64 < (3#64).toNat ∧ (2#64).toNat ≤ 0 + cfgBlock 0x51082#64 ∧
      (boundary [0xF4, 0xFF] 0x51082#64 3#64).limit.toNat = 16 ∧
      (boundary [] 0x51082#64 3#64).valueOut.length + min (cfgBlock 0x51082#64) (3 - 0) ≤ State.reset.par.voutDepth := by
  refine ⟨inv_of_check (by decide +kernel) ?_, rfl, by decide, by decide, by decide, by decide, by decide, by decide⟩
  intro f hf
  have hf : some (InFlight.decode false 0 [] 0#64) = some f := hf
  cases hf
  simp only [inflightSound, codecLegal, destinationLegal]
  decide +kernel
/-- No header below a LIMIT of 0; a header of 6 bits above a LIMIT of 5 (vector D-TR-4), s = 65 (D-WIDTH), a body above LIMIT (D-TR-5). -/
theorem witness_CorruptBlockIsAbandoned :
    (boundary [0x0E] 0x34001#64 1#64).inflight = some (.decode false 0 [] 0#64) ∧ 8 ≤ capOf State.reset ∧
      (boundary [] 0x34001#64 1#64).inflight = some (.decode false 0 [] 0#64) ∧
      fetchHeader (boundary [] 0x34001#64 1#64) = none ∧ (boundary [] 0x34001#64 1#64).host = [] ∧
      5 < 0 + headerLen (.h6 0) ∧ (0 + headerLen (.h12 55) ≤ 16 ∧ 64 < headerSig 0 (.h12 55)) ∧
      (0 + headerLen (.h12 54) ≤ 16 ∧ headerSig 0 (.h12 54) ≤ 64 ∧
        16 < 0 + headerLen (.h12 54) + min (cfgBlock 0x34001#64) (1 - 0) * headerSig 0 (.h12 54)) := by decide +kernel
/-- A header above LIMIT after five whole blocks; s = 65 in the first block; a body above LIMIT in the first block. -/
theorem witness_DecodeErrorPartialEffects :
    (Inv { decoding with nvalues := 6#64 } ∧ codecLegal decoding.cfg ∧ destinationLegal decoding.cfg ∧
      [3#64, 4#64, 2#64, 1#64, 0#64].length % cfgBlock decoding.cfg = 0 ∧
      [3#64, 4#64, 2#64, 1#64, 0#64].length < (6#64).toNat ∧ wordsLegal decoding.cfg [3#64, 4#64, 2#64, 1#64, 0#64] ∧
      holdsStream decoding.buf (ceil8 decoding.pos.toNat) (streamFrame decoding.cfg [3#64, 4#64, 2#64, 1#64, 0#64]) ∧
      36 = ceil8 decoding.pos.toNat + (streamFrame decoding.cfg [3#64, 4#64, 2#64, 1#64, 0#64]).length ∧
      36 ≤ decoding.limit.toNat ∧
      decoding.valueOut.length + [3#64, 4#64, 2#64, 1#64, 0#64].length ≤ decoding.par.voutDepth ∧
      headerAt decoding 36 = none) ∧
    (Inv { st [0xFE, 0x0D] 0 with cfg := 0x34001#64, nvalues := 1#64, limit := 16#64 } ∧ codecLegal 0x34001#64 ∧
      destinationLegal 0x34001#64 ∧ ([] : List Word).length < (1#64).toNat ∧ 0 = (streamFrame 0x34001#64 []).length ∧
      headerAt { st [0xFE, 0x0D] 0 with limit := 16#64 } 0 = some (.h12 55) ∧
      64 < headerSig (frameSig 0x34001#64 []) (.h12 55)) ∧
    headerAt { st [0x3E, 0x00] 0 with limit := 12#64 } 0 = some (.h12 0) ∧
      headerSig (frameSig 0x34001#64 []) (.h12 0) ≤ 64 ∧
      12 < 0 + headerLen (.h12 0) + min (cfgBlock 0x34001#64) (1 - 0) * headerSig (frameSig 0x34001#64 []) (.h12 0) :=
  ⟨⟨inv_of_idle (by decide +kernel), by unfold codecLegal; decide +kernel, by unfold destinationLegal; decide +kernel,
    by decide +kernel, by decide +kernel, by rw [wordsLegal_iff]; decide +kernel, by unfold holdsStream; decide +kernel,
    by decide +kernel, by decide +kernel, by decide +kernel, by decide +kernel⟩,
    ⟨inv_of_idle (by decide +kernel), by unfold codecLegal; decide +kernel, by unfold destinationLegal; decide +kernel,
      by decide +kernel, by decide +kernel, by decide +kernel, by decide +kernel⟩,
    by decide +kernel, by decide +kernel, by decide +kernel⟩

/-- `decoding` with an output FIFO of one word: it waits with a word of the next block in hand. -/
def crowded : State := { decoding with par := { Params.vectors with voutDepth := 1 } }

theorem witness_DecodeWaitingChangesNoValue :
    Inv crowded ∧ ∃ t, exec (.decodeFrame false) crowded = .next t ∧
      t.inflight = some (.decode false 2 [4#64] 14#64) ∧ 1 ≤ t.valueOut.length :=
  ⟨inv_of_idle (by decide +kernel), _, next_after (by decide +kernel), by decide +kernel, by decide +kernel⟩
/-- Two buffers that differ above LIMIT only, from the start of DECODE_FRAME and at a block boundary. -/
theorem witness_DecodeReadsOnlyBelowLimit :
    (∀ q, q < 24 → memBit (mem [0xF4, 0xFF, 0x0F, 0xAA]) q = memBit (mem [0xF4, 0xFF, 0x0F, 0x55]) q) ∧
      (∃ t, exec (.decodeFrame false)
        { st [0xF4, 0xFF, 0x0F, 0x55] 0 with cfg := 0x51088#64, nvalues := 8#64, limit := 24#64 } = .next t) ∧
      ∃ t, step { boundary [0xF4, 0xFF, 0x0F, 0x55] 0x51088#64 8#64 with limit := 24#64 } = .next t :=
  ⟨by decide +kernel, ⟨_, next_after (by decide +kernel)⟩, _, next_after (by decide +kernel)⟩

/-- Three octets, the last of four bits only. -/
def payload : State := st [0xF4, 0xFF, 0x0F] 20

theorem witness_SerializePushesPayload :
    Inv payload ∧ payload.octetOut.length + (payload.pos.toNat + 7) / 8 ≤ payload.par.ooutDepth :=
  ⟨inv_of_idle (by decide +kernel), by decide +kernel⟩
theorem witness_LoadTakesPayload :
    Inv { st [] 0 with cnt := 2#64, octetIn := [1#8, 2#8, 3#8] } ∧ 8 * (2#64).toNat ≤ capOf (st [] 0) ∧
      (2#64).toNat ≤ [1#8, 2#8, 3#8].length :=
  ⟨inv_of_idle (by decide +kernel), by decide +kernel, by decide +kernel⟩

/-- A sender with W = 32 and a receiver with W = 8 and three words of buffer. -/
def sent : State := after (exec .serialize payload)
def receiver : State :=
  { State.reset with
    par := { Params.vectors with width := .w8, bufWords := 3 }, cnt := sent.result, octetIn := sent.octetOut }

theorem witness_SerializeThenLoad :
    Inv payload ∧ Inv receiver ∧ payload.octetOut = [] ∧ (payload.pos.toNat + 7) / 8 ≤ payload.par.ooutDepth ∧
      exec .serialize payload = .next sent ∧ receiver.octetIn = sent.octetOut ∧ receiver.cnt = sent.result ∧
      8 * receiver.cnt.toNat ≤ capOf receiver :=
  ⟨inv_of_idle (by decide +kernel), inv_of_idle (by decide +kernel), rfl, by decide +kernel, rfl, rfl, rfl,
    by decide +kernel⟩
theorem witness_OctetViewIsWordView : 0 < 8 := by decide +kernel

/-- While busy, the last register, CMD, and offsets that are no register's; while idle, each offset of the clauses, the last
one's a read-only register's. -/
theorem witness_HostRegisterWrites :
    (({ issued 0x09#64 with host := [.write 0x68 1#64] } : State).inflight ≠ none ∧
      ({ issued 0x09#64 with host := [.write 0x68 1#64] } : State).host = .write 0x68 1#64 :: [] ∧
      (0x68 % 8 = 0 ∧ 0x68 ≤ 0x68) ∧ (0x00 % 8 = 0 ∧ 0x00 ≤ 0x68) ∧ ¬(0x70 % 8 = 0 ∧ 0x70 ≤ 0x68) ∧
      ¬(0x64 % 8 = 0 ∧ 0x64 ≤ 0x68)) ∧
    ∀ off ∈ [0x10, 0x18, 0x40, 0x30, 0x38, 0x28],
      ({ State.reset with host := [.write off 0xFFFFFFFFFFFFFFFF#64] } : State).inflight = none ∧
        ({ State.reset with host := [.write off 0xFFFFFFFFFFFFFFFF#64] } : State).host =
          .write off 0xFFFFFFFFFFFFFFFF#64 :: [] := by decide +kernel
/-- While idle, the last register, and the first and last reserved offset; while busy, STATUS. -/
theorem witness_HostRegisterReads :
    (∀ off ∈ [0x68, 0x70, 0xFF], ({ State.reset with host := [.read off] } : State).inflight = none ∧
      ({ State.reset with host := [.read off] } : State).host = .read off :: []) ∧
    ({ issued 0x09#64 with host := [.read 0x08] } : State).host = .read 0x08 :: [] := by decide +kernel
/-- One state for each of the four ports. -/
theorem witness_PortsAreFifos :
    (({ State.reset with host := [.pushValue 7#64] } : State).host = .pushValue 7#64 :: [] ∧
        State.reset.valueIn.length < State.reset.par.vinDepth) ∧
      (({ State.reset with host := [.pushOctet 7#8] } : State).host = .pushOctet 7#8 :: [] ∧
        State.reset.octetIn.length < State.reset.par.oinDepth) ∧
      (({ State.reset with host := [.popValue], valueOut := [7#64, 8#64] } : State).host = .popValue :: [] ∧
        ({ State.reset with host := [.popValue], valueOut := [7#64, 8#64] } : State).valueOut = 7#64 :: [8#64]) ∧
      (({ State.reset with host := [.popOctet], octetOut := [7#8] } : State).host = .popOctet :: [] ∧
        ({ State.reset with host := [.popOctet], octetOut := [7#8] } : State).octetOut = 7#8 :: []) := by decide +kernel
theorem witness_ResetInputResetsEverything : ({ issued 0x09#64 with host := [.reset] } : State).host = .reset :: [] := by
  decide +kernel
theorem witness_StepKeepsSound : Inv encoding ∧ ∃ t, step encoding = .next t :=
  ⟨inv_of_idle (by decide +kernel), _, next_after (by decide +kernel)⟩
theorem witness_SoundStepNeverStops : Inv (boundary [0xF4, 0xFF, 0x0F] 0x51088#64 8#64) := by
  refine inv_of_check (by decide +kernel) ?_
  intro f hf
  have hf : some (InFlight.decode false 0 [] 0#64) = some f := hf
  cases hf
  simp only [inflightSound, codecLegal, destinationLegal]
  decide +kernel
theorem witness_CommandsLeaveHostRegisters : ∃ t, exec .encodeFrame encoding = .next t := ⟨_, next_after (by decide +kernel)⟩
theorem witness_OnlyNamedCommandsWrite :
    ∃ t, exec .encodeFrame encoding = .next t ∧ t.buf ≠ encoding.buf ∧ t.pos ≠ encoding.pos ∧ t.result ≠ encoding.result ∧
      t.valueIn ≠ encoding.valueIn :=
  ⟨_, next_after (by decide +kernel), by decide +kernel, by decide +kernel, by decide +kernel, by decide +kernel⟩
theorem witness_ErrorsAreRecordedOnce :
    ∃ t, exec .encodeFrame badBlock = .next t ∧ t.err ≠ 0#4 ∧ Instr.encodeFrame ≠ .clrerr :=
  ⟨_, next_after (by decide +kernel), by decide +kernel, by decide +kernel⟩
theorem witness_HeaderOutsideDecodeIsRefused :
    ∀ d ix start, State.reset.inflight ≠ some (.decode d ix [] start) := fun _ _ _ h => by cases h

end Sys2Proof.Tests
end

section
/-! PROOFS. The state after reset (R44). -/

namespace Sys2Proof.Machine

/-- An idle engine with OVR clear and no error recorded reads STATUS = 0 (R22). -/
theorem statusWord_of_idle_clear {s : State} (hidle : s.inflight = none) (hovr : s.ovr = false) (herr : s.err = 0#4)
    (hsub : s.errSub = 0#4) (hop : s.errOp = 0#8) : statusWord s = 0#64 := by
  have hbusy : busy s = false := by simp [busy, hidle]
  simp [statusWord, hbusy, hovr, herr, hsub, hop]

/-- A bit in an octet no command has written any bit of reads as BUF_INIT's (R39). -/
theorem memBit_of_octet_unwritten {m : Memory} {q : Nat} (h : m.writtenAt (q / 8) = 0#8) :
    memBit m q = Config.bufInit m.era q := by
  simp [memBit, h]

/-- Where no command has written BUF at all, all of it is BUF_INIT (R39, R160). -/
theorem memBit_of_written_nil {m : Memory} (h : m.written = []) (q : Nat) : memBit m q = Config.bufInit m.era q := by
  have hoctet : m.writtenAt (q / 8) = 0#8 := by rw [Memory.writtenAt, h, cellGet]
  exact memBit_of_octet_unwritten hoctet

theorem statusWord_reset : statusWord State.reset = 0#64 := statusWord_of_idle_clear rfl rfl rfl rfl rfl

/-- CFG's reset value field by field, as R44 lists them: 16-bit unsigned values in blocks of 12, delivered to an unsigned
64-bit destination without clamping. -/
theorem cfg_fields_reset :
    cfgBlock State.reset.cfg = 12 ∧ cfgSigned State.reset.cfg = false ∧ cfgPb State.reset.cfg = 16 ∧
      cfgDwc State.reset.cfg = 3 ∧ cfgDsigned State.reset.cfg = false ∧ cfgClampEn State.reset.cfg = false := by
  decide

/-- Settles O53: STATUS and BUF by the rules for an idle, unwritten engine, CFG field by field, and each remaining
register and FIFO as `State.reset` defines it. -/
theorem resetStateValues : Obligations.ResetStateValues := by
  unfold Obligations.ResetStateValues
  obtain ⟨hblock, hsigned, hpb, hdwc, hdsigned, hclamp⟩ := cfg_fields_reset
  have hbuf : ∀ q, memBit State.reset.buf q = Config.bufInit State.reset.buf.era q := memBit_of_written_nil rfl
  exact ⟨statusWord_reset, rfl, rfl, rfl, rfl, rfl, rfl, rfl, rfl, rfl, rfl, hblock, hsigned, hpb, hdwc, hdsigned,
    hclamp, rfl, rfl, rfl, rfl, rfl, hbuf⟩

end Sys2Proof.Machine
end

section
/-! PROOFS. Which command words are rejected, for which reason, and that a rejected word only raises ILLEGAL (R71, R72,
R76 to R78, R143). -/

namespace Sys2Proof.Machine

/-! ## The opcode map and the fields each opcode uses -/

/-- The opcodes R72 reserves. -/
def opReserved (op : Nat) : Prop :=
  (0x0B ≤ op ∧ op ≤ 0x0F) ∨ (0x12 ≤ op ∧ op ≤ 0x17) ∨ (0x1A ≤ op ∧ op ≤ 0x1D) ∨ 0x20 ≤ op

/-- READ, WRITE, APPEND and EXTRACT: the opcodes that use field N (R71, R73). -/
def opUsesN (op : Nat) : Bool := decide (op = 0x06 ∨ op = 0x07 ∨ op = 0x09 ∨ op = 0x0A)

/-- READ and EXTRACT: the opcodes that use field S (R71, R74). -/
def opUsesS (op : Nat) : Bool := decide (op = 0x06 ∨ op = 0x0A)

/-- DECODE_FRAME: the opcode that uses field D (R71, R75). -/
def opUsesD (op : Nat) : Bool := decide (op = 0x11)

/-- The command word with every bit of OP and of the given fields set. -/
def fieldMask (useN useS useD : Bool) : Word :=
  packFields (BitVec.allOnes 8) (if useN then BitVec.allOnes 7 else 0#7) useS useD

theorem instrOfOp_eq_none_iff (op : Nat) (n : BitVec 7) (sg d : Bool) :
    instrOfOp op n sg d = none ↔ opReserved op := by
  unfold instrOfOp opReserved
  split
  case h_18 => simp only [imp_false, true_iff] at *; omega
  all_goals simp

/-- The bits an instruction's command uses are those of OP and of the fields R71 gives its opcode. -/
theorem usedBits_of_instrOfOp {op : Nat} {n : BitVec 7} {sg d : Bool} {i : Instr}
    (h : instrOfOp op n sg d = some i) : usedBits i = fieldMask (opUsesN op) (opUsesS op) (opUsesD op) := by
  unfold instrOfOp at h
  split at h
  case h_18 => cases h
  all_goals cases h; rfl

/-- An instruction of the opcode map is ill-formed exactly when its command takes a width and the width is 0 or above
64 (R78). -/
theorem wellFormed_of_instrOfOp {op : Nat} {n : BitVec 7} {sg d : Bool} {i : Instr}
    (h : instrOfOp op n sg d = some i) :
    i.wellFormed = false ↔ opUsesN op = true ∧ (n.toNat = 0 ∨ 64 < n.toNat) := by
  have hwidth : widthLegal n = false ↔ n.toNat = 0 ∨ 64 < n.toNat := by
    simp only [widthLegal, Bool.and_eq_false_iff, decide_eq_false_iff_not]; omega
  unfold instrOfOp at h
  split at h
  case h_18 => cases h
  all_goals cases h; simp [Instr.wellFormed, opUsesN, hwidth]

/-! ## Fields of a command word, bit by bit -/

theorem ne_zero_iff_exists_getLsbD {k : Nat} (x : BitVec k) : x ≠ 0#k ↔ ∃ j, x.getLsbD j = true := by
  constructor
  · intro hx
    by_contra hnone
    refine hx (BitVec.eq_of_getLsbD_eq fun j _ => ?_)
    simpa using fun hj => hnone ⟨j, hj⟩
  · rintro ⟨j, hj⟩ rfl
    simp at hj

theorem nField_ne_zero_iff (w : Word) : nField w ≠ 0#7 ↔ ∃ j, (8 ≤ j ∧ j < 15) ∧ w.getLsbD j = true := by
  simp only [ne_zero_iff_exists_getLsbD, nField, BitVec.getLsbD_extractLsb', Bool.and_eq_true, decide_eq_true_eq]
  constructor
  · rintro ⟨j, hj, hbit⟩
    exact ⟨8 + j, by omega, hbit⟩
  · rintro ⟨j, hj, hbit⟩
    exact ⟨j - 8, by omega, by rwa [Nat.add_sub_cancel' hj.1]⟩

theorem getLsbD_fieldMask (useN useS useD : Bool) (j : Nat) :
    (fieldMask useN useS useD).getLsbD j = true ↔
      j < 8 ∨ (useN = true ∧ 8 ≤ j ∧ j < 15) ∨ (useS = true ∧ j = 15) ∨ (useD = true ∧ j = 16) := by
  have hn : (if useN then BitVec.allOnes 7 else 0#7).getLsbD (j - 8) = (useN && decide (j - 8 < 7)) := by
    cases useN with
    | false => simp
    | true => exact BitVec.getLsbD_allOnes
  simp only [fieldMask, packFields, BitVec.getLsbD_or, BitVec.getLsbD_shiftLeft, BitVec.getLsbD_setWidth,
    BitVec.getLsbD_ofBool, BitVec.getLsbD_allOnes, hn]
  grind

/-- A bit set outside OP and the given fields is one of bits [63:17], or of a field D, S or N that is not among them. -/
theorem and_not_fieldMask_ne_zero_iff (w : Word) (useN useS useD : Bool) :
    w &&& ~~~fieldMask useN useS useD ≠ 0#64 ↔
      (∃ j, 17 ≤ j ∧ w.getLsbD j = true) ∨ (dField w = true ∧ useD = false) ∨ (sField w = true ∧ useS = false) ∨
        (nField w ≠ 0#7 ∧ useN = false) := by
  have hbit : ∀ j, (w &&& ~~~fieldMask useN useS useD).getLsbD j = true ↔
      w.getLsbD j = true ∧ ¬(fieldMask useN useS useD).getLsbD j = true := by
    intro j
    have hlt : w.getLsbD j = true → j < 64 := BitVec.lt_of_getLsbD
    simp only [BitVec.getLsbD_and, BitVec.getLsbD_not, Bool.and_eq_true, decide_eq_true_eq, Bool.not_eq_true',
      Bool.not_eq_true]
    tauto
  simp only [ne_zero_iff_exists_getLsbD (w &&& _), hbit, getLsbD_fieldMask, nField_ne_zero_iff, dField, sField]
  constructor
  · rintro ⟨j, hj, hout⟩
    rcases (by omega : j < 8 ∨ (8 ≤ j ∧ j < 15) ∨ j = 15 ∨ j = 16 ∨ 17 ≤ j) with hop | hn | rfl | rfl | hhigh
    · exact absurd (.inl hop) hout
    · exact .inr (.inr (.inr ⟨⟨j, hn, hj⟩, by simpa using fun h => hout (.inr (.inl ⟨h, hn⟩))⟩))
    · exact .inr (.inr (.inl ⟨hj, by simpa using hout⟩))
    · exact .inr (.inl ⟨hj, by simpa using hout⟩)
    · exact .inl ⟨j, hhigh, hj⟩
  · rintro (⟨j, hhigh, hj⟩ | ⟨hj, rfl⟩ | ⟨hj, rfl⟩ | ⟨⟨j, hn, hj⟩, rfl⟩)
    · exact ⟨j, hj, by omega⟩
    · exact ⟨16, hj, by simp⟩
    · exact ⟨15, hj, by simp⟩
    · exact ⟨j, hj, by simp; omega⟩

/-! ## The three checks of a command word (R143) -/

theorem decodeCommand_eq_opcode_iff (w : Word) :
    decodeCommand w = .error .opcode ↔ opReserved (opField w).toNat := by
  rw [← instrOfOp_eq_none_iff _ (nField w) (sField w) (dField w)]
  unfold decodeCommand
  split
  next hop => simp [hop]
  next i hop =>
    simp only [hop, reduceCtorEq, iff_false]
    split_ifs <;> simp

/-- A word that passes the opcode check stands for an instruction of the opcode map, whose reserved bits and then width
decide. -/
theorem decodeCommand_of_not_opcode {w : Word} (h : decodeCommand w ≠ .error .opcode) :
    ∃ i, instrOfOp (opField w).toNat (nField w) (sField w) (dField w) = some i ∧
      decodeCommand w =
        if w &&& ~~~usedBits i ≠ 0#64 then .error .reserved
        else if i.wellFormed = false then .error .width
        else .ok i := by
  unfold decodeCommand at h ⊢
  cases hop : instrOfOp (opField w).toNat (nField w) (sField w) (dField w) with
  | none => simp [hop] at h
  | some i => exact ⟨i, rfl, rfl⟩

theorem decodeCommand_eq_reserved_iff {w : Word} (h : decodeCommand w ≠ .error .opcode) :
    decodeCommand w = .error .reserved ↔
      w &&& ~~~fieldMask (opUsesN (opField w).toNat) (opUsesS (opField w).toNat) (opUsesD (opField w).toNat) ≠ 0#64 := by
  obtain ⟨i, hop, hdec⟩ := decodeCommand_of_not_opcode h
  rw [hdec, ← usedBits_of_instrOfOp hop]
  split_ifs <;> simp_all

theorem decodeCommand_eq_width_iff {w : Word} (h : decodeCommand w ≠ .error .opcode)
    (hres : decodeCommand w ≠ .error .reserved) :
    decodeCommand w = .error .width ↔
      opUsesN (opField w).toNat = true ∧ ((nField w).toNat = 0 ∨ 64 < (nField w).toNat) := by
  obtain ⟨i, hop, hdec⟩ := decodeCommand_of_not_opcode h
  rw [← wellFormed_of_instrOfOp hop]
  rw [hdec] at hres ⊢
  split_ifs at hres ⊢ <;> simp_all

/-! ## What a rejected command word does -/

/-- A rejected command word raises its cause with its bits [7:0] as ERR_OP, and nothing else changes (R76 to R78). -/
theorem illegalCommand_raisedOnly (w : Word) (r : Reject) (s : State) :
    raisedOnly (w.extractLsb' 0 8) (errCode (rejectCause r)) (errSubCode (rejectCause r)) s (illegalCommand w r s) :=
  rfl

theorem step_of_rejected {s : State} {w : Word} {r : Reject} (hdec : decodeCommand w = .error r)
    (hissued : s.inflight = some (.issued w)) (hhost : s.host = []) : step s = .next (illegalCommand w r s) := by
  rw [step_of_hostWaits (hostWaits_of_nil hhost)]
  simp only [engineTurn, hissued, hdec]

/-- Settles O1: a word fails the opcode check exactly where the opcode map has no row. -/
theorem reservedOpcodesRaiseIllegal : Obligations.ReservedOpcodesRaiseIllegal := by
  unfold Obligations.ReservedOpcodesRaiseIllegal
  exact fun w => ⟨decodeCommand_eq_opcode_iff w, fun s hdec hissued hhost =>
    ⟨_, step_of_rejected hdec hissued hhost, illegalCommand_raisedOnly w .opcode s⟩⟩

/-- Settles O2: the bits a command does not use are [63:17] and the fields R71 reserves for its opcode. -/
theorem reservedFieldsRaiseIllegal : Obligations.ReservedFieldsRaiseIllegal := by
  unfold Obligations.ReservedFieldsRaiseIllegal
  intro w hop
  refine ⟨?_, fun s hdec hissued hhost =>
    ⟨_, step_of_rejected hdec hissued hhost, illegalCommand_raisedOnly w .reserved s⟩⟩
  rw [decodeCommand_eq_reserved_iff hop, and_not_fieldMask_ne_zero_iff]
  simp [opUsesN, opUsesS, opUsesD, ← BitVec.toNat_inj]

/-- Settles O3: of the words that pass the first two checks, the third rejects those whose command takes a width and
whose N is no width. -/
theorem illegalWidthsRaiseIllegal : Obligations.IllegalWidthsRaiseIllegal := by
  unfold Obligations.IllegalWidthsRaiseIllegal
  intro w hop hres
  refine ⟨?_, fun s hdec hissued hhost =>
    ⟨_, step_of_rejected hdec hissued hhost, illegalCommand_raisedOnly w .width s⟩⟩
  rw [decodeCommand_eq_width_iff hop hres]
  simp [opUsesN, ← BitVec.toNat_inj]

end Sys2Proof.Machine
end

section
/-! PROOFS. The cursor commands and single fields: SETPOS, ADVANCE, GETPOS, READBIT, WRITEBIT, READ, WRITE, ALIGN
(R91 to R98). -/

namespace Sys2Proof.Machine

/-! ## Command words of fields N and S -/

theorem widthLegal_iff (n : BitVec 7) : widthLegal n = true ↔ 1 ≤ n.toNat ∧ n.toNat ≤ 64 := by
  simp [widthLegal]

/-- The command word of an opcode with fields N and S, every other bit 0 (R70). -/
def fieldsWord (op : BitVec 8) (n : BitVec 7) (sg : Bool) : Word :=
  BitVec.ofNat 64 (op.toNat + n.toNat * 2 ^ 8 + sg.toNat * 0x8000)

theorem toNat_fieldsWord (op : BitVec 8) (n : BitVec 7) (sg : Bool) :
    (fieldsWord op n sg).toNat = op.toNat + n.toNat * 2 ^ 8 + sg.toNat * 0x8000 :=
  toNat_ofNat_lt (by have := sg.toNat_le; omega)

theorem opField_fieldsWord (op : BitVec 8) (n : BitVec 7) (sg : Bool) : opField (fieldsWord op n sg) = op := by
  apply BitVec.eq_of_toNat_eq
  rw [opField, BitVec.extractLsb'_toNat, toNat_fieldsWord, Nat.shiftRight_eq_div_pow]
  omega

theorem nField_fieldsWord (op : BitVec 8) (n : BitVec 7) (sg : Bool) : nField (fieldsWord op n sg) = n := by
  apply BitVec.eq_of_toNat_eq
  rw [nField, BitVec.extractLsb'_toNat, toNat_fieldsWord, Nat.shiftRight_eq_div_pow]
  omega

theorem sField_fieldsWord (op : BitVec 8) (n : BitVec 7) (sg : Bool) : sField (fieldsWord op n sg) = sg := by
  rw [sField, BitVec.getLsbD, toNat_fieldsWord, Nat.testBit_eq_decide_div_mod_eq]
  cases sg with
  | false => exact decide_eq_false (by rw [Bool.toNat_false]; omega)
  | true => exact decide_eq_true (by rw [Bool.toNat_true]; omega)

theorem getLsbD_fieldsWord_of_ge (op : BitVec 8) (n : BitVec 7) (sg : Bool) {j : Nat} (hj : 16 ≤ j) :
    (fieldsWord op n sg).getLsbD j = false := by
  have hlt : (fieldsWord op n sg).toNat < 2 ^ 16 := by
    rw [toNat_fieldsWord]; have := sg.toNat_le; omega
  exact Nat.testBit_lt_two_pow (Nat.lt_of_lt_of_le hlt (Nat.pow_le_pow_right (by decide) hj))

/-- A word of an opcode that uses N, and uses S if S is set, has no reserved bit set: only its width can be illegal
(R76, R78). -/
theorem decodeCommand_fieldsWord {op : BitVec 8} {n : BitVec 7} {sg : Bool} {i : Instr}
    (hi : instrOfOp op.toNat n sg false = some i) (hN : opUsesN op.toNat = true)
    (hS : sg = true → opUsesS op.toNat = true) :
    decodeCommand (fieldsWord op n sg) = if i.wellFormed = true then .ok i else .error .width := by
  have hD : dField (fieldsWord op n sg) = false := getLsbD_fieldsWord_of_ge op n sg (by decide)
  have hused : fieldsWord op n sg &&& ~~~usedBits i = 0#64 := by
    rw [usedBits_of_instrOfOp hi]
    by_contra hne
    rcases (and_not_fieldMask_ne_zero_iff _ _ _ _).1 hne with ⟨j, hj, hbit⟩ | ⟨hd, _⟩ | ⟨hs, hnoS⟩ | ⟨_, hnoN⟩
    · simp [getLsbD_fieldsWord_of_ge op n sg (by omega : 16 ≤ j)] at hbit
    · simp [hD] at hd
    · rw [sField_fieldsWord] at hs
      simp [hS hs] at hnoS
    · simp [hN] at hnoN
  simp only [decodeCommand, opField_fieldsWord, nField_fieldsWord, sField_fieldsWord, hD, hi, hused]
  cases i.wellFormed <;> simp

theorem decodeCommand_read (n : BitVec 7) (sg : Bool) :
    decodeCommand (fieldsWord 0x06#8 n sg) =
      if 1 ≤ n.toNat ∧ n.toNat ≤ 64 then .ok (.read n sg) else .error .width := by
  rw [decodeCommand_fieldsWord (i := .read n sg) rfl (by decide) fun _ => by decide]
  simp only [Instr.wellFormed, widthLegal_iff]

theorem decodeCommand_write (n : BitVec 7) :
    decodeCommand (fieldsWord 0x07#8 n false) =
      if 1 ≤ n.toNat ∧ n.toNat ≤ 64 then .ok (.write n) else .error .width := by
  rw [decodeCommand_fieldsWord (i := .write n) rfl (by decide) (by simp)]
  simp only [Instr.wellFormed, widthLegal_iff]

/-! ## Bits of a field -/

/-- `zext_64` and `sext_64` bit by bit: the field's own bits, above them zeros or copies of its top bit (R11). -/
theorem getLsbD_fieldWord (sg : Bool) {n f i : Nat} (hn : 1 ≤ n) (hi : i < 64) :
    (fieldWord sg n f).getLsbD i = if i < n then f.testBit i else (sg && f.testBit (n - 1)) := by
  cases sg with
  | false =>
    rw [fieldWord, if_neg Bool.false_ne_true, BitVec.zeroExtend, BitVec.getLsbD_setWidth, BitVec.getLsbD_ofNat]
    by_cases h : i < n <;> simp [hi, h]
  | true =>
    rw [fieldWord, if_pos rfl, BitVec.getLsbD_signExtend, BitVec.msb_eq_getLsbD_last,
      BitVec.getLsbD_ofNat, BitVec.getLsbD_ofNat]
    by_cases h : i < n <;> simp [hi, h, Nat.sub_one_lt_of_lt hn]

/-- The word of a field read from BUF, bit by bit (R52, R96). -/
theorem getLsbD_fieldWord_memRead (sg : Bool) (m : Memory) (p : Nat) {n i : Nat} (hn : 1 ≤ n) (hi : i < 64) :
    (fieldWord sg n (memRead m p n)).getLsbD i =
      if i < n then memBit m (p + i) else (sg && memBit m (p + n - 1)) := by
  have htop : (memRead m p n).testBit (n - 1) = memBit m (p + n - 1) := by
    rw [testBit_memRead, Nat.add_sub_assoc hn, decide_eq_true (by omega : n - 1 < n), Bool.true_and]
  rw [getLsbD_fieldWord sg hn hi, htop]
  by_cases h : i < n
  · simp [h, testBit_memRead]
  · simp [h]

theorem fieldWord_memRead_one (m : Memory) (p : Nat) :
    fieldWord false 1 (memRead m p 1) = if memBit m p then 1#64 else 0#64 := by
  cases hb : memBit m p <;> simp [memRead, hb, fieldWord]

/-- Bit `i` of a field written is bit `i` of the word it was written from (R52, R97). -/
theorem memBit_memWrite_field {m : Memory} (hwf : m.wf = true) (p : Nat) {n i : Nat} (hi : i < n) (x : Word) :
    memBit (memWrite m p n x.toNat) (p + i) = x.getLsbD i := by
  rw [memBit_memWrite n p _ _ hwf, if_pos (by omega), Nat.add_sub_cancel_left]
  rfl

/-- No bit outside a field is changed by writing it (R59). -/
theorem memBit_memWrite_outside {m : Memory} (hwf : m.wf = true) (p n v : Nat) {q : Nat} (hq : q < p ∨ p + n ≤ q) :
    memBit (memWrite m p n v) q = memBit m q := by
  rw [memBit_memWrite n p v q hwf, if_neg (by omega)]

/-! ## The cursor, errors and unchanged bits -/

/-- A bit index up to CAP fits a register, so a cursor move there does not wrap (R6, R56). -/
theorem lt_two_pow_64_of_le_cap {s : State} (hs : Inv s) {p : Nat} (h : p ≤ capOf s) : p < 2 ^ 64 := by
  have hcap : capOf s < 2 ^ 63 := cap_lt hs.params
  omega

theorem toNat_ofInt_of_bounds {q : Int} (h0 : 0 ≤ q) (h1 : q < 2 ^ 64) : ((BitVec.ofInt 64 q).toNat : Int) = q := by
  rw [BitVec.toNat_ofInt]
  omega

/-- BOUNDS is error 3 with sub-cause 0, and raising it changes nothing else (R138, R139). -/
theorem raise_bounds_raisedOnly (op : BitVec 8) (s : State) : raisedOnly op 3#4 0#4 s (raise op .bounds s) := rfl

theorem sameBits_of_buf_eq {s t : State} (h : t.buf = s.buf) : sameBits s t := fun q => by rw [h]

/-! ## What each command answers -/

theorem exec_setpos_of_le {s : State} (h : s.arg.toNat ≤ capOf s) :
    exec .setpos s = .next (retire { s with pos := s.arg }) := if_neg (Nat.not_lt.2 h)

theorem exec_setpos_of_gt {s : State} (h : capOf s < s.arg.toNat) :
    exec .setpos s = .next (raise 0x01#8 .bounds s) := if_pos h

theorem exec_advance_of_mem {s : State}
    (h : 0 ≤ (s.pos.toNat : Int) + s.arg.toInt ∧ (s.pos.toNat : Int) + s.arg.toInt ≤ capOf s) :
    exec .advance s = .next (retire { s with pos := BitVec.ofInt 64 (s.pos.toNat + s.arg.toInt) }) :=
  if_neg (by omega)

theorem exec_advance_of_not_mem {s : State}
    (h : ¬(0 ≤ (s.pos.toNat : Int) + s.arg.toInt ∧ (s.pos.toNat : Int) + s.arg.toInt ≤ capOf s)) :
    exec .advance s = .next (raise 0x02#8 .bounds s) := if_pos (by omega)

theorem exec_getpos (s : State) : exec .getpos s = .next (retire { s with result := s.pos }) := rfl

theorem exec_align (s : State) :
    exec .align s = .next (retire { s with pos := BitVec.ofNat 64 (ceil8 s.pos.toNat) }) := rfl

theorem exec_readbit_of_fits {s : State} (h : s.pos.toNat + 1 ≤ capOf s) :
    exec .readbit s = .next (retire { s with result := fieldWord false 1 (memRead s.buf s.pos.toNat 1) }) :=
  if_neg (Nat.not_lt.2 h)

theorem exec_readbit_of_misfit {s : State} (h : capOf s < s.pos.toNat + 1) :
    exec .readbit s = .next (raise 0x04#8 .bounds s) := if_pos h

theorem exec_writebit_of_fits {s : State} (h : s.pos.toNat + 1 ≤ capOf s) :
    exec .writebit s = .next (retire { s with buf := memWrite s.buf s.pos.toNat 1 s.arg.toNat }) :=
  if_neg (Nat.not_lt.2 h)

theorem exec_writebit_of_misfit {s : State} (h : capOf s < s.pos.toNat + 1) :
    exec .writebit s = .next (raise 0x05#8 .bounds s) := if_pos h

theorem exec_read_of_fits {s : State} {n : BitVec 7} (sg : Bool) (hn : widthLegal n = true)
    (h : s.pos.toNat + n.toNat ≤ capOf s) :
    exec (.read n sg) s = .next (retire { s with
      result := fieldWord sg n.toNat (memRead s.buf s.pos.toNat n.toNat)
      pos := BitVec.ofNat 64 (s.pos.toNat + n.toNat) }) := by
  simp [exec, execRead, hn, Nat.not_lt.2 h]

theorem exec_read_of_misfit {s : State} {n : BitVec 7} (sg : Bool) (hn : widthLegal n = true)
    (h : capOf s < s.pos.toNat + n.toNat) : exec (.read n sg) s = .next (raise 0x06#8 .bounds s) := by
  simp [exec, execRead, hn, h]

theorem exec_write_of_fits {s : State} {n : BitVec 7} (hn : widthLegal n = true)
    (h : s.pos.toNat + n.toNat ≤ capOf s) :
    exec (.write n) s = .next (retire { s with
      buf := memWrite s.buf s.pos.toNat n.toNat s.arg.toNat
      pos := BitVec.ofNat 64 (s.pos.toNat + n.toNat) }) := by
  simp [exec, execWrite, hn, Nat.not_lt.2 h]

theorem exec_write_of_misfit {s : State} {n : BitVec 7} (hn : widthLegal n = true)
    (h : capOf s < s.pos.toNat + n.toNat) : exec (.write n) s = .next (raise 0x07#8 .bounds s) := by
  simp [exec, execWrite, hn, h]

/-! ## Moving and reading the cursor -/

/-- Settles O16: the bound is checked against ARG itself, which is then POS. -/
theorem setposMovesOrRaises : Obligations.SetposMovesOrRaises := by
  unfold Obligations.SetposMovesOrRaises
  refine ⟨by decide, fun s => ⟨fun hle => ?_, fun hgt => ?_⟩⟩
  · exact ⟨_, exec_setpos_of_le hle, rfl, sameBits_of_buf_eq rfl⟩
  · exact ⟨_, exec_setpos_of_gt hgt, raise_bounds_raisedOnly _ s⟩

/-- Settles O17: a new position from 0 to CAP fits the register, so the integer sum is the register's value. -/
theorem advanceMovesOrRaises : Obligations.AdvanceMovesOrRaises := by
  unfold Obligations.AdvanceMovesOrRaises
  refine ⟨by decide, fun s hs => ⟨fun hin => ?_, fun hout => ?_⟩⟩
  · have hcap : capOf s < 2 ^ 64 := lt_two_pow_64_of_le_cap hs le_rfl
    exact ⟨_, exec_advance_of_mem hin, toNat_ofInt_of_bounds hin.1 (by omega), rfl, sameBits_of_buf_eq rfl⟩
  · exact ⟨_, exec_advance_of_not_mem hout, raise_bounds_raisedOnly _ s⟩

/-- Settles O18. -/
theorem getposCopiesCursor : Obligations.GetposCopiesCursor := by
  unfold Obligations.GetposCopiesCursor
  exact ⟨by decide, fun s => ⟨_, exec_getpos s, rfl, sameBits_of_buf_eq rfl⟩⟩

/-- Settles O19: CAP is a multiple of 8, so the next multiple of 8 above a cursor in BUF is in BUF. -/
theorem alignMovesToByteBoundary : Obligations.AlignMovesToByteBoundary := by
  unfold Obligations.AlignMovesToByteBoundary
  refine ⟨by decide, fun s hs => ⟨_, exec_align s, rfl, ?_⟩⟩
  have hle : ceil8 s.pos.toNat ≤ capOf s := ceil8_le_cap hs.pos
  rw [retire_pos, toNat_ofNat_lt (lt_two_pow_64_of_le_cap hs hle)]
  exact ⟨ceil8_mod _, le_ceil8 _, ceil8_lt _, hle, sameBits_of_buf_eq rfl⟩

/-! ## Single bits and fields -/

/-- Settles O20: a bit is a field of width 1. -/
theorem singleBitAccess : Obligations.SingleBitAccess := by
  unfold Obligations.SingleBitAccess
  refine ⟨by decide, by decide, fun s => ⟨fun hfits => ⟨?_, fun hwf => ?_⟩, fun hmisfit => ⟨?_, ?_⟩⟩⟩
  · exact ⟨_, exec_readbit_of_fits hfits, rfl, fieldWord_memRead_one _ _, sameBits_of_buf_eq rfl⟩
  · exact ⟨_, exec_writebit_of_fits hfits, rfl, memBit_memWrite_field hwf s.pos.toNat Nat.one_pos s.arg,
      fun q hq => memBit_memWrite_outside hwf _ _ _ hq⟩
  · exact ⟨_, exec_readbit_of_misfit hmisfit, raise_bounds_raisedOnly _ s⟩
  · exact ⟨_, exec_writebit_of_misfit hmisfit, raise_bounds_raisedOnly _ s⟩

/-- Settles O21: the word extends the field read, whose bits are BUF's from POS on. -/
theorem readReturnsField : Obligations.ReadReturnsField := by
  unfold Obligations.ReadReturnsField
  refine fun s n sg hs => ⟨decodeCommand_read n sg, fun h1 h64 hfits => ?_, fun h1 h64 hmisfit => ?_⟩
  · exact ⟨_, exec_read_of_fits sg ((widthLegal_iff n).2 ⟨h1, h64⟩) hfits, rfl,
      toNat_ofNat_add (lt_two_pow_64_of_le_cap hs hfits), fun i hi => getLsbD_fieldWord_memRead sg _ _ h1 hi,
      sameBits_of_buf_eq rfl⟩
  · exact ⟨_, exec_read_of_misfit sg ((widthLegal_iff n).2 ⟨h1, h64⟩) hmisfit, raise_bounds_raisedOnly _ s⟩

/-- Settles O22: the bits written are ARG's, and only those of the field. -/
theorem writeStoresField : Obligations.WriteStoresField := by
  unfold Obligations.WriteStoresField
  refine fun s n hs => ⟨decodeCommand_write n, fun h1 h64 hfits => ?_, fun h1 h64 hmisfit => ?_⟩
  · exact ⟨_, exec_write_of_fits ((widthLegal_iff n).2 ⟨h1, h64⟩) hfits, rfl,
      toNat_ofNat_add (lt_two_pow_64_of_le_cap hs hfits), fun i hi => memBit_memWrite_field hs.bufWf _ hi _,
      fun q hq => memBit_memWrite_outside hs.bufWf _ _ _ hq⟩
  · exact ⟨_, exec_write_of_misfit ((widthLegal_iff n).2 ⟨h1, h64⟩) hmisfit, raise_bounds_raisedOnly _ s⟩

end Sys2Proof.Machine
end

section
/-! PROOFS. The checks of DECODE_FRAME and the errors it can raise after them (R120, R123, R29, R143). -/

namespace Sys2Proof.Machine

/-! ## The checks, in order -/

/-- Raising an error records it, ends the command, and changes nothing else (R139). -/
theorem raise_raisedOnly (op : BitVec 8) (c : Cause) (s : State) :
    raisedOnly op (errCode c) (errSubCode c) s (raise op c s) := rfl

theorem exec_decodeFrame_of_block_illegal (d : Bool) {s : State}
    (hblock : ¬(1 ≤ cfgBlock s.cfg ∧ cfgBlock s.cfg ≤ 64)) :
    exec (.decodeFrame d) s = .next (raise 0x11#8 .configBlock s) := if_pos hblock

theorem exec_decodeFrame_of_pb_illegal (d : Bool) {s : State} (hblock : 1 ≤ cfgBlock s.cfg ∧ cfgBlock s.cfg ≤ 64)
    (hpb : ¬(1 ≤ cfgPb s.cfg ∧ cfgPb s.cfg ≤ 64)) :
    exec (.decodeFrame d) s = .next (raise 0x11#8 .configPb s) :=
  (if_neg (not_not.2 hblock)).trans (if_pos hpb)

/-- With a legal CFG, what is left is the checks of the destination and of LIMIT, then the decoding (R120). -/
theorem exec_decodeFrame_of_codecLegal (d : Bool) {s : State} (hcodec : codecLegal s.cfg) :
    exec (.decodeFrame d) s =
      if cfgSigned s.cfg = true ∧ cfgDsigned s.cfg = false then .next (raise 0x11#8 .mismatchSign s)
      else if dstWidth s.cfg < cfgPb s.cfg ∧ cfgClampEn s.cfg = false then .next (raise 0x11#8 .mismatchNarrow s)
      else if capOf s < s.limit.toNat then .fault .limitOutsideBuffer
      else decodeBlocks (deliverLoop d 0 (decodeStart s).pos [] (decodeStart s)) :=
  (if_neg (not_not.2 hcodec.1)).trans (if_neg (not_not.2 hcodec.2))

theorem exec_decodeFrame_of_sign_mismatch (d : Bool) {s : State} (hcodec : codecLegal s.cfg)
    (hsign : cfgSigned s.cfg = true ∧ cfgDsigned s.cfg = false) :
    exec (.decodeFrame d) s = .next (raise 0x11#8 .mismatchSign s) := by
  rw [exec_decodeFrame_of_codecLegal d hcodec, if_pos hsign]

theorem exec_decodeFrame_of_narrow (d : Bool) {s : State} (hcodec : codecLegal s.cfg)
    (hsign : ¬(cfgSigned s.cfg = true ∧ cfgDsigned s.cfg = false))
    (hnarrow : dstWidth s.cfg < cfgPb s.cfg ∧ cfgClampEn s.cfg = false) :
    exec (.decodeFrame d) s = .next (raise 0x11#8 .mismatchNarrow s) := by
  rw [exec_decodeFrame_of_codecLegal d hcodec, if_neg hsign, if_pos hnarrow]

/-- When no check fails, DECODE_FRAME that answers a state has decoded from the frame's start. -/
theorem decodeBlocks_of_exec_decodeFrame {d : Bool} {s t : State} (hcodec : codecLegal s.cfg)
    (hdst : destinationLegal s.cfg) (h : exec (.decodeFrame d) s = .next t) :
    decodeBlocks (deliverLoop d 0 (decodeStart s).pos [] (decodeStart s)) = .next t := by
  obtain ⟨hsign, hnarrow⟩ := hdst
  rw [exec_decodeFrame_of_codecLegal d hcodec, if_neg hsign, if_neg hnarrow] at h
  split at h
  · cases h
  · exact h

/-! ## The errors of the blocks -/

/-- STATUS's error fields and the fault record are the same in both states. -/
def errorsKept (s t : State) : Prop :=
  t.err = s.err ∧ t.errSub = s.errSub ∧ t.errOp = s.errOp ∧ t.faults = s.faults

theorem errorsKept.refl (s : State) : errorsKept s s := ⟨rfl, rfl, rfl, rfl⟩

theorem errorsKept.trans {s t u : State} : errorsKept s t → errorsKept t u → errorsKept s u
  | ⟨he, hsub, hop, hf⟩, ⟨he', hsub', hop', hf'⟩ => ⟨he'.trans he, hsub'.trans hsub, hop'.trans hop, hf'.trans hf⟩

/-- From `s` to `t` either no error is raised or exactly one CORRUPT, which leaves RESULT as it was (R25, R123). -/
def corruptAtMost (s t : State) : Prop :=
  errorsKept s t ∨
    ∃ c start u, errCode c = 1#4 ∧ errorsKept s u ∧ u.result = s.result ∧ t = corruptBlock c start u

theorem corruptAtMost.of_kept {s u t : State} (hkept : errorsKept s u) (hres : u.result = s.result) :
    corruptAtMost u t → corruptAtMost s t
  | .inl h => .inl (hkept.trans h)
  | .inr ⟨c, start, v, hc, hv, hvres, ht⟩ => .inr ⟨c, start, v, hc, hkept.trans hv, hvres.trans hres, ht⟩

theorem corruptAtMost_corruptBlock {c : Cause} (hc : errCode c = 1#4) (start : Word) (s : State) :
    corruptAtMost s (corruptBlock c start s) :=
  .inr ⟨c, start, s, hc, .refl s, rfl, rfl⟩

theorem corruptAtMost.err {s t : State} : corruptAtMost s t → (t.err = s.err ∧ t.faults = s.faults) ∨ t.err = 1#4
  | .inl ⟨he, _, _, hf⟩ => .inl ⟨he, hf⟩
  | .inr ⟨_, _, _, hc, _, _, ht⟩ => .inr (by rw [ht, corruptBlock_err, hc])

/-- Pushing a block's words, waiting, and ending the frame raise nothing. -/
theorem deliverLoop_errorsKept (d : Bool) (ix : Nat) (start : Word) : ∀ (out : List Word) (s : State),
    errorsKept s (deliverLoop d ix start out s)
  | [], s => by
    rw [deliverLoop]
    split <;> exact ⟨rfl, rfl, rfl, rfl⟩
  | y :: r, s => by
    rw [deliverLoop]
    split
    · exact deliverLoop_errorsKept d ix start r { s with valueOut := s.valueOut ++ [y] }
    · exact ⟨rfl, rfl, rfl, rfl⟩

/-- A block is abandoned with CORRUPT, or its words are delivered (R117, R118, R122). -/
theorem decodeBlock_cases (d : Bool) (ix : Nat) (start : Word) (len sig : Nat) (s : State) :
    (∃ c, errCode c = 1#4 ∧ decodeBlock d ix start len sig s = corruptBlock c start s) ∨
      ∃ ix' out p prev, decodeBlock d ix start len sig s =
        deliverLoop d ix' start out { s with pos := p, prevS := prev } := by
  unfold decodeBlock
  simp only []
  split
  · exact .inl ⟨.corruptTruncated, rfl, rfl⟩
  split
  · exact .inl ⟨.corruptWidth, rfl, rfl⟩
  split
  · exact .inl ⟨.corruptTruncated, rfl, rfl⟩
  · exact .inr ⟨_, _, _, _, rfl⟩

/-- A header code that answers a state at a block boundary has decoded its block. -/
theorem eq_decodeBlock_of_runHeader {d : Bool} {ix : Nat} {start : Word} {hd : Header} {s t : State}
    (hi : s.inflight = some (.decode d ix [] start)) (h : runHeader hd s = .next t) :
    t = decodeBlock d ix start (headerLen hd) (headerSig s.prevS.toNat hd) s := by
  by_cases hlim : s.limit.toNat ≤ capOf s
  · rw [runHeader_boundary hd hi hlim] at h
    exact (Host.Outcome.next.inj h).symm
  · have hfault : ∀ len sig, execHeader len sig s = .fault .limitOutsideBuffer := by
      intro len sig
      simp only [execHeader, hi, if_pos (Nat.not_le.1 hlim)]
    cases hd <;> exact absurd ((hfault _ _).symm.trans h) (by simp)

/-- From the delivery of a block on, whatever blocks follow, nothing but CORRUPT is raised. At a boundary RESULT is still
as it was, since only the frame's end writes it. -/
theorem decodeLoop_deliverLoop_corruptAtMost (d : Bool) : ∀ (fuel ix : Nat) (start : Word) (out : List Word)
    (s t : State), decodeLoop fuel (deliverLoop d ix start out s) = .next t → corruptAtMost s t := by
  intro fuel
  induction fuel with
  | zero =>
    intro ix start out s t h
    cases h
    exact .inl (deliverLoop_errorsKept d ix start out s)
  | succ fuel ih =>
    intro ix start out s t h
    by_cases hb : atBoundary (deliverLoop d ix start out s)
    · rw [deliverLoop_boundary d ix start out s hb] at h
      generalize hu : hold (.decode d ix [] s.pos) { s with valueOut := s.valueOut ++ out } = u at h
      have hi : u.inflight = some (.decode d ix [] s.pos) := by rw [← hu]; rfl
      refine .of_kept (u := u) (by subst hu; exact ⟨rfl, rfl, rfl, rfl⟩) (by subst hu; rfl) ?_
      simp only [decodeLoop, hi] at h
      split at h
      · cases h
        exact corruptAtMost_corruptBlock rfl _ u
      · split at h
        next v hrun =>
          have hv := eq_decodeBlock_of_runHeader hi hrun
          rcases decodeBlock_cases d ix s.pos _ _ u with ⟨c, hc, hcorrupt⟩ | ⟨ix', out', p, prev, hdeliver⟩
          · rw [hv, hcorrupt, decodeLoop_idle rfl] at h
            cases h
            exact corruptAtMost_corruptBlock hc _ u
          · rw [hv, hdeliver] at h
            exact .of_kept (u := { u with pos := p, prevS := prev }) ⟨rfl, rfl, rfl, rfl⟩ rfl (ih _ _ _ _ t h)
        next => cases h
        next => cases h
    · rw [decodeLoop_stays hb] at h
      cases h
      exact .inl (deliverLoop_errorsKept d ix start out s)

/-- After its checks DECODE_FRAME raises nothing but CORRUPT (R120, R123). -/
theorem exec_decodeFrame_corruptAtMost {d : Bool} {s t : State} (hcodec : codecLegal s.cfg)
    (hdst : destinationLegal s.cfg) (h : exec (.decodeFrame d) s = .next t) : corruptAtMost s t :=
  .of_kept (u := decodeStart s) ⟨rfl, rfl, rfl, rfl⟩ rfl
    (decodeLoop_deliverLoop_corruptAtMost d _ _ _ _ _ t (decodeBlocks_of_exec_decodeFrame hcodec hdst h))

/-- Settles O37: each check raises on the state the command began in; past them only a block's CORRUPT is left. -/
theorem decodeChecksInOrder : Obligations.DecodeChecksInOrder := by
  unfold Obligations.DecodeChecksInOrder
  refine fun s d => ⟨fun hblock => ?_, fun hblock hpb => ?_, fun hcodec hsigned hdsigned => ?_,
    fun hcodec hsign hwidth hclamp => ?_, fun hcodec hdst t h => ?_⟩
  · exact ⟨_, exec_decodeFrame_of_block_illegal d hblock, raise_raisedOnly _ _ s⟩
  · exact ⟨_, exec_decodeFrame_of_pb_illegal d hblock hpb, raise_raisedOnly _ _ s⟩
  · exact ⟨_, exec_decodeFrame_of_sign_mismatch d hcodec ⟨hsigned, hdsigned⟩, raise_raisedOnly _ _ s⟩
  · exact ⟨_, exec_decodeFrame_of_narrow d hcodec hsign ⟨hwidth, hclamp⟩, raise_raisedOnly _ _ s⟩
  · exact (exec_decodeFrame_corruptAtMost hcodec hdst h).err

end Sys2Proof.Machine
end

section
/-! PROOFS. SERIALIZE with room in OCTET_OUT and LOAD with its octets in OCTET_IN (R128, R129, R131, R132). -/

namespace Sys2Proof.Machine

/-! ## SERIALIZE -/

/-- Bit `i` of payload octet `k` is stream bit `8k + i`, forced to 0 from the end of the stream up (R51, R129). -/
theorem getLsbD_payloadOctet (m : Memory) (e k : Nat) {i : Nat} (hi : i < 8) :
    (payloadOctet m e k).getLsbD i = (decide (8 * k + i < e) && memBit m (8 * k + i)) := by
  have hbelow : i < min 8 (e - 8 * k) ↔ 8 * k + i < e := by omega
  rw [payloadOctet, BitVec.getLsbD_ofNat, testBit_memRead, decide_eq_true hi, Bool.true_and,
    decide_eq_decide.2 hbelow]

/-- The payload of the stream below POS (R51, R128). -/
def payloadBytes (s : State) : List Octet := (List.range (payloadOctets s)).map (payloadOctet s.buf s.pos.toNat)

@[simp] theorem length_payloadBytes (s : State) : (payloadBytes s).length = payloadOctets s := by simp [payloadBytes]

theorem getD_payloadBytes {s : State} {k : Nat} (hk : k < payloadOctets s) (d : Octet) :
    (payloadBytes s).getD k d = payloadOctet s.buf s.pos.toNat k := by
  simp [payloadBytes, hk]

/-- With room for the whole payload SERIALIZE does not wait (R129). -/
theorem exec_serialize_of_room {s : State} (hpos : s.pos.toNat ≤ capOf s)
    (hroom : s.octetOut.length + payloadOctets s ≤ s.par.ooutDepth) :
    exec .serialize s = .next (retire { s with
      result := BitVec.ofNat 64 (payloadOctets s)
      octetOut := s.octetOut ++ payloadBytes s }) := by
  have hexec : exec .serialize s = .next (serializeLoop (payloadOctets s) s) := if_neg (Nat.not_lt.2 hpos)
  rw [hexec, serializeLoop_take (payloadOctets s) _ s le_rfl le_rfl hroom, Nat.sub_self, ← List.range_eq_range']
  rfl

/-- Settles O45: what is pushed behind the octets already waiting is the payload, and its length fits RESULT. -/
theorem serializePushesPayload : Obligations.SerializePushesPayload := by
  unfold Obligations.SerializePushesPayload
  refine fun s hs hroom => ⟨_, exec_serialize_of_room hs.pos hroom, rfl, ?_, ?_, ?_, fun k i hk hi => ?_,
    sameBits_of_buf_eq rfl⟩
  · have hlen : payloadOctets s < 2 ^ 64 := by
      have hpos := s.pos.isLt
      unfold payloadOctets
      omega
    exact toNat_ofNat_lt hlen
  · simp [payloadOctets]
  · simp
  · rw [retire_octetOut, List.getD_append_right _ _ _ _ (Nat.le_add_right _ _), Nat.add_sub_cancel_left,
      getD_payloadBytes hk]
    exact getLsbD_payloadOctet s.buf s.pos.toNat k hi

/-! ## LOAD -/

/-- Bit `i` of field `j` of a run written is bit `i` of value `j` (R12, R52). -/
theorem memBit_writeFields {m : Memory} (hwf : m.wf = true) (p : Nat) {w i j : Nat} (l : List Nat)
    (hj : j < l.length) (hi : i < w) : memBit (writeFields m p w l) (p + j * w + i) = l[j].testBit i := by
  have hfield := congrArg (Nat.testBit · i) (memRead_writeFields w l p j hj hwf)
  simpa [testBit_memRead, Nat.testBit_mod_two_pow, hi] using hfield

/-- BUF after LOAD: the first CNT octets of OCTET_IN from bit 0, zeros above them (R131, R132). -/
def loadedBuf (s : State) : Memory :=
  zeroOctets (writeFields s.buf 0 8 ((s.octetIn.take s.cnt.toNat).map BitVec.toNat)) s.cnt.toNat s.par.octets

/-- With all its octets there LOAD does not wait (R131). -/
theorem exec_load_of_fits {s : State} (hfits : 8 * s.cnt.toNat ≤ capOf s) (hthere : s.cnt.toNat ≤ s.octetIn.length) :
    exec .load s = .next (retire { s with
      octetIn := s.octetIn.drop s.cnt.toNat
      buf := loadedBuf s
      limit := BitVec.ofNat 64 (8 * s.cnt.toNat)
      pos := 0#64
      result := s.cnt }) := by
  have hexec : exec .load s = .next (loadLoop s.cnt.toNat s) := if_neg (Nat.not_lt.2 hfits)
  rw [hexec, loadLoop_take s.cnt.toNat _ s le_rfl le_rfl hthere, Nat.sub_self]
  rfl

theorem memBit_loadedBuf_below {s : State} (hwf : s.buf.wf = true) (hfits : 8 * s.cnt.toNat ≤ capOf s)
    (hthere : s.cnt.toNat ≤ s.octetIn.length) {k i : Nat} (hk : k < s.cnt.toNat) (hi : i < 8) :
    memBit (loadedBuf s) (8 * k + i) = (s.octetIn.getD k 0#8).getLsbD i := by
  have hbit := memBit_writeFields hwf 0 (j := k) ((s.octetIn.take s.cnt.toNat).map BitVec.toNat) (by simp; omega) hi
  rw [loadedBuf, memBit_zeroOctets _ _ _ _ (Nat.lt_of_lt_of_le (by omega) hfits), if_pos (by omega),
    show 8 * k + i = 0 + k * 8 + i by omega, hbit, List.getD_eq_getElem _ _ (Nat.lt_of_lt_of_le hk hthere)]
  simp [BitVec.testBit_toNat]

theorem memBit_loadedBuf_above {s : State} {q : Nat} (hq : 8 * s.cnt.toNat ≤ q) (hcap : q < capOf s) :
    memBit (loadedBuf s) q = false := by
  rw [loadedBuf, memBit_zeroOctets _ _ _ _ hcap, if_neg (Nat.not_lt.2 hq)]

/-- Settles O46: the run of octets written is OCTET_IN's, and the zero fill starts where the run ends. -/
theorem loadTakesPayload : Obligations.LoadTakesPayload := by
  unfold Obligations.LoadTakesPayload
  exact fun s hs hfits hthere => ⟨_, exec_load_of_fits hfits hthere, rfl,
    toNat_ofNat_lt (lt_two_pow_64_of_le_cap hs hfits),
    fun k i hk hi => memBit_loadedBuf_below hs.bufWf hfits hthere hk hi, fun q => memBit_loadedBuf_above⟩

end Sys2Proof.Machine
end

section
/-! PROOFS. CLEAR (R136). -/

namespace Sys2Proof.Machine

/-- BUF after CLEAR: every octet up to CAP filled with zeros (R136). -/
def clearedBuf (s : State) : Memory := zeroOctets s.buf 0 s.par.octets

theorem exec_clear (s : State) :
    exec .clear s = .next (retire { s with buf := clearedBuf s, pos := 0#64 }) := rfl

/-- The zero fill starts at octet 0, so no bit below CAP is kept. -/
theorem memBit_clearedBuf {s : State} {q : Nat} (hcap : q < capOf s) : memBit (clearedBuf s) q = false := by
  rw [clearedBuf, memBit_zeroOctets _ _ _ _ hcap, if_neg (Nat.not_lt_zero q)]

/-- Settles O15: CLEAR has no check that could fail, and the buffer it leaves is all zeros below CAP. -/
theorem clearZeroesBuffer : Obligations.ClearZeroesBuffer := by
  unfold Obligations.ClearZeroesBuffer
  exact ⟨by decide, fun s => ⟨_, exec_clear s, rfl, fun _ => memBit_clearedBuf⟩⟩

end Sys2Proof.Machine
end

section
/-! PROOFS. A host write of CMD while BUSY = 0: the command starts, or ERR makes the engine drop it (R21, R140). -/

namespace Sys2Proof.Machine

/-- A host write never waits: the step is the write itself (R17, R19). -/
theorem step_of_write {s : State} {off : Nat} {v : Word} {rest : List HostAct} (h : s.host = .write off v :: rest) :
    step s = .next (hostWrite off v { s with host := rest }) := by
  simp only [step, h, hostAct]

/-- Idle, the engine takes a write at CMD's offset as a command word (R21). -/
theorem hostWrite_cmd_of_idle {s : State} (h : s.inflight = none) (v : Word) : hostWrite 0x00 v s = writeCmd v s := by
  have hbusy : ¬busy s = true := by simp [busy, h]
  exact if_neg hbusy

/-- With no error recorded every word starts a command, and CLRERR's does at any time (R21, R140). -/
theorem writeCmd_starts {s : State} {v : Word} (h : s.err = 0#4 ∨ v = 0x1F#64) :
    writeCmd v s = { s with inflight := some (.issued v) } :=
  if_neg fun ⟨herr, hv⟩ => h.elim herr hv

/-- With an error recorded every word but CLRERR's is dropped (R140). -/
theorem writeCmd_dropped {s : State} {v : Word} (h : s.err ≠ 0#4 ∧ v ≠ 0x1F#64) : writeCmd v s = s := if_pos h

theorem step_of_cmd_write_idle {s : State} {v : Word} {rest : List HostAct} (hidle : s.inflight = none)
    (hhost : s.host = .write 0x00 v :: rest) : step s = .next (writeCmd v { s with host := rest }) := by
  rw [step_of_write hhost, hostWrite_cmd_of_idle (s := { s with host := rest }) hidle]

/-- Settles O12: the step is CMD's write, whose one test is whether ERR is set and the word is not CLRERR's. -/
theorem cmdWriteStartsOrIsDropped : Obligations.CmdWriteStartsOrIsDropped := by
  unfold Obligations.CmdWriteStartsOrIsDropped
  intro s v rest hidle hhost
  rw [step_of_cmd_write_idle hidle hhost]
  constructor
  · intro hstarts
    rw [writeCmd_starts (s := { s with host := rest }) hstarts]
  · intro hdropped
    rw [writeCmd_dropped (s := { s with host := rest }) hdropped]

end Sys2Proof.Machine
end

section
/-! PROOFS. The reset input: one platform action, whatever the engine was doing (R159, R160). -/

namespace Sys2Proof.Machine

/-- The reset input never waits: not for a command in flight, not for a FIFO (R160). -/
theorem step_of_reset {s : State} {rest : List HostAct} (h : s.host = .reset :: rest) :
    step s = .next (platformReset { s with host := rest }) := by
  simp only [step, h, hostAct]

/-- After the reset input no error, overflow or command is left for STATUS to show (R22, R44). -/
theorem statusWord_platformReset (s : State) : statusWord (platformReset s) = 0#64 :=
  statusWord_of_idle_clear rfl rfl rfl rfl rfl

/-- What commands wrote to BUF before the reset input is lost: every bit is the new BUF_INIT's (R39, R160). -/
theorem memBit_platformReset (s : State) (q : Nat) :
    memBit (platformReset s).buf q = Config.bufInit (platformReset s).buf.era q :=
  memBit_of_written_nil rfl q

/-- Settles O52: the step is the platform's reset; STATUS and BUF by their rules after it, and each remaining register
and FIFO is `State.reset`'s. -/
theorem resetInputResetsEverything : Obligations.ResetInputResetsEverything := by
  unfold Obligations.ResetInputResetsEverything
  intro s rest hhost
  exact ⟨platformReset { s with host := rest }, step_of_reset hhost, rfl, statusWord_platformReset _, rfl, rfl, rfl, rfl,
    rfl, rfl, rfl, rfl, rfl, rfl, rfl, rfl, rfl, rfl, rfl, memBit_platformReset _⟩

end Sys2Proof.Machine
end

section
/-! PROOFS. Decoding and encoding are inverse to each other, for command words and for header codes (R70 to R83, R88). -/

namespace Sys2Proof.Machine

/-! ## A command word from its fields -/

theorem getLsbD_packFields (op : BitVec 8) (n : BitVec 7) (sg d : Bool) (j : Nat) :
    (packFields op n sg d).getLsbD j =
      if j < 8 then op.getLsbD j else if j < 15 then n.getLsbD (j - 8) else if j = 15 then sg
      else decide (j = 16) && d := by
  have hop : 8 ≤ j → op.getLsbD j = false := fun h => BitVec.getLsbD_of_ge op j h
  have hn : 15 ≤ j → n.getLsbD (j - 8) = false := fun h => BitVec.getLsbD_of_ge n _ (by omega)
  simp only [packFields, BitVec.getLsbD_or, BitVec.getLsbD_shiftLeft, BitVec.getLsbD_setWidth, BitVec.getLsbD_ofBool]
  grind

theorem opField_packFields (op : BitVec 8) (n : BitVec 7) (sg d : Bool) : opField (packFields op n sg d) = op := by
  apply BitVec.eq_of_getLsbD_eq
  intro j hj
  simp [opField, getLsbD_packFields, hj]

theorem nField_packFields (op : BitVec 8) (n : BitVec 7) (sg d : Bool) : nField (packFields op n sg d) = n := by
  apply BitVec.eq_of_getLsbD_eq
  intro j hj
  simp [nField, getLsbD_packFields, hj, show 8 + j < 15 by omega]

theorem sField_packFields (op : BitVec 8) (n : BitVec 7) (sg d : Bool) : sField (packFields op n sg d) = sg := by
  rw [sField, getLsbD_packFields]; rfl

theorem dField_packFields (op : BitVec 8) (n : BitVec 7) (sg d : Bool) : dField (packFields op n sg d) = d := by
  rw [dField, getLsbD_packFields]; simp

/-- The command word of an opcode with the fields it uses, every unused field 0 (R71). -/
def canonicalWord (op : Nat) (n : BitVec 7) (sg d : Bool) : Word :=
  packFields (BitVec.ofNat 8 op) (if opUsesN op then n else 0#7) (opUsesS op && sg) (opUsesD op && d)

/-- A command word with no reserved bit set is the one its fields make (R76). -/
theorem canonicalWord_of_fields {w : Word}
    (hres : w &&& ~~~fieldMask (opUsesN (opField w).toNat) (opUsesS (opField w).toNat) (opUsesD (opField w).toNat) = 0#64) :
    canonicalWord (opField w).toNat (nField w) (sField w) (dField w) = w := by
  have hnone := mt (and_not_fieldMask_ne_zero_iff w _ _ _).2 (not_not.2 hres)
  simp only [not_or, not_exists, not_and, Bool.not_eq_true, Bool.not_eq_false, ne_eq] at hnone
  obtain ⟨hhigh, hD, hS, hN⟩ := hnone
  have hn : (if opUsesN (opField w).toNat then nField w else 0#7) = nField w := by
    by_cases h : nField w = 0#7
    · simp [h]
    · exact if_pos (hN h)
  have hs : (opUsesS (opField w).toNat && sField w) = sField w := by
    cases h : sField w with
    | false => simp
    | true => simp [hS h]
  have hd : (opUsesD (opField w).toNat && dField w) = dField w := by
    cases h : dField w with
    | false => simp
    | true => simp [hD h]
  rw [canonicalWord, hn, hs, hd, BitVec.ofNat_toNat, BitVec.setWidth_eq]
  apply BitVec.eq_of_getLsbD_eq
  intro j _
  rw [getLsbD_packFields]
  split_ifs with hop hnf hsf
  · simp [opField, hop]
  · simp [nField, show j - 8 < 7 by omega, show 8 + (j - 8) = j by omega]
  · rw [hsf, sField]
  · by_cases hdf : j = 16
    · simp [hdf, dField]
    · simp [hdf, hhigh j (by omega)]

/-- A canonical word has no reserved bit set: its fields are the instruction's own (R71, R76). -/
theorem decodeCommand_canonicalWord {op : Nat} {n : BitVec 7} {sg d : Bool} {i : Instr}
    (hi : instrOfOp op (if opUsesN op then n else 0#7) (opUsesS op && sg) (opUsesD op && d) = some i)
    (hop : op < 256) (hwf : i.wellFormed = true) : decodeCommand (canonicalWord op n sg d) = .ok i := by
  have hopn : (BitVec.ofNat 8 op).toNat = op := by rw [BitVec.toNat_ofNat]; omega
  have hused : canonicalWord op n sg d &&& ~~~usedBits i = 0#64 := by
    rw [usedBits_of_instrOfOp hi]
    by_contra hne
    rcases (and_not_fieldMask_ne_zero_iff _ _ _ _).1 hne with ⟨j, hj, hbit⟩ | ⟨hf, hno⟩ | ⟨hf, hno⟩ | ⟨hf, hno⟩
    · rw [canonicalWord, getLsbD_packFields, if_neg (by omega), if_neg (by omega), if_neg (by omega)] at hbit
      simp [show j ≠ 16 by omega] at hbit
    · simp [canonicalWord, dField_packFields, hno] at hf
    · simp [canonicalWord, sField_packFields, hno] at hf
    · simp [canonicalWord, nField_packFields, hno] at hf
  have hfields : instrOfOp (opField (canonicalWord op n sg d)).toNat (nField (canonicalWord op n sg d))
      (sField (canonicalWord op n sg d)) (dField (canonicalWord op n sg d)) = some i := by
    rw [canonicalWord, opField_packFields, nField_packFields, sField_packFields, dField_packFields, hopn, hi]
  simp [decodeCommand, hfields, hused, hwf]

/-! ## Instructions and their codes -/

/-- The encoder writes an instruction of the opcode map as the canonical word of its opcode and fields (R70, R72). -/
theorem encode_of_instrOfOp {op : Nat} {n : BitVec 7} {sg d : Bool} {i : Instr} (h : instrOfOp op n sg d = some i) :
    encode i = .command (canonicalWord op n sg d) := by
  unfold instrOfOp at h
  split at h
  case h_18 => cases h
  all_goals cases h; rfl

/-- Every instruction is a row of the opcode map or a header code (R72, R81). -/
theorem instr_command_or_header (i : Instr) :
    (∃ op n sg d, op < 256 ∧
      instrOfOp op (if opUsesN op then n else 0#7) (opUsesS op && sg) (opUsesD op && d) = some i) ∨
    ∃ hd : Header, i = hd.toInstr := by
  cases i with
  | nop => exact .inl ⟨0x00, 0#7, false, false, by decide, rfl⟩
  | setpos => exact .inl ⟨0x01, 0#7, false, false, by decide, rfl⟩
  | advance => exact .inl ⟨0x02, 0#7, false, false, by decide, rfl⟩
  | getpos => exact .inl ⟨0x03, 0#7, false, false, by decide, rfl⟩
  | readbit => exact .inl ⟨0x04, 0#7, false, false, by decide, rfl⟩
  | writebit => exact .inl ⟨0x05, 0#7, false, false, by decide, rfl⟩
  | read n sg => exact .inl ⟨0x06, n, sg, false, by decide, rfl⟩
  | write n => exact .inl ⟨0x07, n, false, false, by decide, rfl⟩
  | align => exact .inl ⟨0x08, 0#7, false, false, by decide, rfl⟩
  | append n => exact .inl ⟨0x09, n, false, false, by decide, rfl⟩
  | extract n sg => exact .inl ⟨0x0A, n, sg, false, by decide, rfl⟩
  | encodeFrame => exact .inl ⟨0x10, 0#7, false, false, by decide, rfl⟩
  | decodeFrame d => exact .inl ⟨0x11, 0#7, false, d, by decide, rfl⟩
  | serialize => exact .inl ⟨0x18, 0#7, false, false, by decide, rfl⟩
  | load => exact .inl ⟨0x19, 0#7, false, false, by decide, rfl⟩
  | clear => exact .inl ⟨0x1E, 0#7, false, false, by decide, rfl⟩
  | clrerr => exact .inl ⟨0x1F, 0#7, false, false, by decide, rfl⟩
  | h1 => exact .inr ⟨.h1, rfl⟩
  | h4 b3 => exact .inr ⟨.h4 b3, rfl⟩
  | h6 b2 => exact .inr ⟨.h6 b2, rfl⟩
  | h12 b6 => exact .inr ⟨.h12 b6, rfl⟩

theorem encode_toInstr (hd : Header) : encode hd.toInstr = headerCode hd := by cases hd <;> rfl

theorem decode_headerCode (hd : Header) : decode (headerCode hd) = .ok hd.toInstr := by
  have hfound := decodeHeader_of_bits hd (headerLen hd) 0 le_rfl
  rw [Nat.mul_zero, Nat.add_zero] at hfound
  simp only [headerCode, decode, hfound]

/-- Settles O4: a command is the canonical word of its row, and a header code is found in its own bits. -/
theorem decodeEncodeRoundTrip : Obligations.DecodeEncodeRoundTrip := by
  unfold Obligations.DecodeEncodeRoundTrip
  intro i hwf
  rcases instr_command_or_header i with ⟨op, n, sg, d, hop, hi⟩ | ⟨hd, rfl⟩
  · have hsame : canonicalWord op (if opUsesN op then n else 0#7) (opUsesS op && sg) (opUsesD op && d) =
        canonicalWord op n sg d := by cases h : opUsesN op <;> simp [canonicalWord, h]
    rw [encode_of_instrOfOp hi, hsame]
    exact decodeCommand_canonicalWord hi hop hwf
  · rw [encode_toInstr, decode_headerCode]

/-- A word that decodes has passed the three checks of R143. -/
theorem checks_of_decodeCommand_ok {w : Word} {i : Instr} (h : decodeCommand w = .ok i) :
    instrOfOp (opField w).toNat (nField w) (sField w) (dField w) = some i ∧ w &&& ~~~usedBits i = 0#64 ∧
      i.wellFormed = true := by
  obtain ⟨j, hj, hdec⟩ := decodeCommand_of_not_opcode (w := w) (by simp [h])
  rw [h] at hdec
  split_ifs at hdec with hres hwf
  cases hdec
  exact ⟨hj, not_not.1 hres, by simpa using hwf⟩

/-- Settles O5: a word with no reserved bit set is the one its fields make, which is what the encoder writes. -/
theorem commandWordsAreCanonical : Obligations.CommandWordsAreCanonical := by
  unfold Obligations.CommandWordsAreCanonical
  intro w i h
  obtain ⟨hi, hres, hwf⟩ := checks_of_decodeCommand_ok h
  rw [usedBits_of_instrOfOp hi] at hres
  exact ⟨hwf, by rw [encode_of_instrOfOp hi, canonicalWord_of_fields hres]⟩

/-! ## Header codes -/

/-- Settles O6: the code's bits decide, whatever stands above them. -/
theorem headerCodesArePrefixFree : Obligations.HeaderCodesArePrefixFree := by
  unfold Obligations.HeaderCodesArePrefixFree
  exact fun hd => ⟨(streamHeader_eq hd).symm, headerBits_lt hd, fun tail a ha => decodeHeader_of_bits hd a tail ha⟩

/-- The header code found is the one whose bits the stream begins with, and fewer bits than it has give none (R82). -/
theorem bits_of_decodeHeader {a h : Nat} {hd : Header} (hfound : decodeHeader a h = some hd) :
    h % 2 ^ headerLen hd = headerBits hd ∧ ∀ a', a' < headerLen hd → decodeHeader a' h = none := by
  unfold decodeHeader at hfound ⊢
  split_ifs at hfound with _ h1 _ h4 _ h6 _ <;> cases hfound
  · simp only [headerLen, headerBits]
    exact ⟨h1, fun a' ha' => if_pos (by omega)⟩
  · simp only [headerLen, headerBits]
    refine ⟨by omega, fun a' ha' => ?_⟩
    rw [if_neg h1, if_pos ha']
    split <;> rfl
  · simp only [headerLen, headerBits]
    refine ⟨by omega, fun a' ha' => ?_⟩
    rw [if_neg h1, dif_neg h4, if_pos ha']
    split_ifs <;> rfl
  · simp only [headerLen, headerBits, BitVec.toNat_ofNat]
    refine ⟨by omega, fun a' ha' => ?_⟩
    rw [if_neg h1, dif_neg h4, dif_neg h6, if_pos ha']
    split_ifs <;> rfl

/-- Twelve bits are enough for every header code (R83). -/
theorem decodeHeader_12_isSome (h : Nat) : ∃ hd, decodeHeader 12 h = some hd := by
  unfold decodeHeader
  by_cases h1 : h % 2 = 1
  · exact ⟨.h1, by simp [h1]⟩
  by_cases h4 : h / 2 % 8 < 7
  · exact ⟨.h4 ⟨h / 2 % 8, h4⟩, by simp [h1, h4]⟩
  by_cases h6 : h / 16 % 4 < 3
  · exact ⟨.h6 ⟨h / 16 % 4, h6⟩, by simp [h1, h4, h6]⟩
  · exact ⟨.h12 (BitVec.ofNat 6 (h / 64)), by simp [h1, h4, h6]⟩

/-- Settles O7: twelve bits give a code, whose own bits they begin with. -/
theorem headerCodesAreComplete : Obligations.HeaderCodesAreComplete := by
  unfold Obligations.HeaderCodesAreComplete
  intro h
  obtain ⟨hd, hfound⟩ := decodeHeader_12_isSome h
  obtain ⟨hbits, hshort⟩ := bits_of_decodeHeader hfound
  have hmod : h % 2 ^ 12 % 2 ^ headerLen hd = headerBits hd := by
    rw [Nat.mod_mod_of_dvd _ (Nat.pow_dvd_pow 2 (headerLen_le hd)), hbits]
  exact ⟨hd, hfound, ⟨h % 2 ^ 12 / 2 ^ headerLen hd, by rw [← hmod, Nat.mod_add_div]⟩, hshort⟩

/-! ## Words written out from the tables -/

/-- Settles O8: each of the words is decoded by evaluation. -/
theorem sampleWordsDecode : Obligations.SampleWordsDecode := by
  unfold Obligations.SampleWordsDecode
  decide

/-! ## Header selection -/

theorem selectHeader_eq_h1_iff (prev s : Nat) : selectHeader prev s = .h1 ↔ s = prev := by
  unfold selectHeader
  split_ifs with h <;> simp [h]

theorem headerLen_selectHeader (prev s : Nat) :
    headerLen (selectHeader prev s) = if s = prev then 1 else if s < 7 then 4 else if s < 10 then 6 else 12 := by
  unfold selectHeader
  split_ifs <;> rfl

theorem headerBits_selectHeader {s : Nat} (prev : Nat) (hs : s ≤ 64) :
    headerBits (selectHeader prev s) =
      if s = prev then 1 else if s < 7 then 2 * s else if s < 10 then 14 + 16 * (s - 7) else 62 + 64 * (s - 10) := by
  unfold selectHeader
  split_ifs
  · rfl
  · rfl
  · rfl
  · rw [headerBits, BitVec.toNat_ofNat, Nat.mod_eq_of_lt (by omega)]

/-- Settles O31: the chain of R105 gives each count one header. -/
theorem headerSelectionRule : Obligations.HeaderSelectionRule := by
  unfold Obligations.HeaderSelectionRule
  exact fun prev s hs => ⟨selectHeader_sig hs, selectHeader_eq_h1_iff prev s, headerLen_selectHeader prev s,
    headerBits_selectHeader prev hs⟩

end Sys2Proof.Machine
end

section
/-! PROOFS. What each instruction can write, how it can end, and what follows for every run of one: the host's registers
stay, only the commands named write, errors are recorded once (R23 to R32, R42, R47, R139, R157). -/

namespace Sys2Proof.Machine

/-! ## What the loops write and how they end -/

/-- APPEND from any state: words are taken and bits are written, until it is done or waits (R99). -/
theorem appendLoop_ends (n : BitVec 7) : ∀ (left : Nat) (s : State), ∃ m p k,
    appendLoop n left s = retire { s with buf := m, pos := p, valueIn := s.valueIn.drop k } ∨
      ∃ done, appendLoop n left s =
        hold (.append n done) { s with buf := m, pos := p, valueIn := s.valueIn.drop k }
  | 0, s => ⟨s.buf, s.pos, 0, .inl rfl⟩
  | left + 1, s => by
    cases hv : s.valueIn with
    | nil => exact ⟨s.buf, s.pos, 0, .inr ⟨s.cnt.toNat - (left + 1), by simp [appendLoop, hv, hold]⟩⟩
    | cons x q =>
      obtain ⟨m, p, k, h⟩ := appendLoop_ends n left { s with
        valueIn := q
        buf := memWrite s.buf s.pos.toNat n.toNat x.toNat
        pos := BitVec.ofNat 64 (s.pos.toNat + n.toNat) }
      exact ⟨m, p, k + 1, by simpa [appendLoop, hv] using h⟩

/-- EXTRACT from any state: words are pushed and POS moves, until it is done or waits (R101). -/
theorem extractLoop_ends (n : BitVec 7) (sg : Bool) : ∀ (left : Nat) (s : State), ∃ p l,
    extractLoop n sg left s = retire { s with pos := p, valueOut := s.valueOut ++ l } ∨
      ∃ done, extractLoop n sg left s = hold (.extract n sg done) { s with pos := p, valueOut := s.valueOut ++ l }
  | 0, s => ⟨s.pos, [], .inl (by simp [extractLoop])⟩
  | left + 1, s => by
    by_cases hroom : s.valueOut.length < s.par.voutDepth
    · obtain ⟨p, l, h⟩ := extractLoop_ends n sg left { s with
        valueOut :=
          s.valueOut ++ [deliverWord s.cfg (fieldInt sg n.toNat (memRead s.buf s.pos.toNat n.toNat))]
        pos := BitVec.ofNat 64 (s.pos.toNat + n.toNat) }
      exact ⟨p, _ :: l, by simpa [extractLoop, hroom] using h⟩
    · exact ⟨s.pos, [], .inr ⟨s.cnt.toNat - (left + 1), by simp [extractLoop, hroom]⟩⟩

/-- SERIALIZE from any state: octets are pushed, until it is done or waits (R129). -/
theorem serializeLoop_ends : ∀ (left : Nat) (s : State), ∃ r l,
    serializeLoop left s = retire { s with result := r, octetOut := s.octetOut ++ l } ∨
      ∃ done, serializeLoop left s = hold (.serialize done) { s with result := r, octetOut := s.octetOut ++ l }
  | 0, s => ⟨BitVec.ofNat 64 (payloadOctets s), [], .inl (by simp [serializeLoop])⟩
  | left + 1, s => by
    by_cases hroom : s.octetOut.length < s.par.ooutDepth
    · obtain ⟨r, l, h⟩ := serializeLoop_ends left { s with
        octetOut := s.octetOut ++ [payloadOctet s.buf s.pos.toNat (payloadOctets s - (left + 1))] }
      exact ⟨r, _ :: l, by simpa [serializeLoop, hroom] using h⟩
    · exact ⟨s.result, [], .inr ⟨payloadOctets s - (left + 1), by simp [serializeLoop, hroom]⟩⟩

/-- LOAD from any state: octets are taken and bits are written, until it is done or waits (R131). -/
theorem loadLoop_ends : ∀ (left : Nat) (s : State), ∃ m lim p r k,
    loadLoop left s =
        retire { s with buf := m, limit := lim, pos := p, result := r, octetIn := s.octetIn.drop k } ∨
      ∃ done, loadLoop left s =
        hold (.load done) { s with buf := m, limit := lim, pos := p, result := r, octetIn := s.octetIn.drop k }
  | 0, s => ⟨_, _, _, _, 0, .inl rfl⟩
  | left + 1, s => by
    cases hv : s.octetIn with
    | nil =>
      exact ⟨s.buf, s.limit, s.pos, s.result, 0,
        .inr ⟨s.cnt.toNat - (left + 1), by simp [loadLoop, hv, hold]⟩⟩
    | cons o q =>
      obtain ⟨m, lim, p, r, k, h⟩ := loadLoop_ends left { s with
        octetIn := q
        buf := memWrite s.buf (8 * (s.cnt.toNat - (left + 1))) 8 o.toNat }
      exact ⟨m, lim, p, r, k + 1, by simpa [loadLoop, hv] using h⟩

/-- One block of ENCODE_FRAME writes BUF, POS and PREV_S (R110). -/
theorem encodeBlock_ok {xs : List Word} {s t : State} (h : encodeBlock xs s = .ok t) :
    ∃ m p prev, t = { s with buf := m, pos := p, prevS := prev } := by
  unfold encodeBlock at h
  simp only [] at h
  split_ifs at h
  cases h
  exact ⟨_, _, _, rfl⟩

/-- ENCODE_FRAME from any state: words are taken and blocks are written, until it is done or waits, or a block raises
its error, RESULT and FRAME_BITS being as before (R110, R111). -/
theorem encodeLoop_ends : ∀ (left : Nat) (vals : List Word) (start : Word) (s : State), ∃ m p prev k,
    (∃ r, encodeLoop left vals start s = retire { s with
      buf := m, pos := p, prevS := prev, valueIn := s.valueIn.drop k, frameBits := r, result := r }) ∨
    (∃ ix vals' start', encodeLoop left vals start s = hold (.encode ix vals' start') { s with
      buf := m, pos := p, prevS := prev, valueIn := s.valueIn.drop k }) ∨
    ∃ c, encodeLoop left vals start s =
      raise 0x10#8 c { s with buf := m, pos := p, prevS := prev, valueIn := s.valueIn.drop k }
  | 0, _, _, s => ⟨s.buf, s.pos, s.prevS, 0, .inl ⟨_, rfl⟩⟩
  | left + 1, vals, start, s => by
    cases hv : s.valueIn with
    | nil =>
      exact ⟨s.buf, s.pos, s.prevS, 0, .inr (.inl ⟨s.nvalues.toNat - (left + 1), vals, start,
        by simp [encodeLoop, hv, hold]⟩)⟩
    | cons x q =>
      by_cases hmore : (vals ++ [x]).length < min (cfgBlock s.cfg) ((vals ++ [x]).length + left)
      · obtain ⟨m, p, prev, k, h⟩ := encodeLoop_ends left (vals ++ [x]) start { s with valueIn := q }
        refine ⟨m, p, prev, k + 1, ?_⟩
        rw [encodeLoop, hv]
        simp only []
        rw [if_pos hmore]
        exact h
      · rw [encodeLoop, hv]
        simp only []
        rw [if_neg hmore]
        cases hb : encodeBlock (vals ++ [x]) { s with valueIn := q } with
        | error c => exact ⟨s.buf, start, s.prevS, 1, .inr (.inr ⟨c, rfl⟩)⟩
        | ok t =>
          obtain ⟨m', p', prev', rfl⟩ := encodeBlock_ok hb
          obtain ⟨m, p, prev, k, h⟩ := encodeLoop_ends left [] p'
            { s with valueIn := q, buf := m', pos := p', prevS := prev' }
          exact ⟨m, p, prev, k + 1, h⟩

/-- A block's delivery: words are pushed, until the frame ends, the next block begins, or a push waits (R122). -/
theorem deliverLoop_ends (d : Bool) (ix : Nat) (start : Word) : ∀ (out : List Word) (s : State), ∃ l,
    deliverLoop d ix start out s = finishDecode { s with valueOut := s.valueOut ++ l } ∨
      ∃ out' start', deliverLoop d ix start out s =
        hold (.decode d ix out' start') { s with valueOut := s.valueOut ++ l }
  | [], s => by
    rw [deliverLoop]
    split
    · exact ⟨[], .inl (by simp)⟩
    · exact ⟨[], .inr ⟨[], s.pos, by simp⟩⟩
  | y :: r, s => by
    by_cases hroom : s.valueOut.length < s.par.voutDepth
    · obtain ⟨l, h⟩ := deliverLoop_ends d ix start r { s with valueOut := s.valueOut ++ [y] }
      exact ⟨y :: l, by simpa [deliverLoop, hroom] using h⟩
    · exact ⟨[], .inr ⟨y :: r, start, by simp [deliverLoop, hroom]⟩⟩

/-- From `s` to `t` DECODE_FRAME has pushed words and moved on, at the end of a frame written FRAME_BITS and RESULT, or
raised CORRUPT (R122, R123). -/
def decodeEnds (d : Bool) (s t : State) : Prop :=
  ∃ p prev l,
    (∃ fb r, t = retire { s with pos := p, prevS := prev, valueOut := s.valueOut ++ l, frameBits := fb, result := r }) ∨
    (∃ ix out start, t = hold (.decode d ix out start)
      { s with pos := p, prevS := prev, valueOut := s.valueOut ++ l }) ∨
    ∃ c start, t = corruptBlock c start { s with pos := p, prevS := prev, valueOut := s.valueOut ++ l }

theorem decodeEnds_deliverLoop (d : Bool) (ix : Nat) (start : Word) (out : List Word) (s : State) :
    decodeEnds d s (deliverLoop d ix start out s) := by
  obtain ⟨l, h | ⟨out', start', h⟩⟩ := deliverLoop_ends d ix start out s
  · exact ⟨_, s.prevS, l, .inl ⟨_, _, h⟩⟩
  · exact ⟨s.pos, s.prevS, l, .inr (.inl ⟨ix, out', start', h⟩)⟩

/-- What is written before and after a wait or a block boundary adds up. -/
theorem decodeEnds.after {d : Bool} {s t : State} {f : Option InFlight} {p : Word} {prev : BitVec 7} {l : List Word}
    (h : decodeEnds d { s with inflight := f, pos := p, prevS := prev, valueOut := s.valueOut ++ l } t) :
    decodeEnds d s t := by
  obtain ⟨p', prev', l', ⟨fb, r, h⟩ | ⟨ix, out, start, h⟩ | ⟨c, start, h⟩⟩ := h
  · exact ⟨p', prev', l ++ l', .inl ⟨fb, r, by rw [h, ← List.append_assoc]; rfl⟩⟩
  · exact ⟨p', prev', l ++ l', .inr (.inl ⟨ix, out, start, by rw [h, ← List.append_assoc]; rfl⟩)⟩
  · exact ⟨p', prev', l ++ l', .inr (.inr ⟨c, start, by rw [h, ← List.append_assoc]; rfl⟩)⟩

theorem decodeEnds_decodeBlock (d : Bool) (ix : Nat) (start : Word) (len sig : Nat) (s : State) :
    decodeEnds d s (decodeBlock d ix start len sig s) := by
  rcases decodeBlock_cases d ix start len sig s with ⟨c, _, h⟩ | ⟨ix', out, p, prev, h⟩
  · exact ⟨s.pos, s.prevS, [], .inr (.inr ⟨c, start, by simp [h]⟩)⟩
  · rw [h]
    exact decodeEnds.after (f := s.inflight) (p := p) (prev := prev) (l := [])
      (by simpa using decodeEnds_deliverLoop d ix' start out { s with pos := p, prevS := prev })

/-- A header code runs only where a DECODE_FRAME stands at a block boundary (R41, R115). -/
theorem atBoundary_of_runHeader {hd : Header} {s t : State} (h : runHeader hd s = .next t) : atBoundary s := by
  have hx : ∀ len sig, execHeader len sig s = .next t → atBoundary s := by
    intro len sig hx
    unfold execHeader at hx
    split at hx
    next d ix start hi => exact ⟨d, ix, start, hi⟩
    next => cases hx
  cases hd <;> exact hx _ _ h

theorem decodeEnds_runHeader {hd : Header} {s t : State} (h : runHeader hd s = .next t) : ∃ d, decodeEnds d s t := by
  obtain ⟨d, ix, start, hi⟩ := atBoundary_of_runHeader h
  rw [eq_decodeBlock_of_runHeader hi h]
  exact ⟨d, decodeEnds_decodeBlock d ix start _ _ s⟩

theorem decodeEnds_decodeLoop (d : Bool) : ∀ (fuel : Nat) (s t u : State), decodeEnds d s u →
    decodeLoop fuel u = .next t → decodeEnds d s t := by
  intro fuel
  induction fuel with
  | zero => intro s t u hu h; cases h; exact hu
  | succ fuel ih =>
    intro s t u hu h
    by_cases hb : atBoundary u
    · obtain ⟨p, prev, l, ⟨fb, r, hu⟩ | ⟨ix, out, start, hu⟩ | ⟨c, start, hu⟩⟩ := hu
      · obtain ⟨_, _, _, hi⟩ := hb
        simp [hu] at hi
      · have hi : u.inflight = some (.decode d ix out start) := by rw [hu]; rfl
        obtain ⟨d', ix', start', hi'⟩ := hb
        obtain ⟨rfl, rfl, rfl, rfl⟩ : d = d' ∧ ix = ix' ∧ out = [] ∧ start = start' := by simpa [hi] using hi'
        refine decodeEnds.after (f := some (.decode d ix [] start)) (p := p) (prev := prev) (l := l) ?_
        change u = _ at hu
        rw [show { s with
          inflight := some (.decode d ix [] start), pos := p, prevS := prev, valueOut := s.valueOut ++ l } = u from hu.symm]
        simp only [decodeLoop, hi] at h
        split at h
        · cases h
          exact ⟨u.pos, u.prevS, [], .inr (.inr ⟨_, _, by simp; rfl⟩)⟩
        · split at h
          next v hrun =>
            refine ih u t v ?_ h
            rw [eq_decodeBlock_of_runHeader hi hrun]
            exact decodeEnds_decodeBlock d ix start _ _ u
          next => cases h
          next => cases h
      · obtain ⟨_, _, _, hi⟩ := hb
        simp [hu] at hi
    · rw [decodeLoop_stays hb] at h
      cases h
      exact hu

/-- From the delivery of a block on. -/
theorem decodeEnds_decodeBlocks {d : Bool} {ix : Nat} {start : Word} {out : List Word} {s t : State}
    (h : decodeBlocks (deliverLoop d ix start out s) = .next t) : decodeEnds d s t :=
  decodeEnds_decodeLoop d _ s t _ (decodeEnds_deliverLoop d ix start out s) h

/-! ## What each instruction writes and how it ends -/

/-- `u` differs from `s` in nothing but what the instruction's rules let it write, ports moving one way; STATUS's error
fields and BUSY apart (R25 to R27, R31, R32, R42, R47). -/
def writes : Instr → State → State → Prop
  | .nop, s, u => u = s
  | .clrerr, s, u => u = clearError s
  | .setpos, s, u | .advance, s, u | .align, s, u => ∃ p, u = { s with pos := p }
  | .getpos, s, u | .readbit, s, u => ∃ r, u = { s with result := r }
  | .writebit, s, u => ∃ m, u = { s with buf := m }
  | .read _ _, s, u => ∃ p r, u = { s with pos := p, result := r }
  | .write _, s, u | .clear, s, u => ∃ m p, u = { s with buf := m, pos := p }
  | .append _, s, u => ∃ m p k, u = { s with buf := m, pos := p, valueIn := s.valueIn.drop k }
  | .extract _ _, s, u => ∃ p l, u = { s with pos := p, valueOut := s.valueOut ++ l }
  | .encodeFrame, s, u => ∃ m p prev k fs fb r, u = { s with
      buf := m, pos := p, prevS := prev, valueIn := s.valueIn.drop k, frameStart := fs, frameBits := fb, result := r }
  | .decodeFrame _, s, u | .h1, s, u | .h4 _, s, u | .h6 _, s, u | .h12 _, s, u =>
    ∃ p prev l fs fb r, u = { s with
      pos := p, prevS := prev, valueOut := s.valueOut ++ l, frameStart := fs, frameBits := fb, result := r }
  | .serialize, s, u => ∃ r l, u = { s with result := r, octetOut := s.octetOut ++ l }
  | .load, s, u => ∃ m lim p r k, u = { s with
      buf := m, limit := lim, pos := p, result := r, octetIn := s.octetIn.drop k }

/-- What an instruction that must wait leaves in flight (R40). -/
def holdsAs : Instr → InFlight → Prop
  | .append n, f => ∃ done, f = .append n done
  | .extract n sg, f => ∃ done, f = .extract n sg done
  | .serialize, f => ∃ done, f = .serialize done
  | .load, f => ∃ done, f = .load done
  | .encodeFrame, f => ∃ ix vals start, f = .encode ix vals start
  | .decodeFrame d, f => ∃ ix out start, f = .decode d ix out start
  | .h1, f | .h4 _, f | .h6 _, f | .h12 _, f => ∃ d ix out start, f = .decode d ix out start
  | _, _ => False

/-- How an instruction that started in `s` and wrote `u` ends: done, waiting, or with one error raised (R14, R137,
R139). -/
def endsAs (i : Instr) (s u t : State) : Prop :=
  t = retire u ∨ (∃ f, holdsAs i f ∧ t = hold f u) ∨ ∃ op c, u.result = s.result ∧ t = raise op c u

/-- A raise that nothing was written before. -/
theorem effect_of_raise {i : Instr} {s t : State} {op : BitVec 8} {c : Cause} (hwrites : writes i s s)
    (h : (.next (raise op c s) : Host.Outcome State Fault Refusal) = .next t) :
    ∃ u, writes i s u ∧ endsAs i s u t :=
  ⟨s, hwrites, .inr (.inr ⟨op, c, rfl, (Host.Outcome.next.inj h).symm⟩)⟩

/-- What was written before the end of an instruction that does not wait. -/
theorem effect_of_retire {i : Instr} {s u t : State} (hwrites : writes i s u)
    (h : (.next (retire u) : Host.Outcome State Fault Refusal) = .next t) :
    ∃ u, writes i s u ∧ endsAs i s u t :=
  ⟨u, hwrites, .inl (Host.Outcome.next.inj h).symm⟩

theorem effect_of_decodeEnds {i : Instr} {d : Bool} {s s' t : State}
    (hwrites : ∀ p prev l fb r, writes i s { s' with
      pos := p, prevS := prev, valueOut := s'.valueOut ++ l, frameBits := fb, result := r })
    (hholds : ∀ ix out start, holdsAs i (.decode d ix out start)) (hres : s'.result = s.result)
    (h : decodeEnds d s' t) : ∃ u, writes i s u ∧ endsAs i s u t := by
  obtain ⟨p, prev, l, ⟨fb, r, h⟩ | ⟨ix, out, start, h⟩ | ⟨c, start, h⟩⟩ := h
  · exact ⟨_, hwrites p prev l fb r, .inl h⟩
  · exact ⟨_, hwrites p prev l s'.frameBits s'.result, .inr (.inl ⟨_, hholds ix out start, h⟩)⟩
  · exact ⟨_, hwrites start prev l s'.frameBits s'.result, .inr (.inr ⟨_, c, hres, h⟩)⟩

theorem writes_self (i : Instr) (s : State) (h : i ≠ .clrerr) : writes i s s := by
  cases i with
  | clrerr => exact absurd rfl h
  | nop => rfl
  | setpos | advance | align => exact ⟨s.pos, rfl⟩
  | getpos | readbit => exact ⟨s.result, rfl⟩
  | writebit => exact ⟨s.buf, rfl⟩
  | read => exact ⟨s.pos, s.result, rfl⟩
  | write | clear => exact ⟨s.buf, s.pos, rfl⟩
  | append => exact ⟨s.buf, s.pos, 0, rfl⟩
  | extract => exact ⟨s.pos, [], by simp⟩
  | encodeFrame => exact ⟨s.buf, s.pos, s.prevS, 0, s.frameStart, s.frameBits, s.result, rfl⟩
  | decodeFrame | h1 | h4 | h6 | h12 => exact ⟨s.pos, s.prevS, [], s.frameStart, s.frameBits, s.result, by simp⟩
  | serialize => exact ⟨s.result, [], by simp⟩
  | load => exact ⟨s.buf, s.limit, s.pos, s.result, 0, rfl⟩

theorem effect_appendLoop (n : BitVec 7) (left : Nat) (s : State) :
    ∃ u, writes (.append n) s u ∧ endsAs (.append n) s u (appendLoop n left s) := by
  obtain ⟨m, p, k, h | ⟨done, h⟩⟩ := appendLoop_ends n left s
  · exact ⟨_, ⟨m, p, k, rfl⟩, .inl h⟩
  · exact ⟨_, ⟨m, p, k, rfl⟩, .inr (.inl ⟨_, ⟨done, rfl⟩, h⟩)⟩

theorem effect_extractLoop (n : BitVec 7) (sg : Bool) (left : Nat) (s : State) :
    ∃ u, writes (.extract n sg) s u ∧ endsAs (.extract n sg) s u (extractLoop n sg left s) := by
  obtain ⟨p, l, h | ⟨done, h⟩⟩ := extractLoop_ends n sg left s
  · exact ⟨_, ⟨p, l, rfl⟩, .inl h⟩
  · exact ⟨_, ⟨p, l, rfl⟩, .inr (.inl ⟨_, ⟨done, rfl⟩, h⟩)⟩

theorem effect_serializeLoop (left : Nat) (s : State) :
    ∃ u, writes .serialize s u ∧ endsAs .serialize s u (serializeLoop left s) := by
  obtain ⟨r, l, h | ⟨done, h⟩⟩ := serializeLoop_ends left s
  · exact ⟨_, ⟨r, l, rfl⟩, .inl h⟩
  · exact ⟨_, ⟨r, l, rfl⟩, .inr (.inl ⟨_, ⟨done, rfl⟩, h⟩)⟩

theorem effect_loadLoop (left : Nat) (s : State) :
    ∃ u, writes .load s u ∧ endsAs .load s u (loadLoop left s) := by
  obtain ⟨m, lim, p, r, k, h | ⟨done, h⟩⟩ := loadLoop_ends left s
  · exact ⟨_, ⟨m, lim, p, r, k, rfl⟩, .inl h⟩
  · exact ⟨_, ⟨m, lim, p, r, k, rfl⟩, .inr (.inl ⟨_, ⟨done, rfl⟩, h⟩)⟩

/-- The frame start has written BUF, POS, FRAME_START and PREV_S, none of which RESULT depends on. -/
theorem effect_encodeLoop {s s' : State} {left : Nat} {vals : List Word} {start : Word}
    (hstart : ∃ m p fs prev, s' = { s with buf := m, pos := p, frameStart := fs, prevS := prev }) :
    ∃ u, writes .encodeFrame s u ∧ endsAs .encodeFrame s u (encodeLoop left vals start s') := by
  obtain ⟨_, _, fs, _, rfl⟩ := hstart
  obtain ⟨m, p, prev, k, ⟨r, h⟩ | ⟨ix, vals', start', h⟩ | ⟨c, h⟩⟩ := encodeLoop_ends left vals start _
  · exact ⟨_, ⟨m, p, prev, k, fs, r, r, rfl⟩, .inl h⟩
  · exact ⟨_, ⟨m, p, prev, k, fs, s.frameBits, s.result, rfl⟩, .inr (.inl ⟨_, ⟨ix, vals', start', rfl⟩, h⟩)⟩
  · exact ⟨_, ⟨m, p, prev, k, fs, s.frameBits, s.result, rfl⟩, .inr (.inr ⟨_, c, rfl, h⟩)⟩

theorem effect_runHeader {hd : Header} {s t : State} (h : runHeader hd s = .next t) :
    ∃ u, writes hd.toInstr s u ∧ endsAs hd.toInstr s u t := by
  obtain ⟨d, hends⟩ := decodeEnds_runHeader h
  refine effect_of_decodeEnds (d := d) (s' := s) (fun p prev l fb r => ?_) (fun ix out start => ?_) rfl hends
  · cases hd <;> exact ⟨p, prev, l, s.frameStart, fb, r, rfl⟩
  · cases hd <;> exact ⟨d, ix, out, start, rfl⟩

/-- Every instruction that answers a state has written only what it may, and is done, waits, or has raised one error. -/
theorem effect_of_exec {i : Instr} {s t : State} (h : exec i s = .next t) : ∃ u, writes i s u ∧ endsAs i s u t := by
  cases i with
  | nop => exact effect_of_retire (u := s) rfl h
  | clrerr => exact effect_of_retire (u := clearError s) rfl h
  | getpos => exact effect_of_retire ⟨_, rfl⟩ h
  | align => exact effect_of_retire ⟨_, rfl⟩ h
  | clear => exact effect_of_retire ⟨_, _, rfl⟩ h
  | setpos =>
    simp only [exec, execSetpos] at h
    split at h
    · exact effect_of_raise (writes_self _ s (by simp)) h
    · exact effect_of_retire ⟨_, rfl⟩ h
  | advance =>
    simp only [exec, execAdvance] at h
    split at h
    · exact effect_of_raise (writes_self _ s (by simp)) h
    · exact effect_of_retire ⟨_, rfl⟩ h
  | readbit =>
    simp only [exec, execReadbit] at h
    split at h
    · exact effect_of_raise (writes_self _ s (by simp)) h
    · exact effect_of_retire ⟨_, rfl⟩ h
  | writebit =>
    simp only [exec, execWritebit] at h
    split at h
    · exact effect_of_raise (writes_self _ s (by simp)) h
    · exact effect_of_retire ⟨_, rfl⟩ h
  | read n sg =>
    simp only [exec, execRead] at h
    split_ifs at h
    · exact effect_of_raise (writes_self _ s (by simp)) h
    · exact effect_of_raise (writes_self _ s (by simp)) h
    · exact effect_of_retire ⟨_, _, rfl⟩ h
  | write n =>
    simp only [exec, execWrite] at h
    split_ifs at h
    · exact effect_of_raise (writes_self _ s (by simp)) h
    · exact effect_of_raise (writes_self _ s (by simp)) h
    · exact effect_of_retire ⟨_, _, rfl⟩ h
  | append n =>
    simp only [exec, execAppend] at h
    split_ifs at h
    · exact effect_of_raise (writes_self _ s (by simp)) h
    · exact effect_of_raise (writes_self _ s (by simp)) h
    · cases h
      exact effect_appendLoop n _ s
  | extract n sg =>
    simp only [exec, execExtract] at h
    split_ifs at h
    · exact effect_of_raise (writes_self _ s (by simp)) h
    · exact effect_of_raise (writes_self _ s (by simp)) h
    · cases h
      exact effect_extractLoop n sg _ s
  | serialize =>
    simp only [exec, execSerialize] at h
    split_ifs at h
    cases h
    exact effect_serializeLoop _ s
  | load =>
    simp only [exec, execLoad] at h
    split_ifs at h
    · exact effect_of_raise (writes_self _ s (by simp)) h
    · cases h
      exact effect_loadLoop _ s
  | encodeFrame =>
    simp only [exec, execEncodeFrame] at h
    split_ifs at h
    · cases h
      exact effect_encodeLoop ⟨_, _, _, _, rfl⟩
    · exact effect_of_raise (writes_self _ s (by simp)) h
    · exact effect_of_raise (writes_self _ s (by simp)) h
  | decodeFrame d =>
    simp only [exec, execDecodeFrame] at h
    split_ifs at h
    · exact effect_of_raise (writes_self _ s (by simp)) h
    · exact effect_of_raise (writes_self _ s (by simp)) h
    · exact effect_of_decodeEnds (s' := decodeStart s) (fun p prev l fb r => ⟨p, prev, l, _, fb, r, rfl⟩)
        (fun ix out start => ⟨ix, out, start, rfl⟩) rfl (decodeEnds_decodeBlocks h)
    · exact effect_of_raise (writes_self _ s (by simp)) h
    · exact effect_of_raise (writes_self _ s (by simp)) h
  | h1 => exact effect_runHeader (hd := .h1) h
  | h4 b3 => exact effect_runHeader (hd := .h4 b3) h
  | h6 b2 => exact effect_runHeader (hd := .h6 b2) h
  | h12 b6 => exact effect_runHeader (hd := .h12 b6) h

end Sys2Proof.Machine
end

section
/-! PROOFS. The whole machine's frame: what no instruction writes, what only the commands named write, and that an
instruction records at most one error (R23 to R32, R42, R47, R139, R157). -/

namespace Sys2Proof.Machine

/-- The end of an instruction writes nothing but BUSY and the error fields. -/
theorem endsAs.eq {i : Instr} {s u t : State} (h : endsAs i s u t) : ∃ f e es eo fl,
    t = { u with inflight := f, err := e, errSub := es, errOp := eo, faults := fl } := by
  obtain rfl | ⟨f, _, rfl⟩ | ⟨op, c, _, rfl⟩ := h <;> exact ⟨_, _, _, _, _, rfl⟩

/-- What an instruction writes, its end included. -/
theorem writes_of_exec {i : Instr} {s t : State} (h : exec i s = .next t) : ∃ u f e es eo fl, writes i s u ∧
    t = { u with inflight := f, err := e, errSub := es, errOp := eo, faults := fl } := by
  obtain ⟨u, hw, hends⟩ := effect_of_exec h
  obtain ⟨f, e, es, eo, fl, ht⟩ := hends.eq
  exact ⟨u, f, e, es, eo, fl, hw, ht⟩

/-- From `s` to `t` the host's registers, the parameters and the host's own list are kept, input ports are only popped and
output ports only pushed (R23, R24, R28, R30, R42). -/
def hostKept (s t : State) : Prop :=
  t.arg = s.arg ∧ t.cnt = s.cnt ∧ t.cfg = s.cfg ∧ t.nvalues = s.nvalues ∧ t.par = s.par ∧ t.host = s.host ∧
    t.seen = s.seen ∧ t.draws = s.draws ∧
    (∃ k, t.valueIn = s.valueIn.drop k) ∧ (∃ k, t.octetIn = s.octetIn.drop k) ∧
    (∃ l, t.valueOut = s.valueOut ++ l) ∧ (∃ l, t.octetOut = s.octetOut ++ l)

theorem writes_hostKept {i : Instr} {s u : State} (h : writes i s u) : hostKept s u := by
  have hvin : ∃ k, s.valueIn = s.valueIn.drop k := ⟨0, rfl⟩
  have hoin : ∃ k, s.octetIn = s.octetIn.drop k := ⟨0, rfl⟩
  have hvout : ∃ l, s.valueOut = s.valueOut ++ l := ⟨[], (List.append_nil _).symm⟩
  have hoout : ∃ l, s.octetOut = s.octetOut ++ l := ⟨[], (List.append_nil _).symm⟩
  cases i with
  | nop =>
    cases h
    exact ⟨rfl, rfl, rfl, rfl, rfl, rfl, rfl, rfl, hvin, hoin, hvout, hoout⟩
  | clrerr =>
    cases h
    exact ⟨rfl, rfl, rfl, rfl, rfl, rfl, rfl, rfl, hvin, hoin, hvout, hoout⟩
  | setpos | advance | align | getpos | readbit | writebit =>
    obtain ⟨_, rfl⟩ := h
    exact ⟨rfl, rfl, rfl, rfl, rfl, rfl, rfl, rfl, hvin, hoin, hvout, hoout⟩
  | read | write | clear =>
    obtain ⟨_, _, rfl⟩ := h
    exact ⟨rfl, rfl, rfl, rfl, rfl, rfl, rfl, rfl, hvin, hoin, hvout, hoout⟩
  | append =>
    obtain ⟨_, _, k, rfl⟩ := h
    exact ⟨rfl, rfl, rfl, rfl, rfl, rfl, rfl, rfl, ⟨k, rfl⟩, hoin, hvout, hoout⟩
  | extract =>
    obtain ⟨_, l, rfl⟩ := h
    exact ⟨rfl, rfl, rfl, rfl, rfl, rfl, rfl, rfl, hvin, hoin, ⟨l, rfl⟩, hoout⟩
  | encodeFrame =>
    obtain ⟨_, _, _, k, _, _, _, rfl⟩ := h
    exact ⟨rfl, rfl, rfl, rfl, rfl, rfl, rfl, rfl, ⟨k, rfl⟩, hoin, hvout, hoout⟩
  | decodeFrame | h1 | h4 | h6 | h12 =>
    obtain ⟨_, _, l, _, _, _, rfl⟩ := h
    exact ⟨rfl, rfl, rfl, rfl, rfl, rfl, rfl, rfl, hvin, hoin, ⟨l, rfl⟩, hoout⟩
  | serialize =>
    obtain ⟨_, l, rfl⟩ := h
    exact ⟨rfl, rfl, rfl, rfl, rfl, rfl, rfl, rfl, hvin, hoin, hvout, ⟨l, rfl⟩⟩
  | load =>
    obtain ⟨_, _, _, _, k, rfl⟩ := h
    exact ⟨rfl, rfl, rfl, rfl, rfl, rfl, rfl, rfl, hvin, ⟨k, rfl⟩, hvout, hoout⟩

/-- STATUS but for BUSY is CLRERR's to clear and an error's to set. -/
theorem writes_statusKept {i : Instr} {s u : State} (h : writes i s u) (hi : i ≠ .clrerr) :
    u.ovr = s.ovr ∧ errorsKept s u := by
  cases i with
  | clrerr => exact absurd rfl hi
  | nop => cases h; exact ⟨rfl, .refl s⟩
  | setpos | advance | align | getpos | readbit | writebit => obtain ⟨_, rfl⟩ := h; exact ⟨rfl, rfl, rfl, rfl, rfl⟩
  | read | write | clear | extract | serialize => obtain ⟨_, _, rfl⟩ := h; exact ⟨rfl, rfl, rfl, rfl, rfl⟩
  | append => obtain ⟨_, _, _, rfl⟩ := h; exact ⟨rfl, rfl, rfl, rfl, rfl⟩
  | encodeFrame => obtain ⟨_, _, _, _, _, _, _, rfl⟩ := h; exact ⟨rfl, rfl, rfl, rfl, rfl⟩
  | decodeFrame | h1 | h4 | h6 | h12 => obtain ⟨_, _, _, _, _, _, rfl⟩ := h; exact ⟨rfl, rfl, rfl, rfl, rfl⟩
  | load => obtain ⟨_, _, _, _, _, rfl⟩ := h; exact ⟨rfl, rfl, rfl, rfl, rfl⟩

theorem exec_hostKept {i : Instr} {s t : State} (h : exec i s = .next t) : hostKept s t := by
  obtain ⟨u, f, e, es, eo, fl, hw, rfl⟩ := writes_of_exec h
  exact (writes_hostKept hw : hostKept s u)

/-- Settles O57: none of these fields is among those any instruction writes. -/
theorem commandsLeaveHostRegisters : Obligations.CommandsLeaveHostRegisters := by
  unfold Obligations.CommandsLeaveHostRegisters
  intro i s t h
  have hovr : i ≠ .clrerr → t.ovr = s.ovr := fun hi => by
    obtain ⟨u, f, e, es, eo, fl, hw, rfl⟩ := writes_of_exec h
    exact (writes_statusKept hw hi).1
  obtain ⟨harg, hcnt, hcfg, hnvalues, hpar, hhost, hseen, hdraws, hports⟩ := exec_hostKept h
  exact ⟨harg, hcnt, hcfg, hnvalues, hpar, hhost, hseen, hdraws, hovr, hports⟩

theorem decodes_decodeFrame (d : Bool) : decodes (.decodeFrame d) := .inl ⟨d, rfl⟩
theorem decodes_h1 : decodes .h1 := .inr ⟨.h1, rfl⟩
theorem decodes_h4 (b3 : Fin 7) : decodes (.h4 b3) := .inr ⟨.h4 b3, rfl⟩
theorem decodes_h6 (b2 : Fin 3) : decodes (.h6 b2) := .inr ⟨.h6 b2, rfl⟩
theorem decodes_h12 (b6 : BitVec 6) : decodes (.h12 b6) := .inr ⟨.h12 b6, rfl⟩

/-- Whether an instruction is DECODE_FRAME or one of its header codes, by its constructor. -/
def isDecoding : Instr → Bool
  | .decodeFrame _ | .h1 | .h4 _ | .h6 _ | .h12 _ => true
  | _ => false

theorem not_decodes {i : Instr} (h : isDecoding i = false) : ¬decodes i := by
  rintro (⟨d, rfl⟩ | ⟨hd, rfl⟩)
  · cases h
  · cases hd <;> cases h

/-- Settles O58: each field an instruction writes is one the rules give to it. -/
theorem onlyNamedCommandsWrite : Obligations.OnlyNamedCommandsWrite := by
  unfold Obligations.OnlyNamedCommandsWrite
  intro i s t h
  obtain ⟨u, f, e, es, eo, fl, hw, rfl⟩ := writes_of_exec h
  cases i with
  | nop => cases hw; simp
  | clrerr => cases hw; simp
  | setpos | advance | align | getpos | readbit | writebit => obtain ⟨_, rfl⟩ := hw; simp
  | read | write | clear | extract | serialize => obtain ⟨_, _, rfl⟩ := hw; simp
  | append => obtain ⟨_, _, _, rfl⟩ := hw; simp
  | encodeFrame => obtain ⟨_, _, _, _, _, _, _, rfl⟩ := hw; simp
  | decodeFrame d => obtain ⟨_, _, _, _, _, _, rfl⟩ := hw; simp [decodes_decodeFrame]
  | h1 => obtain ⟨_, _, _, _, _, _, rfl⟩ := hw; simp [decodes_h1]
  | h4 => obtain ⟨_, _, _, _, _, _, rfl⟩ := hw; simp [decodes_h4]
  | h6 => obtain ⟨_, _, _, _, _, _, rfl⟩ := hw; simp [decodes_h6]
  | h12 => obtain ⟨_, _, _, _, _, _, rfl⟩ := hw; simp [decodes_h12]
  | load => obtain ⟨_, _, _, _, _, rfl⟩ := hw; simp

theorem errCode_ne_zero (c : Cause) : errCode c ≠ 0#4 := by cases c <;> decide

/-- Settles O59: an instruction ends done or waiting, which raises nothing, or by one raise. -/
theorem errorsAreRecordedOnce : Obligations.ErrorsAreRecordedOnce := by
  unfold Obligations.ErrorsAreRecordedOnce
  intro i s t h hi
  obtain ⟨u, hw, hends⟩ := effect_of_exec h
  obtain ⟨_, hkept⟩ := writes_statusKept hw hi
  obtain rfl | ⟨f, _, rfl⟩ | ⟨op, c, hres, rfl⟩ := hends
  · exact .inl hkept
  · exact .inl hkept
  · obtain ⟨_, _, _, hfaults⟩ := hkept
    exact .inr ⟨rfl, errCode_ne_zero c, hres, by rw [raise_faults, hfaults]; rfl⟩

end Sys2Proof.Machine
end

section
/-! PROOFS. Whose turn a step is and what it runs: an issued command, a header code at a block boundary, a command that had
to wait; NOP and CLRERR; a header code outside DECODE_FRAME, and blocks that LIMIT cuts off (R14, R16, R21, R40, R41, R79,
R115 to R117, R123, R134, R135). -/

namespace Sys2Proof.Machine

/-! ## NOP and CLRERR -/

/-- Settles O13. -/
theorem nopChangesNothing : Obligations.NopChangesNothing := by
  unfold Obligations.NopChangesNothing
  exact fun s => ⟨retire s, rfl, rfl, sameBits_of_buf_eq rfl⟩

/-- Settles O14: the state left is idle with nothing recorded in STATUS. -/
theorem clrerrClearsStatusOnly : Obligations.ClrerrClearsStatusOnly := by
  unfold Obligations.ClrerrClearsStatusOnly
  exact fun s => ⟨retire (clearError s), rfl, statusWord_of_idle_clear rfl rfl rfl rfl rfl, rfl, sameBits_of_buf_eq rfl⟩

/-! ## The engine's turn -/

theorem engineTurn_of_issued {s : State} {w : Word} {i : Instr} (hissued : s.inflight = some (.issued w))
    (hdec : decodeCommand w = .ok i) : engineTurn s = exec i s := by
  simp only [engineTurn, hissued, hdec]

/-- Settles O9. -/
theorem stepRunsIssuedCommand : Obligations.StepRunsIssuedCommand := by
  unfold Obligations.StepRunsIssuedCommand
  refine fun s w i hissued hdec => ⟨fun hwaits => ?_, fun rest hpass => ?_⟩
  · rw [step_of_hostWaits hwaits, engineTurn_of_issued hissued hdec]
  · rw [step_of_pass hpass, engineTurn_of_issued (s := { s with host := rest }) hissued hdec]

theorem engineTurn_of_header {s : State} {hd : Header} (hb : atBoundary s) (hfetch : fetchHeader s = some hd) :
    engineTurn s = decodeOn (exec hd.toInstr s) := by
  obtain ⟨d, ix, start, hi⟩ := hb
  simp only [engineTurn, hi, hfetch]

/-- Settles O10: from a block boundary on, the step and the engine's turn are the blocks still to come. -/
theorem stepRunsHeaderAtPos : Obligations.StepRunsHeaderAtPos := by
  unfold Obligations.StepRunsHeaderAtPos
  intro s hd hb hfetch
  have hturn := engineTurn_of_header hb hfetch
  refine ⟨fun hwaits => ?_, fun rest hpass => ?_, fun t ht => ⟨fun hnil hbt => ?_, fun hwaits hbt => ?_⟩⟩
  · rw [step_of_hostWaits hwaits, hturn]
  · rw [step_of_pass hpass]
    exact engineTurn_of_header (s := { s with host := rest }) hb hfetch
  · obtain ⟨_, _, _, _, _, hhost, _⟩ := exec_hostKept ht
    rw [step_of_hostWaits (hostWaits_of_nil hnil), hturn, ht,
      step_of_hostWaits (hostWaits_of_nil (hhost.trans hnil)), engineTurn_of_boundary hbt]
    rfl
  · rw [step_of_hostWaits hwaits, hturn, ht]
    exact decodeBlocks_stays hbt

theorem engineTurn_of_waiting {s : State} {f : InFlight} (hf : s.inflight = some f) (hissued : ∀ w, f ≠ .issued w)
    (hb : ¬atBoundary s) : engineTurn s = resume f s := by
  unfold engineTurn
  split
  next hi => cases hf.symm.trans hi
  next w hi => cases hf.symm.trans hi; exact absurd rfl (hissued w)
  next d ix start hi => exact absurd ⟨d, ix, start, hi⟩ hb
  next g _ _ hi => cases hf.symm.trans hi; rfl

/-! ## No step stops at a block boundary -/

theorem not_atBoundary_of_idle {s : State} (h : s.inflight = none) : ¬atBoundary s := by
  rintro ⟨d, ix, start, hi⟩
  cases h.symm.trans hi

/-- Only DECODE_FRAME and its header codes can leave a DECODE_FRAME in flight. -/
theorem endsAs.not_atBoundary {i : Instr} {s u t : State} (h : endsAs i s u t) (hi : ¬decodes i) : ¬atBoundary t := by
  rintro ⟨d, ix, start, hd⟩
  obtain rfl | ⟨f, hf, rfl⟩ | ⟨op, c, _, rfl⟩ := h
  · cases hd
  · cases hd
    cases i with
    | append | extract | serialize | load => obtain ⟨_, hf⟩ := hf; cases hf
    | encodeFrame => obtain ⟨_, _, _, hf⟩ := hf; cases hf
    | decodeFrame d => exact hi (decodes_decodeFrame d)
    | h1 => exact hi decodes_h1
    | h4 b3 => exact hi (decodes_h4 b3)
    | h6 b2 => exact hi (decodes_h6 b2)
    | h12 b6 => exact hi (decodes_h12 b6)
    | _ => exact hf
  · cases hd

/-- A command word stands for no header code. -/
theorem ne_toInstr_of_decodeCommand {w : Word} {i : Instr} (h : decodeCommand w = .ok i) (hd : Header) :
    i ≠ hd.toInstr := by
  rintro rfl
  obtain ⟨_, henc⟩ := commandWordsAreCanonical w _ h
  rw [encode_toInstr] at henc
  cases henc

theorem exec_decodeFrame_not_atBoundary {d : Bool} {s t : State} (h : exec (.decodeFrame d) s = .next t) :
    ¬atBoundary t := by
  simp only [exec, execDecodeFrame] at h
  split_ifs at h
  · cases h; exact not_atBoundary_of_idle rfl
  · cases h; exact not_atBoundary_of_idle rfl
  · exact decodeBlocks_passes h
  · cases h; exact not_atBoundary_of_idle rfl
  · cases h; exact not_atBoundary_of_idle rfl

theorem exec_command_not_atBoundary {w : Word} {i : Instr} {s t : State} (hdec : decodeCommand w = .ok i)
    (h : exec i s = .next t) : ¬atBoundary t := by
  by_cases hd : ∃ d, i = .decodeFrame d
  · obtain ⟨d, rfl⟩ := hd
    exact exec_decodeFrame_not_atBoundary h
  · obtain ⟨u, _, hends⟩ := effect_of_exec h
    exact hends.not_atBoundary fun hi => hi.elim hd fun ⟨hd, heq⟩ => ne_toInstr_of_decodeCommand hdec hd heq

/-- A command that goes on ends as one that starts does. -/
theorem resume_not_atBoundary {f : InFlight} {s t : State} (hissued : ∀ w, f ≠ .issued w) (h : resume f s = .next t) :
    ¬atBoundary t := by
  cases f with
  | issued w => exact absurd rfl (hissued w)
  | append n done =>
    simp only [resume, resumeAppend] at h
    split_ifs at h
    cases h
    obtain ⟨u, _, hends⟩ := effect_appendLoop n (s.cnt.toNat - done) s
    exact hends.not_atBoundary (not_decodes rfl)
  | extract n sg done =>
    simp only [resume, resumeExtract] at h
    split_ifs at h
    cases h
    obtain ⟨u, _, hends⟩ := effect_extractLoop n sg (s.cnt.toNat - done) s
    exact hends.not_atBoundary (not_decodes rfl)
  | serialize done =>
    simp only [resume, resumeSerialize] at h
    split_ifs at h
    cases h
    obtain ⟨u, _, hends⟩ := effect_serializeLoop (payloadOctets s - done) s
    exact hends.not_atBoundary (not_decodes rfl)
  | load done =>
    simp only [resume, resumeLoad] at h
    split_ifs at h
    cases h
    obtain ⟨u, _, hends⟩ := effect_loadLoop (s.cnt.toNat - done) s
    exact hends.not_atBoundary (not_decodes rfl)
  | encode ix vals start =>
    cases h
    obtain ⟨u, _, hends⟩ := effect_encodeLoop (s := s) (s' := s) (left := s.nvalues.toNat - ix) (vals := vals)
      (start := start) ⟨_, _, _, _, rfl⟩
    exact hends.not_atBoundary (not_decodes rfl)
  | decode d ix out start => exact decodeBlocks_passes h

theorem engineTurn_not_atBoundary {s t : State} (h : engineTurn s = .next t) : ¬atBoundary t := by
  by_cases hb : atBoundary s
  · rw [engineTurn_of_boundary hb] at h
    exact decodeBlocks_passes h
  · cases hf : s.inflight with
    | none =>
      simp only [engineTurn, hf] at h
      cases h
      exact hb
    | some f =>
      by_cases hissued : ∃ w, f = .issued w
      · obtain ⟨w, rfl⟩ := hissued
        cases hdec : decodeCommand w with
        | ok i =>
          rw [engineTurn_of_issued hf hdec] at h
          exact exec_command_not_atBoundary hdec h
        | error r =>
          simp only [engineTurn, hf, hdec] at h
          cases h
          exact not_atBoundary_of_idle rfl
      · have hissued' : ∀ w, f ≠ .issued w := fun w hw => hissued ⟨w, hw⟩
        rw [engineTurn_of_waiting hf hissued' hb] at h
        exact resume_not_atBoundary hissued' h

/-- Settles O11. -/
theorem stepGoesOnAfterWait : Obligations.StepGoesOnAfterWait := by
  unfold Obligations.StepGoesOnAfterWait
  refine fun s => ⟨fun f hf hissued hb => ⟨fun hwaits => ?_, fun rest hpass => ?_⟩, fun hidle hnil => ?_,
    fun t hwaits h => ?_⟩
  · rw [step_of_hostWaits hwaits, engineTurn_of_waiting hf hissued hb]
  · rw [step_of_pass hpass]
    exact engineTurn_of_waiting (s := { s with host := rest }) hf hissued hb
  · rw [step_of_hostWaits (hostWaits_of_nil hnil)]
    simp only [engineTurn, hidle]
  · rw [step_of_hostWaits hwaits] at h
    exact engineTurn_not_atBoundary h

/-! ## Header codes outside DECODE_FRAME, and blocks cut off -/

theorem execHeader_of_not_boundary {s : State} (h : ∀ d ix start, s.inflight ≠ some (.decode d ix [] start))
    (len sig : Nat) : execHeader len sig s = .refused .headerOutsideDecode := by
  unfold execHeader
  split
  next d ix start hi => exact absurd hi (h d ix start)
  next => rfl

/-- Settles O60: every header code first asks whether a DECODE_FRAME stands at a block boundary. -/
theorem headerOutsideDecodeIsRefused : Obligations.HeaderOutsideDecodeIsRefused := by
  unfold Obligations.HeaderOutsideDecodeIsRefused
  intro s hd h
  cases hd <;> exact execHeader_of_not_boundary h _ _

section Cut
variable {d : Bool} {ix len sig : Nat} {start : Word} {s : State}

theorem decodeBlock_of_header_cut (h : s.limit.toNat < s.pos.toNat + len) :
    decodeBlock d ix start len sig s = corruptBlock .corruptTruncated start s := if_pos h

theorem decodeBlock_of_wide (hlen : s.pos.toNat + len ≤ s.limit.toNat) (h : 64 < sig) :
    decodeBlock d ix start len sig s = corruptBlock .corruptWidth start s :=
  (if_neg (Nat.not_lt.2 hlen)).trans (if_pos h)

theorem decodeBlock_of_body_cut (hlen : s.pos.toNat + len ≤ s.limit.toNat) (hsig : sig ≤ 64)
    (h : s.limit.toNat < s.pos.toNat + len + min (cfgBlock s.cfg) (s.nvalues.toNat - ix) * sig) :
    decodeBlock d ix start len sig s = corruptBlock .corruptTruncated start s :=
  (if_neg (Nat.not_lt.2 hlen)).trans ((if_neg (Nat.not_lt.2 hsig)).trans (if_pos h))

end Cut

/-- Settles O41: the three ways a block is abandoned, in R143's order; with no header to fetch the step is the first. -/
theorem corruptBlockIsAbandoned : Obligations.CorruptBlockIsAbandoned := by
  unfold Obligations.CorruptBlockIsAbandoned
  intro s hd d ix start hi
  refine ⟨fun hnone hwaits => ⟨corruptBlock .corruptTruncated start s, ?_, rfl⟩, fun hlim => ?_⟩
  · rw [step_of_hostWaits hwaits]
    simp only [engineTurn, hi, hnone]
  · rw [exec_toInstr, runHeader_boundary hd hi hlim]
    refine ⟨fun hcut => ⟨_, congrArg _ (decodeBlock_of_header_cut hcut), rfl⟩,
      fun hlen hwide => ⟨_, congrArg _ (decodeBlock_of_wide hlen hwide), rfl⟩,
      fun hlen hsig hcut => ⟨_, congrArg _ (decodeBlock_of_body_cut hlen hsig hcut), rfl⟩⟩

end Sys2Proof.Machine
end

section
/-! PROOFS. The host's registers and ports: what a write stores, what a read gives, and that the ports are FIFOs; the state
after reset is sound (R19 to R35, R45). -/

namespace Sys2Proof.Machine

/-! ## Register writes -/

theorem busy_iff (s : State) : busy s = true ↔ s.inflight ≠ none := Option.isSome_iff_ne_none

theorem busy_of_idle {s : State} (h : s.inflight = none) : busy s = false := by simp [busy, h]

theorem isRegister_iff (off : Nat) : isRegister off = true ↔ off % 8 = 0 ∧ off ≤ 0x68 := by simp [isRegister]

/-- While BUSY = 1 a write at a register's offset sets OVR, and no other write has an effect (R45, R19). -/
theorem hostWrite_of_busy {s : State} (h : s.inflight ≠ none) (off : Nat) (v : Word) :
    hostWrite off v s = if off % 8 = 0 ∧ off ≤ 0x68 then { s with ovr := true } else s := by
  unfold hostWrite
  rw [if_pos ((busy_iff s).2 h)]
  simp only [isRegister_iff]

/-- While BUSY = 0 a write at an offset of no register that takes one has no effect (R19, R34). -/
theorem hostWrite_ignored {s : State} (h : s.inflight = none) {off : Nat} (v : Word)
    (hoff : off ≠ 0x00 ∧ off ≠ 0x10 ∧ off ≠ 0x18 ∧ off ≠ 0x30 ∧ off ≠ 0x38 ∧ off ≠ 0x40) : hostWrite off v s = s := by
  obtain ⟨hcmd, harg, hcnt, hlimit, hcfg, hnvalues⟩ := hoff
  unfold hostWrite
  rw [if_neg (by simp [busy_of_idle h])]
  split
  next => exact absurd rfl hcmd
  next => exact absurd rfl harg
  next => exact absurd rfl hcnt
  next => exact absurd rfl hlimit
  next => exact absurd rfl hcfg
  next => exact absurd rfl hnvalues
  next => rfl

section IdleWrite
variable {s : State} (h : s.inflight = none) (v : Word)
include h

theorem hostWrite_arg : hostWrite 0x10 v s = { s with arg := v } := if_neg (by simp [busy_of_idle h])
theorem hostWrite_cnt : hostWrite 0x18 v s = { s with cnt := v } := if_neg (by simp [busy_of_idle h])
theorem hostWrite_nvalues : hostWrite 0x40 v s = { s with nvalues := v } := if_neg (by simp [busy_of_idle h])
theorem hostWrite_cfg : hostWrite 0x38 v s = { s with cfg := v &&& cfgMask } := if_neg (by simp [busy_of_idle h])
theorem hostWrite_limit : hostWrite 0x30 v s = { s with limit := BitVec.ofNat 64 (min v.toNat (capOf s)) } :=
  if_neg (by simp [busy_of_idle h])

end IdleWrite

/-- The bits of CFG that are kept: 19 to 0 but for bit 15 (R28). -/
theorem getLsbD_cfgMask {i : Nat} (hi : i < 64) : cfgMask.getLsbD i = decide (i < 20 ∧ i ≠ 15) := by
  have hall : ∀ j : Fin 64, cfgMask.getLsbD j.val = decide (j.val < 20 ∧ j.val ≠ 15) := by decide
  exact hall ⟨i, hi⟩

/-- Settles O49: the step is the write, whose rule is BUSY's or the offset's. -/
theorem hostRegisterWrites : Obligations.HostRegisterWrites := by
  unfold Obligations.HostRegisterWrites
  intro s off v rest hhost
  rw [step_of_write hhost]
  refine ⟨fun hbusy => ?_, fun hidle => ⟨?_, ?_, ?_, ?_, ?_, ?_⟩⟩
  · rw [hostWrite_of_busy (s := { s with host := rest }) hbusy]
    exact ⟨fun hreg => by rw [if_pos hreg], fun hreg => by rw [if_neg hreg]⟩
  · rintro rfl
    rw [hostWrite_arg (s := { s with host := rest }) hidle]
  · rintro rfl
    rw [hostWrite_cnt (s := { s with host := rest }) hidle]
  · rintro rfl
    rw [hostWrite_nvalues (s := { s with host := rest }) hidle]
  · rintro rfl
    rw [hostWrite_limit (s := { s with host := rest }) hidle]
    exact ⟨_, rfl, rfl, toNat_ofNat_lt (Nat.lt_of_le_of_lt (Nat.min_le_left _ _) v.isLt)⟩
  · rintro rfl
    rw [hostWrite_cfg (s := { s with host := rest }) hidle]
    exact ⟨_, rfl, rfl, fun i hi => by rw [BitVec.getLsbD_and, getLsbD_cfgMask hi]⟩
  · intro hoff
    rw [hostWrite_ignored (s := { s with host := rest }) hidle v hoff]

/-! ## Register reads -/

theorem step_of_read {s : State} {off : Nat} {rest : List HostAct} (h : s.host = .read off :: rest) :
    step s = .next (hostRead off { s with host := rest }) := by
  simp only [step, h, hostAct]

/-- While BUSY = 0 a read at a decoded offset gives what stands there, and changes nothing (R19 to R34). -/
theorem hostRead_of_idle {s : State} (h : s.inflight = none) {off : Nat} (hoff : isDecoded off = true) :
    hostRead off s = observe off (readRegister s off) s := by
  simp [hostRead, hoff, busy_of_idle h]

/-- STATUS is read at any time (R45). -/
theorem hostRead_status (s : State) : hostRead 0x08 s = observe 0x08 (statusWord s) s := by
  have hdec : isDecoded 0x08 = true := by decide
  simp [hostRead, hdec, readRegister]

/-- The reserved offsets above the registers read 0 (R34). -/
theorem readRegister_of_reserved (s : State) {off : Nat} (h : 0x70 ≤ off) : readRegister s off = 0#64 := by
  unfold readRegister
  split
  case h_14 => rfl
  all_goals omega

theorem getLsbD_statusWord (s : State) (i : Nat) : (statusWord s).getLsbD i =
    ((decide (i < 1) && busy s) || (decide (i = 1) && s.ovr) || (decide (4 ≤ i) && s.err.getLsbD (i - 4)) ||
      (decide (8 ≤ i) && s.errSub.getLsbD (i - 8)) || (decide (16 ≤ i) && s.errOp.getLsbD (i - 16))) := by
  have herr : 64 ≤ i → s.err.getLsbD (i - 4) = false := fun h => BitVec.getLsbD_of_ge _ _ (by omega)
  have hsub : 64 ≤ i → s.errSub.getLsbD (i - 8) = false := fun h => BitVec.getLsbD_of_ge _ _ (by omega)
  have hop : 64 ≤ i → s.errOp.getLsbD (i - 16) = false := fun h => BitVec.getLsbD_of_ge _ _ (by omega)
  simp only [statusWord, BitVec.getLsbD_or, BitVec.getLsbD_shiftLeft, BitVec.getLsbD_setWidth, BitVec.getLsbD_ofBool]
  grind

/-- STATUS's fields, each in its place, and zeros between them (R22). -/
theorem statusWord_fields (s : State) :
    (statusWord s).getLsbD 0 = s.inflight.isSome ∧ (statusWord s).getLsbD 1 = s.ovr ∧
      (∀ i, i < 4 → (statusWord s).getLsbD (4 + i) = s.err.getLsbD i) ∧
      (∀ i, i < 4 → (statusWord s).getLsbD (8 + i) = s.errSub.getLsbD i) ∧
      (∀ i, i < 8 → (statusWord s).getLsbD (16 + i) = s.errOp.getLsbD i) ∧
      ∀ i, i < 64 → (i = 2 ∨ i = 3 ∨ (12 ≤ i ∧ i < 16) ∨ 24 ≤ i) → (statusWord s).getLsbD i = false := by
  have herr : ∀ j, 4 ≤ j → s.err.getLsbD j = false := fun j h => BitVec.getLsbD_of_ge _ _ h
  have hsub : ∀ j, 4 ≤ j → s.errSub.getLsbD j = false := fun j h => BitVec.getLsbD_of_ge _ _ h
  have hop : ∀ j, 8 ≤ j → s.errOp.getLsbD j = false := fun j h => BitVec.getLsbD_of_ge _ _ h
  refine ⟨?_, ?_, fun i hi => ?_, fun i hi => ?_, fun i hi => ?_, fun i _ hi => ?_⟩ <;> rw [getLsbD_statusWord]
  · simp [busy]
  · simp
  · simp [show ¬8 ≤ 4 + i by omega, show ¬16 ≤ 4 + i by omega, show ¬4 + i = 1 by omega]
  · simp [show ¬16 ≤ 8 + i by omega, show ¬8 + i = 1 by omega, herr (8 + i - 4) (by omega)]
  · simp [show ¬16 + i = 1 by omega, herr (16 + i - 4) (by omega), hsub (16 + i - 8) (by omega)]
  · rcases hi with rfl | rfl | hi | hi
    · simp
    · simp
    · simp [show ¬16 ≤ i by omega, show ¬i = 1 by omega, show ¬i = 0 by omega, herr (i - 4) (by omega),
        hsub (i - 8) (by omega)]
    · simp [show ¬i = 1 by omega, show ¬i = 0 by omega, herr (i - 4) (by omega), hsub (i - 8) (by omega),
        hop (i - 16) (by omega)]

theorem capOf_eq_bits (s : State) : capOf s = s.par.width.bits * s.par.bufWords := (Nat.mul_assoc _ _ _).symm

/-- Settles O50: the step is the read, and each offset's word is the register's. -/
theorem hostRegisterReads : Obligations.HostRegisterReads := by
  unfold Obligations.HostRegisterReads
  intro s off rest hhost
  rw [step_of_read hhost]
  refine ⟨fun hidle hlo hhi => ?_, fun hidle v hv => ?_, ?_⟩
  · have hdec : isDecoded off = true := by simp [isDecoded, hlo, hhi]
    rw [hostRead_of_idle (s := { s with host := rest }) hidle hdec, readRegister_of_reserved _ hlo]
    rfl
  · have hread : isDecoded off = true ∧ readRegister { s with host := rest } off = v := by
      rw [← capOf_eq_bits, Nat.add_comm (s.par.width.bits * 2 ^ 32)] at hv
      simp only [List.mem_cons, Prod.mk.injEq, List.not_mem_nil, or_false] at hv
      rcases hv with ⟨rfl, rfl⟩ | ⟨rfl, rfl⟩ | ⟨rfl, rfl⟩ | ⟨rfl, rfl⟩ | ⟨rfl, rfl⟩ | ⟨rfl, rfl⟩ | ⟨rfl, rfl⟩ | ⟨rfl, rfl⟩ |
        ⟨rfl, rfl⟩ | ⟨rfl, rfl⟩ | ⟨rfl, rfl⟩ | ⟨rfl, rfl⟩ | ⟨rfl, rfl⟩ | ⟨rfl, rfl⟩ <;> exact ⟨by decide, rfl⟩
    rw [hostRead_of_idle (s := { s with host := rest }) hidle hread.1, hread.2]
    rfl
  · rintro rfl
    rw [hostRead_status]
    exact ⟨_, rfl, statusWord_fields { s with host := rest }⟩

/-! ## Ports -/

/-- A host action that can be taken is the step. -/
theorem step_of_hostAct {s t : State} {a : HostAct} {rest : List HostAct} (hhost : s.host = a :: rest) (hpass : a ≠ .pass)
    (hact : hostAct a { s with host := rest } = some t) : step s = .next t := by
  cases a with
  | pass => exact absurd rfl hpass
  | _ => simp only [step, hhost, hact]

/-- Settles O51: pushes and pops that need not wait are taken at once. -/
theorem portsAreFifos : Obligations.PortsAreFifos := by
  unfold Obligations.PortsAreFifos
  refine fun s rest x o => ⟨fun hhost hroom => ?_, fun hhost hroom => ?_, fun q hhost hq => ?_, fun q hhost hq => ?_⟩
  · exact step_of_hostAct hhost (by simp) (if_pos hroom)
  · exact step_of_hostAct hhost (by simp) (if_pos hroom)
  · exact step_of_hostAct hhost (by simp) (by simp only [hostAct, hq])
  · exact step_of_hostAct hhost (by simp) (by simp only [hostAct, hq])

/-! ## The state after reset -/

/-- Settles O54. -/
theorem resetStateIsSound : Obligations.ResetStateIsSound := by
  unfold Obligations.ResetStateIsSound
  exact {
    params := by decide
    bufWf := reset_wf
    bufWithin := by decide
    pos := by decide
    limit := by decide
    cfg := by decide
    prevS := by decide
    frameStart := by decide
    err := by decide
    errZero := fun _ => ⟨rfl, rfl⟩
    recorded := fun h => absurd rfl h
    vin := by decide
    vout := by decide
    oin := by decide
    oout := by decide
    inflight := by rintro f ⟨⟩ }

end Sys2Proof.Machine
end

section
/-! PROOFS. The serializer and the views of BUF do not depend on W (R50, R51, R128 to R133). -/

namespace Sys2Proof.Machine

/-- Octet `k` of the payload is stream bits `8k` to `8k + 7` (R51). -/
theorem getLsbD_bufOctet (m : Memory) (k : Nat) {i : Nat} (hi : i < 8) :
    (bufOctet m k).getLsbD i = memBit m (8 * k + i) := by
  rw [bufOctet, BitVec.getLsbD_ofNat, testBit_memRead]
  simp [hi]

/-- Settles O48: bit `i` of either octet is stream bit `8k + i`, `k` being `k / j` words and `k % j` octets. -/
theorem octetViewIsWordView : Obligations.OctetViewIsWordView := by
  unfold Obligations.OctetViewIsWordView
  refine fun m j k hj => ⟨fun i hi => getLsbD_bufOctet m k hi, Nat.eq_of_testBit_eq fun i => ?_⟩
  have hword : bufWord m (8 * j) (k / j) / 2 ^ (8 * (k % j)) % 256 =
      bufWord m (8 * j) (k / j) / 2 ^ (8 * (k % j)) % 2 ^ 8 := rfl
  rw [hword, BitVec.testBit_toNat, Nat.testBit_mod_two_pow, Nat.testBit_div_two_pow, bufWord, testBit_memRead]
  by_cases hi : i < 8
  · have hoctet := Nat.mod_lt k hj
    have hinside : i + 8 * (k % j) < 8 * j := by omega
    have hplace : k / j * (8 * j) + (i + 8 * (k % j)) = 8 * k + i := by
      have hsum := Nat.div_add_mod k j
      calc k / j * (8 * j) + (i + 8 * (k % j)) = 8 * (j * (k / j) + k % j) + i := by ring
        _ = 8 * k + i := by rw [hsum]
    rw [getLsbD_bufOctet m k hi, hplace]
    simp [hi, hinside]
  · simp [hi, BitVec.getLsbD_of_ge (bufOctet m k) i (Nat.not_lt.1 hi)]

/-- What SERIALIZE pushes, with nothing before it and room for all of it. -/
theorem serialize_payload {s t : State} (hs : Inv s) (hempty : s.octetOut = [])
    (hroom : payloadOctets s ≤ s.par.ooutDepth) (h : exec .serialize s = .next t) :
    t.octetOut = payloadBytes s ∧ t.result.toNat = payloadOctets s := by
  have hlen : payloadOctets s < 2 ^ 64 := by
    have := s.pos.isLt
    unfold payloadOctets
    omega
  rw [exec_serialize_of_room hs.pos (by simpa [hempty] using hroom)] at h
  cases h
  exact ⟨by simp [hempty], toNat_ofNat_lt hlen⟩

/-- Settles O47: LOAD puts each octet where SERIALIZE read it, and neither speaks of W. -/
theorem serializeThenLoad : Obligations.SerializeThenLoad := by
  unfold Obligations.SerializeThenLoad
  intro s t u hs hu hempty hroom hser hin hcnt hfits
  obtain ⟨hout, hres⟩ := serialize_payload hs hempty hroom hser
  rw [hout] at hin
  rw [← hcnt] at hres
  have hthere : u.cnt.toNat ≤ u.octetIn.length := by rw [hin, length_payloadBytes, hres]
  have hceil : 8 * u.cnt.toNat = ceil8 s.pos.toNat := by rw [hres]; rfl
  refine ⟨_, exec_load_of_fits hfits hthere, ?_, ?_, fun q hq => ?_⟩
  · simp [hin, hres]
  · rw [retire_limit, toNat_ofNat_lt (lt_two_pow_64_of_le_cap hu hfits), hceil]
  · by_cases hbelow : q < 8 * u.cnt.toNat
    · have hk : q / 8 < u.cnt.toNat := by omega
      have hbit := memBit_loadedBuf_below hu.bufWf hfits hthere hk (Nat.mod_lt q (by decide : 8 > 0))
      rw [hin, getD_payloadBytes (by rwa [← hres]), getLsbD_payloadOctet _ _ _ (Nat.mod_lt q (by decide)),
        Nat.div_add_mod] at hbit
      exact hbit
    · have hpos : ¬q < s.pos.toNat := by have := le_ceil8 s.pos.toNat; omega
      rw [decide_eq_false hpos, Bool.false_and]
      exact memBit_loadedBuf_above (Nat.not_lt.1 hbelow) hq

end Sys2Proof.Machine
end

section
/-! PROOFS. The arithmetic of the codec: the clamp of a delivered word, the significant-bit counts, a block's count and a
frame's size (R36, R37, R100 to R104, R114). -/

namespace Sys2Proof.Machine

/-! ## A legal codec configuration -/

theorem codecLegal.one_le_block {c : Word} (h : codecLegal c) : 1 ≤ cfgBlock c := h.1.1

theorem codecLegal.block_le_64 {c : Word} (h : codecLegal c) : cfgBlock c ≤ 64 := h.1.2

theorem codecLegal.one_le_pb {c : Word} (h : codecLegal c) : 1 ≤ cfgPb c := h.2.1

theorem codecLegal.pb_le_64 {c : Word} (h : codecLegal c) : cfgPb c ≤ 64 := h.2.2

/-! ## The delivered word -/

theorem dstWidth_cases (c : Word) : dstWidth c = 8 ∨ dstWidth c = 16 ∨ dstWidth c = 32 ∨ dstWidth c = 64 := by
  have hlt : cfgDwc c < 4 := (c.extractLsb' 16 2).isLt
  unfold dstWidth
  generalize cfgDwc c = k at hlt
  interval_cases k <;> simp

theorem dstWidth_bounds (c : Word) : 1 ≤ dstWidth c ∧ dstWidth c ≤ 64 := by
  rcases dstWidth_cases c with h | h | h | h <;> omega

/-- A clamped value lies in the range, whose ends are in order. -/
theorem clamp_mem {v lo hi : Int} (h : lo ≤ hi) : lo ≤ clamp v lo hi ∧ clamp v lo hi ≤ hi := by
  unfold clamp
  split_ifs <;> omega

/-- A value in the range is its own clamp. -/
theorem clamp_of_mem {v lo hi : Int} (h : lo ≤ v ∧ v ≤ hi) : clamp v lo hi = v := by
  unfold clamp
  rw [if_neg (by omega), if_neg (by omega)]

theorem dstMin_le_dstMax (c : Word) : dstMin c ≤ dstMax c := by
  have hhalf : (0 : Int) < (2 ^ (dstWidth c - 1) : Nat) := by positivity
  have hfull : (0 : Int) < (2 ^ dstWidth c : Nat) := by positivity
  unfold dstMin dstMax
  split_ifs <;> omega

/-- The field of an integer's low bits is the integer's own. -/
theorem ofNat_lowBits (n : Nat) (v : Int) : BitVec.ofNat n (lowBits n v) = BitVec.ofInt n v := by
  apply BitVec.eq_of_toNat_eq
  rw [BitVec.toNat_ofNat, BitVec.toNat_ofInt, lowBits, Nat.mod_eq_of_lt]
  have hlt := Int.emod_lt_of_pos v (b := ((2 ^ n : Nat) : Int)) (by positivity)
  have hnonneg := Int.emod_nonneg v (b := ((2 ^ n : Nat) : Int)) (by positivity)
  omega

/-- A word read as its destination reads it: signed, its integer; unsigned, its number (R37). -/
def readAs (sg : Bool) (x : Word) : Int := if sg then x.toInt else x.toNat

/-- The integers of `n` bits and the signedness (R37). -/
def fitsWidth (sg : Bool) (n : Nat) (v : Int) : Prop :=
  if sg then -(2 ^ (n - 1) : Int) ≤ v ∧ v < 2 ^ (n - 1) else 0 ≤ v ∧ v < 2 ^ n

/-- A value of `n` bits, put into a word by its low bits, reads back as itself (R11, R37). -/
theorem readAs_fieldWord {sg : Bool} {n : Nat} {v : Int} (h1 : 1 ≤ n) (h64 : n ≤ 64) (h : fitsWidth sg n v) :
    readAs sg (fieldWord sg n (lowBits n v)) = v := by
  unfold readAs fieldWord
  rw [ofNat_lowBits]
  cases sg with
  | true =>
    obtain ⟨hlo, hhi⟩ := h
    simp only [if_true]
    rw [BitVec.toInt_signExtend_of_le h64, BitVec.toInt_ofInt_eq_self h1 hlo hhi]
  | false =>
    obtain ⟨hlo, hhi⟩ := h
    simp only [Bool.false_eq_true, if_false, BitVec.zeroExtend]
    rw [BitVec.toNat_setWidth_of_le h64, BitVec.toNat_ofInt]
    push_cast
    rw [Int.emod_eq_of_lt hlo hhi, Int.toNat_of_nonneg hlo]

/-- The destination's range is that of its width and signedness (R100). -/
theorem fitsWidth_of_dst_mem {c : Word} {v : Int} (h : dstMin c ≤ v ∧ v ≤ dstMax c) :
    fitsWidth (cfgDsigned c) (dstWidth c) v := by
  unfold dstMin dstMax at h
  unfold fitsWidth
  push_cast at h
  split_ifs at h ⊢ <;> omega

/-- Settles O28: a clamped value fits the destination, so its low bits give it back. -/
theorem deliveredValueIsClamped : Obligations.DeliveredValueIsClamped := by
  unfold Obligations.DeliveredValueIsClamped
  intro c v
  obtain ⟨h1, h64⟩ := dstWidth_bounds c
  have hread : readAs (cfgDsigned c) (deliverWord c v) = clamp v (dstMin c) (dstMax c) :=
    readAs_fieldWord h1 h64 (fitsWidth_of_dst_mem (clamp_mem (dstMin_le_dstMax c)))
  refine ⟨fun hs => ?_, fun hs => ?_, dstWidth_cases c⟩
  · rwa [hs] at hread
  · rwa [hs] at hread

/-! ## Significant-bit counts -/

theorem setbits_eq_zero_iff {vs : List Int} : setbits vs = 0 ↔ ∀ v ∈ vs, v = 0 := by
  constructor
  · intro h v hv
    have := natAbs_le_setbits hv
    omega
  · intro h
    have := setbits_lt (vs := vs) (n := 0) fun v hv => by simp [h v hv]
    omega

/-- The width of the values' OR is the least that holds each magnitude. -/
theorem bitlen_setbits_le_iff {vs : List Int} {k : Nat} :
    bitlen (setbits vs) ≤ k ↔ ∀ v ∈ vs, v.natAbs < 2 ^ k := by
  constructor
  · intro h v hv
    exact Nat.lt_of_le_of_lt (natAbs_le_setbits hv)
      (Nat.lt_of_lt_of_le (lt_two_pow_bitlen _) (Nat.pow_le_pow_right (by decide) h))
  · exact fun h => bitlen_le (setbits_lt h)

theorem sigBits_unsigned (pb : Nat) (vs : List Int) : sigBits false pb vs = bitlen (setbits vs) := by simp [sigBits]

theorem sigBits_signed_of_zeros (pb : Nat) {vs : List Int} (h : ∀ v ∈ vs, v = 0) : sigBits true pb vs = 0 := by
  simp [sigBits, setbits_eq_zero_iff.2 h]

theorem sigBits_signed_of_ne_zero (pb : Nat) {vs : List Int} (h : ∃ v ∈ vs, v ≠ 0) :
    sigBits true pb vs = min pb (1 + bitlen (setbits vs)) := by
  obtain ⟨v, hv, hne⟩ := h
  have hset : setbits vs ≠ 0 := fun h0 => hne (setbits_eq_zero_iff.1 h0 v hv)
  simp [sigBits, hset]

theorem lt_two_pow_iff_natAbs {v : Int} (h : 0 ≤ v) (k : Nat) : v < 2 ^ k ↔ v.natAbs < 2 ^ k := by
  have hcast : ((2 ^ k : Nat) : Int) = 2 ^ k := by push_cast; rfl
  omega

/-- Settles O29: both counts come from the width of the magnitudes' OR. -/
theorem sigBitsFromLeastWidth : Obligations.SigBitsFromLeastWidth := by
  unfold Obligations.SigBitsFromLeastWidth
  refine fun pb vs => ⟨fun hnonneg => ⟨fun v hv => ?_, fun k hk => ?_, ?_⟩, sigBits_signed_of_zeros pb,
    fun w hne hw hleast => ?_, fun hpb => ?_⟩
  · rw [lt_two_pow_iff_natAbs (hnonneg v hv), sigBits_unsigned]
    exact bitlen_setbits_le_iff.1 le_rfl v hv
  · rw [sigBits_unsigned]
    exact bitlen_setbits_le_iff.2 fun v hv => (lt_two_pow_iff_natAbs (hnonneg v hv) k).1 (hk v hv)
  · rw [sigBits_unsigned, bitlen_eq_zero, setbits_eq_zero_iff]
  · have heq : bitlen (setbits vs) = w :=
      Nat.le_antisymm (bitlen_setbits_le_iff.2 hw) (hleast _ (bitlen_setbits_le_iff.1 le_rfl))
    rw [sigBits_signed_of_ne_zero pb hne, heq]
  · have hor : bitlen (setbits [-4, 3]) = 3 := by decide +kernel
    rw [sigBits_signed_of_ne_zero pb ⟨-4, by simp, by decide⟩, hor]
    exact Nat.min_eq_right hpb

theorem sigBits_eq_zero_iff {sg : Bool} {pb : Nat} (hpb : 1 ≤ pb) (vs : List Int) :
    sigBits sg pb vs = 0 ↔ ∀ v ∈ vs, v = 0 := by
  cases sg with
  | false => rw [sigBits_unsigned, bitlen_eq_zero, setbits_eq_zero_iff]
  | true =>
    refine ⟨fun h => ?_, sigBits_signed_of_zeros pb⟩
    by_contra hall
    rw [sigBits_signed_of_ne_zero pb (by push Not at hall; exact hall)] at h
    omega

/-! ## A block's count -/

theorem fieldInt_unsigned_range (n f : Nat) : 0 ≤ fieldInt false n f ∧ fieldInt false n f < 2 ^ n := by
  have hlt := (BitVec.ofNat n f).isLt
  simp only [fieldInt, Bool.false_eq_true, if_false]
  exact ⟨Int.natCast_nonneg _, by exact_mod_cast hlt⟩

theorem fieldInt_signed_range (n f : Nat) :
    -(2 ^ (n - 1) : Int) ≤ fieldInt true n f ∧ fieldInt true n f ≤ 2 ^ (n - 1) - 1 := by
  have hlo := BitVec.le_toInt (BitVec.ofNat n f)
  have hhi := BitVec.toInt_lt (x := BitVec.ofNat n f)
  simp only [fieldInt, if_true]
  omega

/-- Settles O30: the low bits of a legal word, read back, are its value, so the value lies in the range of such fields. -/
theorem blockCountFitsEveryValue : Obligations.BlockCountFitsEveryValue := by
  unfold Obligations.BlockCountFitsEveryValue
  intro c xs hc hl
  have hback : ∀ x ∈ xs, fieldInt (cfgSigned c) (streamSig c xs)
      (lowBits (streamSig c xs) (wordValue (cfgSigned c) (cfgPb c) x)) = wordValue (cfgSigned c) (cfgPb c) x := by
    intro x hx
    rw [lowBits_wordValue hc.pb_le_64 (streamSig_le_64 hc hl) (hl x hx), fieldInt_of_word hc hl hx]
  refine ⟨streamSig_le hl, hc.pb_le_64, ?_, fun x hx _ hs => ?_, fun x hx _ hs => ?_, hback⟩
  · rw [streamSig, sigBits_eq_zero_iff hc.one_le_pb]
    simp only [List.forall_mem_map]
  · have hx := hback x hx
    rw [hs] at hx ⊢
    rw [← hx]
    exact fieldInt_unsigned_range _ _
  · have hx := hback x hx
    rw [hs] at hx ⊢
    rw [← hx]
    exact fieldInt_signed_range _ _

/-! ## A frame's size -/

theorem length_streamBlock_le {c : Word} {xs : List Word} (hl : wordsLegal c xs) (prev : Nat) :
    (streamBlock c prev xs).length ≤ xs.length * cfgPb c + 12 := by
  have hhead := headerLen_le (selectHeader prev (streamSig c xs))
  have hbody : xs.length * streamSig c xs ≤ xs.length * cfgPb c := Nat.mul_le_mul_left _ (streamSig_le hl)
  rw [streamBlock_length]
  omega

theorem length_streamBlocks_le {c : Word} : ∀ (bs : List (List Word)) (prev : Nat), (∀ xs ∈ bs, wordsLegal c xs) →
    (streamBlocks c prev bs).length ≤ bs.flatten.length * cfgPb c + 12 * bs.length
  | [], _, _ => by simp [streamBlocks]
  | xs :: r, prev, hl => by
    have hhead := length_streamBlock_le (hl xs (by simp)) prev
    have hrest := length_streamBlocks_le r (streamSig c xs) fun ys hy => hl ys (by simp [hy])
    have hsum : (xs.length + r.flatten.length) * cfgPb c = xs.length * cfgPb c + r.flatten.length * cfgPb c :=
      Nat.add_mul _ _ _
    simp only [streamBlocks, List.flatten_cons, List.length_append, List.length_cons]
    omega

/-- The blocks of legal words are legal. -/
theorem wordsLegal_of_mem_blocksOf {c : Word} {b : Nat} (hb : 1 ≤ b) {xs : List Word} (hl : wordsLegal c xs) :
    ∀ ys ∈ blocksOf b xs, wordsLegal c ys := by
  intro ys hy x hx
  have hmem : x ∈ (blocksOf b xs).flatten := List.mem_flatten.2 ⟨ys, hy, hx⟩
  rw [flatten_blocksOf hb xs.length xs le_rfl] at hmem
  exact hl x hmem

/-- Settles O36: block by block, a header of at most 12 bits and fields of at most PB. -/
theorem frameSizeBound : Obligations.FrameSizeBound := by
  unfold Obligations.FrameSizeBound
  intro c xs hc hl
  have hbound := length_streamBlocks_le (blocksOf (cfgBlock c) xs) 0 (wordsLegal_of_mem_blocksOf hc.one_le_block hl)
  rw [flatten_blocksOf hc.one_le_block xs.length xs le_rfl] at hbound
  have hblocks : (blocksOf (cfgBlock c) xs).length = (xs.length + cfgBlock c - 1) / cfgBlock c := by simp [blocksOf]
  rwa [hblocks] at hbound

end Sys2Proof.Machine
end

section
/-! PROOFS. The series commands APPEND, EXTRACT, SERIALIZE and LOAD: what they do with their elements there, and that when
elements arrive or are taken away does not matter (R8, R14, R40, R99, R101, R129, R131). -/

namespace Sys2Proof.Machine

/-! ## The command in flight before does not matter -/

theorem appendLoop_inflight (n : BitVec 7) (f : Option InFlight) : ∀ (left : Nat) (s : State),
    appendLoop n left { s with inflight := f } = appendLoop n left s
  | 0, _ => rfl
  | left + 1, s => by
    cases hv : s.valueIn with
    | nil => simp [appendLoop, hv, hold]
    | cons x q =>
      simp only [appendLoop, hv]
      exact appendLoop_inflight n f left { s with
        valueIn := q
        buf := memWrite s.buf s.pos.toNat n.toNat x.toNat
        pos := BitVec.ofNat 64 (s.pos.toNat + n.toNat) }

theorem loadLoop_inflight (f : Option InFlight) : ∀ (left : Nat) (s : State),
    loadLoop left { s with inflight := f } = loadLoop left s
  | 0, _ => rfl
  | left + 1, s => by
    cases hv : s.octetIn with
    | nil => simp [loadLoop, hv, hold]
    | cons o q =>
      simp only [loadLoop, hv]
      exact loadLoop_inflight f left { s with
        octetIn := q
        buf := memWrite s.buf (8 * (s.cnt.toNat - (left + 1))) 8 o.toNat }

/-! ## Going on after a wait -/

theorem resume_append_of_fits {n : BitVec 7} {done : Nat} {s : State}
    (h : s.pos.toNat + (s.cnt.toNat - done) * n.toNat ≤ capOf s) :
    resume (.append n done) s = .next (appendLoop n (s.cnt.toNat - done) s) := if_neg (Nat.not_lt.2 h)

theorem resume_extract_of_fits {n : BitVec 7} (sg : Bool) {done : Nat} {s : State}
    (h : s.pos.toNat + (s.cnt.toNat - done) * n.toNat ≤ capOf s) :
    resume (.extract n sg done) s = .next (extractLoop n sg (s.cnt.toNat - done) s) := if_neg (Nat.not_lt.2 h)

theorem resume_serialize_of_fits {done : Nat} {s : State} (h : s.pos.toNat ≤ capOf s) :
    resume (.serialize done) s = .next (serializeLoop (payloadOctets s - done) s) := if_neg (Nat.not_lt.2 h)

theorem resume_load_of_fits {done : Nat} {s : State} (h : 8 * s.cnt.toNat ≤ capOf s) :
    resume (.load done) s = .next (loadLoop (s.cnt.toNat - done) s) := if_neg (Nat.not_lt.2 h)

/-! ## APPEND -/

theorem exec_append_of_fits {s : State} {n : BitVec 7} (hn : widthLegal n = true)
    (hfits : s.pos.toNat + s.cnt.toNat * n.toNat ≤ capOf s) :
    exec (.append n) s = .next (appendLoop n s.cnt.toNat s) := by
  simp [exec, execAppend, hn, Nat.not_lt.2 hfits]

theorem exec_append_of_misfit {s : State} {n : BitVec 7} (hn : widthLegal n = true)
    (hmisfit : capOf s < s.pos.toNat + s.cnt.toNat * n.toNat) :
    exec (.append n) s = .next (raise 0x09#8 .bounds s) := by
  simp [exec, execAppend, hn, hmisfit]

/-- What APPEND leaves after `k` of its words (R99). -/
def appended (n : BitVec 7) (k : Nat) (s : State) : State :=
  { s with
    valueIn := s.valueIn.drop k
    buf := writeFields s.buf s.pos.toNat n.toNat ((s.valueIn.take k).map BitVec.toNat)
    pos := BitVec.ofNat 64 (s.pos.toNat + k * n.toNat) }

theorem appendLoop_appended (n : BitVec 7) {k left : Nat} {s : State} (hk : k ≤ left) (hthere : k ≤ s.valueIn.length)
    (h64 : s.pos.toNat + k * n.toNat < 2 ^ 64) : appendLoop n left s = appendLoop n (left - k) (appended n k s) :=
  appendLoop_take n k left s hk hthere h64

theorem memBit_appended {s : State} (hwf : s.buf.wf = true) (n : BitVec 7) {k j i : Nat} (hk : k ≤ s.valueIn.length)
    (hj : j < k) (hi : i < n.toNat) :
    memBit (appended n k s).buf (s.pos.toNat + j * n.toNat + i) = (s.valueIn.getD j 0#64).getLsbD i := by
  have hlen : j < ((s.valueIn.take k).map BitVec.toNat).length := by simp; omega
  have hbit := memBit_writeFields hwf s.pos.toNat _ hlen hi
  rw [List.getD_eq_getElem _ _ (Nat.lt_of_lt_of_le hj hk)]
  simpa [appended, BitVec.testBit_toNat] using hbit

theorem sameBitsOutside_appended {s : State} (hwf : s.buf.wf = true) (n : BitVec 7) {k : Nat}
    (hk : k ≤ s.valueIn.length) :
    sameBitsOutside s.pos.toNat (s.pos.toNat + k * n.toNat) s (appended n k s) := by
  intro q hq
  exact memBit_writeFields_outside n.toNat _ _ q hwf (by simpa [Nat.min_eq_left hk] using hq)

/-- Any part of a series that fits ends below CAP. -/
theorem series_prefix_le {p cnt w k cap : Nat} (hk : k ≤ cnt) (hfits : p + cnt * w ≤ cap) : p + k * w ≤ cap := by
  have := Nat.mul_le_mul_right w hk
  omega

/-- After `k` elements of a series the others begin where those end. -/
theorem series_split {p cnt w k : Nat} (hk : k ≤ cnt) : p + k * w + (cnt - k) * w = p + cnt * w := by
  rw [Nat.add_assoc, ← Nat.add_mul, Nat.add_sub_cancel' hk]

/-- Settles O23. -/
theorem appendStoresSeries : Obligations.AppendStoresSeries := by
  unfold Obligations.AppendStoresSeries
  intro s n hs h1 h64 hfits hthere
  have h64' := lt_two_pow_64_of_le_cap hs hfits
  have hexec : exec (.append n) s = .next (retire (appended n s.cnt.toNat s)) := by
    rw [exec_append_of_fits ((widthLegal_iff n).2 ⟨h1, h64⟩) hfits, appendLoop_appended n le_rfl hthere h64',
      Nat.sub_self]
    rfl
  exact ⟨_, hexec, rfl, toNat_ofNat_add h64', fun j i hj hi => memBit_appended hs.bufWf n hthere hj hi,
    sameBitsOutside_appended hs.bufWf n hthere⟩

/-- Settles O24: the words there are the first part of the series, and the loop goes on with the rest of it. -/
theorem appendWaitsForWords : Obligations.AppendWaitsForWords := by
  unfold Obligations.AppendWaitsForWords
  intro s n hs h1 h64 hfits hfew
  have hn := (widthLegal_iff n).2 ⟨h1, h64⟩
  have hpart := series_prefix_le hfew.le hfits
  have h64' := lt_two_pow_64_of_le_cap hs hpart
  have hpos : (appended n s.valueIn.length s).pos.toNat = s.pos.toNat + s.valueIn.length * n.toNat :=
    toNat_ofNat_add h64'
  have hempty : (appended n s.valueIn.length s).valueIn = [] := List.drop_length
  have hexec : exec (.append n) s =
      .next (hold (.append n s.valueIn.length) (appended n s.valueIn.length s)) := by
    have hdone : s.cnt.toNat - (s.cnt.toNat - s.valueIn.length) = s.valueIn.length := by omega
    rw [exec_append_of_fits hn hfits, appendLoop_appended n hfew.le le_rfl h64', appendLoop_nil n _ _ hempty,
      if_neg (by omega)]
    change Host.Outcome.next (hold (.append n (s.cnt.toNat - (s.cnt.toNat - s.valueIn.length))) _) = _
    rw [hdone]
  refine ⟨_, hexec, by rw [← hempty]; rfl, hpos, fun j i hj hi => memBit_appended hs.bufWf n le_rfl hj hi,
    sameBitsOutside_appended hs.bufWf n le_rfl, fun late => ?_⟩
  have hrest : (appended n s.valueIn.length s).pos.toNat + (s.cnt.toNat - s.valueIn.length) * n.toNat ≤ capOf s := by
    rw [hpos, series_split hfew.le]
    exact hfits
  have hlate := exec_append_of_fits (s := { s with valueIn := s.valueIn ++ late }) hn hfits
  have htake := appendLoop_appended n (s := { s with valueIn := s.valueIn ++ late }) hfew.le (by simp) h64'
  have hsame : appended n s.valueIn.length { s with valueIn := s.valueIn ++ late } =
      { appended n s.valueIn.length s with valueIn := late } := by
    simp [appended]
  rw [hsame] at htake
  calc resume (.append n s.valueIn.length) { hold _ (appended n s.valueIn.length s) with valueIn := late }
    _ = .next (appendLoop n (s.cnt.toNat - s.valueIn.length)
          { hold (.append n s.valueIn.length) (appended n s.valueIn.length s) with valueIn := late }) :=
        resume_append_of_fits hrest
    _ = .next (appendLoop n (s.cnt.toNat - s.valueIn.length) { appended n s.valueIn.length s with valueIn := late }) :=
        congrArg _ (appendLoop_inflight n _ _ { appended n s.valueIn.length s with valueIn := late })
    _ = exec (.append n) { s with valueIn := s.valueIn ++ late } := (hlate.trans (congrArg _ htake)).symm

/-! ## EXTRACT -/

theorem exec_extract_of_fits {s : State} {n : BitVec 7} (sg : Bool) (hn : widthLegal n = true)
    (hfits : s.pos.toNat + s.cnt.toNat * n.toNat ≤ capOf s) :
    exec (.extract n sg) s = .next (extractLoop n sg s.cnt.toNat s) := by
  simp [exec, execExtract, hn, Nat.not_lt.2 hfits]

theorem exec_extract_of_misfit {s : State} {n : BitVec 7} (sg : Bool) (hn : widthLegal n = true)
    (hmisfit : capOf s < s.pos.toNat + s.cnt.toNat * n.toNat) :
    exec (.extract n sg) s = .next (raise 0x0A#8 .bounds s) := by
  simp [exec, execExtract, hn, hmisfit]

/-- EXTRACT that is in flight afterwards has passed its checks (R101). -/
theorem extractLoop_of_exec_waits {s t : State} {n : BitVec 7} {sg : Bool} {f : InFlight}
    (h : exec (.extract n sg) s = .next t) (hf : t.inflight = some f) :
    widthLegal n = true ∧ s.pos.toNat + s.cnt.toNat * n.toNat ≤ capOf s ∧ t = extractLoop n sg s.cnt.toNat s := by
  simp only [exec, execExtract] at h
  split_ifs at h with hn hfits
  · cases h; cases hf
  · cases h; cases hf
  · cases h
    exact ⟨by simpa using hn, Nat.not_lt.1 hfits, rfl⟩

theorem readFields_eq_map (m : Memory) (p w n : Nat) :
    readFields m p w n = (List.range n).map fun j => memRead m (p + j * w) w := by
  refine List.ext_getElem (by simp [readFields_length]) fun j h1 h2 => ?_
  rw [getElem_readFields]
  simp

/-- What EXTRACT leaves after `k` of its fields (R101). -/
def extracted (n : BitVec 7) (sg : Bool) (k : Nat) (s : State) : State :=
  { s with
    valueOut := s.valueOut ++ (readFields s.buf s.pos.toNat n.toNat k).map fun f =>
      deliverWord s.cfg (fieldInt sg n.toNat f)
    pos := BitVec.ofNat 64 (s.pos.toNat + k * n.toNat) }

theorem length_valueOut_extracted (n : BitVec 7) (sg : Bool) (k : Nat) (s : State) :
    (extracted n sg k s).valueOut.length = s.valueOut.length + k := by
  simp [extracted, readFields_length]

/-- Settles O25. -/
theorem extractPushesSeries : Obligations.ExtractPushesSeries := by
  unfold Obligations.ExtractPushesSeries
  intro s n sg hs h1 h64 hfits hroom
  have h64' := lt_two_pow_64_of_le_cap hs hfits
  have hexec : exec (.extract n sg) s = .next (retire (extracted n sg s.cnt.toNat s)) := by
    rw [exec_extract_of_fits sg ((widthLegal_iff n).2 ⟨h1, h64⟩) hfits, extractLoop_take n sg _ _ s le_rfl hroom h64',
      Nat.sub_self]
    rfl
  refine ⟨_, hexec, rfl, toNat_ofNat_add h64', ?_, sameBits_of_buf_eq rfl⟩
  simp [extracted, readFields_eq_map]

/-! ## BOUNDS before any effect -/

/-- Settles O26. -/
theorem boundsErrorsChangeNothing : Obligations.BoundsErrorsChangeNothing := by
  unfold Obligations.BoundsErrorsChangeNothing
  intro s n sg h1 h64
  have hn := (widthLegal_iff n).2 ⟨h1, h64⟩
  refine ⟨fun hmisfit => ⟨⟨_, exec_append_of_misfit hn hmisfit, raise_bounds_raisedOnly _ s⟩,
    ⟨_, exec_extract_of_misfit sg hn hmisfit, raise_bounds_raisedOnly _ s⟩⟩, fun hmisfit => ?_⟩
  exact ⟨_, if_pos hmisfit, raise_bounds_raisedOnly _ s⟩

/-! ## Waiting for room -/

/-- A deeper engine's VALUE_OUT after `k` words are popped, in the engine of the parameters `p`. -/
def popDeeper (p : Params) (k : Nat) (s : State) : State := { s with par := p, valueOut := s.valueOut.drop k }

/-- The same of OCTET_OUT. -/
def popDeeperOctets (p : Params) (k : Nat) (s : State) : State := { s with par := p, octetOut := s.octetOut.drop k }

/-- EXTRACT with `k` words popped does what it does in an engine `k` deeper, whatever was in flight before. -/
theorem extractLoop_deeper (n : BitVec 7) (sg : Bool) (k : Nat) (f : Option InFlight) : ∀ (left : Nat) (s : State),
    k ≤ s.valueOut.length →
    extractLoop n sg left { s with inflight := f, valueOut := s.valueOut.drop k } =
      popDeeper s.par k (extractLoop n sg left (deeper k s))
  | 0, s, _ => rfl
  | left + 1, s, hk => by
    have hroom : (s.valueOut.drop k).length < s.par.voutDepth ↔ s.valueOut.length < s.par.voutDepth + k := by
      rw [List.length_drop]; omega
    have hpush : ∀ y : Word, s.valueOut.drop k ++ [y] = (s.valueOut ++ [y]).drop k := fun y =>
      (List.drop_append_of_le_length hk).symm
    by_cases h : s.valueOut.length < s.par.voutDepth + k
    · rw [extractLoop, extractLoop, if_pos (hroom.2 h), if_pos (by exact h)]
      simp only [hpush]
      exact extractLoop_deeper n sg k f left { s with
        valueOut :=
          s.valueOut ++ [deliverWord s.cfg (fieldInt sg n.toNat (memRead s.buf s.pos.toNat n.toNat))]
        pos := BitVec.ofNat 64 (s.pos.toNat + n.toNat) } (by simp; omega)
    · rw [extractLoop, extractLoop, if_neg (mt hroom.1 h), if_neg (by exact h)]
      rfl

/-- SERIALIZE with `k` octets popped does what it does in an engine `k` deeper, whatever was in flight before. -/
theorem serializeLoop_deeper (k : Nat) (f : Option InFlight) : ∀ (left : Nat) (s : State), k ≤ s.octetOut.length →
    serializeLoop left { s with inflight := f, octetOut := s.octetOut.drop k } =
      popDeeperOctets s.par k (serializeLoop left (deeper k s))
  | 0, s, _ => rfl
  | left + 1, s, hk => by
    have hroom : (s.octetOut.drop k).length < s.par.ooutDepth ↔ s.octetOut.length < s.par.ooutDepth + k := by
      rw [List.length_drop]; omega
    have hpush : ∀ o : Octet, s.octetOut.drop k ++ [o] = (s.octetOut ++ [o]).drop k := fun o =>
      (List.drop_append_of_le_length hk).symm
    by_cases h : s.octetOut.length < s.par.ooutDepth + k
    · rw [serializeLoop, serializeLoop, if_pos (hroom.2 h), if_pos (by exact h)]
      simp only [hpush]
      exact serializeLoop_deeper k f left { s with
        octetOut := s.octetOut ++ [payloadOctet s.buf s.pos.toNat (payloadOctets s - (left + 1))] } (by simp; omega)
    · rw [serializeLoop, serializeLoop, if_neg (mt hroom.1 h), if_neg (by exact h)]
      rfl

/-- EXTRACT in flight afterwards has filled VALUE_OUT and holds the count done (R14, R40). -/
theorem extract_waits {s t : State} {n : BitVec 7} {sg : Bool} {f : InFlight} (hs : Inv s)
    (h : exec (.extract n sg) s = .next t) (hf : t.inflight = some f) : ∃ done, done < s.cnt.toNat ∧
      s.valueOut.length + done = s.par.voutDepth ∧ f = .extract n sg done ∧
      t = hold (.extract n sg done) (extracted n sg done s) := by
  obtain ⟨_, hfits, rfl⟩ := extractLoop_of_exec_waits h hf
  have hvout := hs.vout
  by_cases hroom : s.valueOut.length + s.cnt.toNat ≤ s.par.voutDepth
  · rw [extractLoop_take n sg _ _ s le_rfl hroom (lt_two_pow_64_of_le_cap hs hfits), Nat.sub_self] at hf
    cases hf
  · obtain ⟨done, hdone⟩ := Nat.exists_eq_add_of_le hvout
    have hpart := lt_two_pow_64_of_le_cap hs (series_prefix_le (k := done) (by omega) hfits)
    have hfull : s.par.voutDepth ≤ (extracted n sg done s).valueOut.length := by
      rw [length_valueOut_extracted]; omega
    have hcount : s.cnt.toNat - (s.cnt.toNat - done) = done := by omega
    have ht : extractLoop n sg s.cnt.toNat s = hold (.extract n sg done) (extracted n sg done s) := by
      rw [extractLoop_take n sg done _ s (by omega) (by omega) hpart]
      change extractLoop n sg _ (extracted n sg done s) = _
      rw [extractLoop_full n sg _ _ hfull, if_neg (by omega)]
      change hold (.extract n sg (s.cnt.toNat - (s.cnt.toNat - done))) _ = _
      rw [hcount]
    rw [ht] at hf
    cases hf
    exact ⟨done, by omega, by omega, rfl, ht⟩

/-- What SERIALIZE leaves after `k` of its octets (R129). -/
def serialized (k : Nat) (s : State) : State :=
  { s with octetOut := s.octetOut ++ (List.range' 0 k).map fun j => payloadOctet s.buf s.pos.toNat j }

/-- SERIALIZE from its start, after `k` octets for which OCTET_OUT has room. -/
theorem serializeLoop_from_start {k : Nat} {s : State} (hk : k ≤ payloadOctets s)
    (hroom : s.octetOut.length + k ≤ s.par.ooutDepth) :
    serializeLoop (payloadOctets s) s = serializeLoop (payloadOctets s - k) (serialized k s) := by
  rw [serializeLoop_take k _ s hk le_rfl hroom, Nat.sub_self]
  rfl

/-- SERIALIZE in flight afterwards has filled OCTET_OUT and holds the count done (R14, R40). -/
theorem serialize_waits {s t : State} {f : InFlight} (hs : Inv s) (h : exec .serialize s = .next t)
    (hf : t.inflight = some f) : ∃ done, done < payloadOctets s ∧
      s.octetOut.length + done = s.par.ooutDepth ∧ f = .serialize done ∧
      t = hold (.serialize done) (serialized done s) := by
  have hexec : exec .serialize s = .next (serializeLoop (payloadOctets s) s) := if_neg (Nat.not_lt.2 hs.pos)
  rw [hexec] at h
  cases h
  have hoout := hs.oout
  by_cases hroom : s.octetOut.length + payloadOctets s ≤ s.par.ooutDepth
  · rw [serializeLoop_from_start le_rfl hroom, Nat.sub_self] at hf
    cases hf
  · obtain ⟨done, hdone⟩ := Nat.exists_eq_add_of_le hoout
    have hfull : s.par.ooutDepth ≤ (serialized done s).octetOut.length := by
      simp [serialized]; omega
    have hcount : payloadOctets s - (payloadOctets s - done) = done := by omega
    have ht : serializeLoop (payloadOctets s) s = hold (.serialize done) (serialized done s) := by
      rw [serializeLoop_from_start (k := done) (by omega) (by omega), serializeLoop_full _ _ hfull, if_neg (by omega)]
      change hold (.serialize (payloadOctets s - (payloadOctets s - done))) _ = _
      rw [hcount]
    rw [ht] at hf
    cases hf
    exact ⟨done, by omega, by omega, rfl, ht⟩

/-- Settles O27: up to the wait both engines do the same, and from there the deeper one has the room the pops make. -/
theorem waitingForRoomChangesNoValue : Obligations.WaitingForRoomChangesNoValue := by
  unfold Obligations.WaitingForRoomChangesNoValue
  refine ⟨fun s n sg t f hs h hf => ?_, fun s t f hs h hf => ?_⟩
  · obtain ⟨hn, hfits, _⟩ := extractLoop_of_exec_waits h hf
    obtain ⟨done, hlt, hfull, rfl, rfl⟩ := extract_waits hs h hf
    have hpart := series_prefix_le hlt.le hfits
    have h64 := lt_two_pow_64_of_le_cap hs hpart
    have hpos : (extracted n sg done s).pos.toNat = s.pos.toNat + done * n.toNat := toNat_ofNat_add h64
    have hlen := length_valueOut_extracted n sg done s
    refine ⟨⟨done, rfl, hlt, hfull, hlen.trans hfull, hpos⟩, fun k hk => ?_⟩
    have hdeep : exec (.extract n sg) (deeper k s) =
        .next (extractLoop n sg (s.cnt.toNat - done) (deeper k (extracted n sg done s))) := by
      rw [exec_extract_of_fits (s := deeper k s) sg hn hfits]
      exact congrArg _ (extractLoop_take n sg done _ (deeper k s) hlt.le
        (by change s.valueOut.length + done ≤ s.par.voutDepth + k; omega) h64)
    have hrest : (extracted n sg done s).pos.toNat + (s.cnt.toNat - done) * n.toNat ≤ capOf s := by
      rw [hpos, series_split hlt.le]
      exact hfits
    refine ⟨_, hdeep, (resume_extract_of_fits sg (by exact hrest)).trans ?_⟩
    exact congrArg _ (extractLoop_deeper n sg k _ _ (extracted n sg done s) hk)
  · obtain ⟨done, hlt, hfull, rfl, rfl⟩ := serialize_waits hs h hf
    have hlen : (serialized done s).octetOut.length = s.par.ooutDepth := by simp [serialized, hfull]
    refine ⟨⟨done, rfl, by unfold payloadOctets at hlt; omega, hfull, hlen, rfl⟩, fun k hk => ?_⟩
    have hdeep : exec .serialize (deeper k s) =
        .next (serializeLoop (payloadOctets s - done) (deeper k (serialized done s))) := by
      have hexec : exec .serialize (deeper k s) = .next (serializeLoop (payloadOctets (deeper k s)) (deeper k s)) :=
        if_neg (Nat.not_lt.2 hs.pos)
      rw [hexec]
      exact congrArg _ (serializeLoop_from_start (s := deeper k s) hlt.le
        (by change s.octetOut.length + done ≤ s.par.ooutDepth + k; omega))
    refine ⟨_, hdeep, (resume_serialize_of_fits (by exact hs.pos)).trans ?_⟩
    exact congrArg _ (serializeLoop_deeper k _ _ (serialized done s) hk)

/-! ## LOAD that waits -/

/-- What LOAD leaves after `k` of its octets (R131). -/
def loaded (k : Nat) (s : State) : State :=
  { s with
    octetIn := s.octetIn.drop k
    buf := writeFields s.buf 0 8 ((s.octetIn.take k).map BitVec.toNat) }

/-- LOAD from its start, after `k` octets. -/
theorem loadLoop_from_start {k : Nat} {s : State} (hk : k ≤ s.cnt.toNat) (hthere : k ≤ s.octetIn.length) :
    loadLoop s.cnt.toNat s = loadLoop (s.cnt.toNat - k) (loaded k s) := by
  rw [loadLoop_take k _ s hk le_rfl hthere, Nat.sub_self]
  rfl

/-- LOAD in flight afterwards has taken every octet there, too few, and holds their count (R14, R40). -/
theorem load_waits {s t : State} {f : InFlight} (h : exec .load s = .next t) (hf : t.inflight = some f) :
    8 * s.cnt.toNat ≤ capOf s ∧ s.octetIn.length < s.cnt.toNat ∧ f = .load s.octetIn.length ∧
      t = hold (.load s.octetIn.length) (loaded s.octetIn.length s) := by
  simp only [exec, execLoad] at h
  split_ifs at h with hfits
  · cases h; cases hf
  · cases h
    by_cases hthere : s.cnt.toNat ≤ s.octetIn.length
    · rw [loadLoop_from_start le_rfl hthere, Nat.sub_self] at hf
      cases hf
    · have hfew : s.octetIn.length < s.cnt.toNat := Nat.not_le.1 hthere
      have hcount : s.cnt.toNat - (s.cnt.toNat - s.octetIn.length) = s.octetIn.length := by omega
      have hempty : (loaded s.octetIn.length s).octetIn = [] := List.drop_length
      have ht : loadLoop s.cnt.toNat s = hold (.load s.octetIn.length) (loaded s.octetIn.length s) := by
        rw [loadLoop_from_start hfew.le le_rfl, loadLoop_nil _ _ hempty, if_neg (by omega)]
        change hold (.load (s.cnt.toNat - (s.cnt.toNat - s.octetIn.length))) _ = _
        rw [hcount]
      rw [ht] at hf
      cases hf
      exact ⟨Nat.not_lt.1 hfits, hfew, rfl, ht⟩

/-- LOAD that waited goes on as if its late octets had been there at the start. -/
theorem load_goes_on {s t : State} {early late : List Octet} {f : InFlight}
    (h : exec .load { s with octetIn := early } = .next t) (hf : t.inflight = some f) :
    f = .load early.length ∧ early.length < s.cnt.toNat ∧ t.octetIn = [] ∧
      resume f { t with octetIn := late } = exec .load { s with octetIn := early ++ late } := by
  obtain ⟨hfits, hfew, rfl, rfl⟩ := load_waits h hf
  refine ⟨rfl, hfew, List.drop_length, ?_⟩
  have hall : exec .load { s with octetIn := early ++ late } =
      .next (loadLoop s.cnt.toNat { s with octetIn := early ++ late }) := if_neg (Nat.not_lt.2 hfits)
  have htake := loadLoop_from_start (s := { s with octetIn := early ++ late }) (k := early.length) hfew.le (by simp)
  have hsame : loaded early.length { s with octetIn := early ++ late } =
      { loaded early.length { s with octetIn := early } with octetIn := late } := by
    simp [loaded]
  rw [hsame] at htake
  refine (resume_load_of_fits (by exact hfits)).trans (Eq.trans ?_ (hall.trans (congrArg _ htake)).symm)
  exact congrArg _ (loadLoop_inflight _ _ { loaded early.length { s with octetIn := early } with octetIn := late })

end Sys2Proof.Machine
end

section
/-! PROOFS. ENCODE_FRAME: its checks, the stream it writes, what an error leaves, and that when its words arrive does not
matter (R14, R29, R40, R105 to R112, R143). -/

namespace Sys2Proof.Machine

/-! ## The checks -/

theorem exec_encodeFrame_of_block_illegal {s : State} (hblock : ¬(1 ≤ cfgBlock s.cfg ∧ cfgBlock s.cfg ≤ 64)) :
    exec .encodeFrame s = .next (raise 0x10#8 .configBlock s) := if_pos hblock

theorem exec_encodeFrame_of_pb_illegal {s : State} (hblock : 1 ≤ cfgBlock s.cfg ∧ cfgBlock s.cfg ≤ 64)
    (hpb : ¬(1 ≤ cfgPb s.cfg ∧ cfgPb s.cfg ≤ 64)) :
    exec .encodeFrame s = .next (raise 0x10#8 .configPb s) :=
  (if_neg (not_not.2 hblock)).trans (if_pos hpb)

/-- Settles O32. -/
theorem encodeConfigErrors : Obligations.EncodeConfigErrors := by
  unfold Obligations.EncodeConfigErrors
  exact fun s => ⟨fun hblock => ⟨_, exec_encodeFrame_of_block_illegal hblock, raise_raisedOnly _ _ s⟩,
    fun hblock hpb => ⟨_, exec_encodeFrame_of_pb_illegal hblock hpb, raise_raisedOnly _ _ s⟩⟩

/-- With a legal CFG and POS in BUF the values are encoded from the frame's start (R109, R110). -/
theorem exec_encodeFrame_of_legal {s : State} (hc : codecLegal s.cfg) (hpos : s.pos.toNat ≤ capOf s) :
    exec .encodeFrame s = .next (encodeLoop s.nvalues.toNat [] (encodeStart s).pos (encodeStart s)) :=
  (if_neg (not_not.2 hc.1)).trans ((if_neg (not_not.2 hc.2)).trans (if_neg (Nat.not_lt.2 hpos)))

/-! ## Whole blocks -/

/-- BUF `m` holds the frame of `ys` encoded from the state `s`: zeros up to the byte boundary, the stream there, and every
other bit as before (R109, R110). -/
structure FrameWritten (s : State) (ys : List Word) (m : Memory) : Prop where
  wf : m.wf = true
  within : s.buf.within s.par.octets = true → m.within s.par.octets = true
  stream : holdsStream m (ceil8 s.pos.toNat) (streamFrame s.cfg ys)
  gap : ∀ q, s.pos.toNat ≤ q → q < ceil8 s.pos.toNat → memBit m q = false
  outside : ∀ q, (q < s.pos.toNat ∨ ceil8 s.pos.toNat + (streamFrame s.cfg ys).length ≤ q) →
    memBit m q = memBit s.buf q

/-- ENCODE_FRAME after the values `ys` in whole blocks (R110): BUF is `m`, POS is `p`. -/
def encoded (ys : List Word) (m : Memory) (p : Word) (s : State) : State :=
  { s with
    buf := m
    pos := p
    frameStart := BitVec.ofNat 64 (ceil8 s.pos.toNat)
    prevS := BitVec.ofNat 7 (frameSig s.cfg ys)
    valueIn := s.valueIn.drop ys.length }

/-- `ys` are the first `NVALUES - left` values in VALUE_IN: whole blocks of legal words that fit below CAP. -/
structure WholeBlocks (s : State) (ys : List Word) (left : Nat) : Prop where
  count : ys.length + left = s.nvalues.toNat
  whole : left = 0 ∨ ys.length % cfgBlock s.cfg = 0
  there : ys = s.valueIn.take ys.length
  legal : wordsLegal s.cfg ys
  fits : ceil8 s.pos.toNat + (streamFrame s.cfg ys).length ≤ capOf s

theorem frameSig_le {c : Word} {ys : List Word} (hc : codecLegal c) (hl : wordsLegal c ys) : frameSig c ys ≤ 64 :=
  lastSig_le hc _ 0 (Nat.zero_le _) (wordsLegal_of_mem_blocksOf hc.one_le_block hl)

theorem toNat_prevS_encoded {s : State} {ys : List Word} (hc : codecLegal s.cfg) (hl : wordsLegal s.cfg ys) (m : Memory)
    (p : Word) : (encoded ys m p s).prevS.toNat = frameSig s.cfg ys := by
  have := frameSig_le hc hl
  change (BitVec.ofNat 7 _).toNat = _
  rw [BitVec.toNat_ofNat, Nat.mod_eq_of_lt (by omega)]

theorem toNat_ceil8 {s : State} (hs : Inv s) : (BitVec.ofNat 64 (ceil8 s.pos.toNat)).toNat = ceil8 s.pos.toNat :=
  toNat_ofNat_lt (lt_two_pow_64_of_le_cap hs (ceil8_le_cap hs.pos))

/-- ENCODE_FRAME writes the whole blocks its values begin with, whatever comes after them. -/
theorem exec_encodeFrame_blocks {s : State} {ys : List Word} {left : Nat} (hs : Inv s) (hc : codecLegal s.cfg)
    (hw : WholeBlocks s ys left) : ∃ (m : Memory) (p : Word), FrameWritten s ys m ∧
      p.toNat = ceil8 s.pos.toNat + (streamFrame s.cfg ys).length ∧
      exec .encodeFrame s = .next (encodeLoop left [] p (encoded ys m p s)) := by
  obtain ⟨hcount, hwhole, hthere, hlegal, hfits⟩ := hw
  have hB := hc.one_le_block
  have hstart : (encodeStart s).pos.toNat = ceil8 s.pos.toNat := toNat_ceil8 hs
  have hgapLen : s.pos.toNat + (ceil8 s.pos.toNat - s.pos.toNat) = ceil8 s.pos.toNat :=
    Nat.add_sub_cancel' (le_ceil8 _)
  have hgapWf : (encodeStart s).buf.wf = true := memWrite_wf _ _ _ hs.bufWf
  have hrun := blockRun_blocksOf hB ys.length left ys le_rfl hwhole
  rw [hcount] at hrun
  have hin : s.valueIn = (blocksOf (cfgBlock s.cfg) ys).flatten ++ s.valueIn.drop ys.length := by
    rw [flatten_blocksOf hB ys.length ys le_rfl]
    conv_lhs => rw [← List.take_append_drop ys.length s.valueIn, ← hthere]
  have hcap64 : capOf s < 2 ^ 64 := lt_two_pow_64_of_le_cap hs le_rfl
  obtain ⟨m, p, hp, heq, hwf, hwithin, hstream, houtside⟩ :=
    encodeLoop_blocks (blocksOf (cfgBlock s.cfg) ys) s.nvalues.toNat left (s.valueIn.drop ys.length) (encodeStart s)
      hgapWf hc hrun hin (wordsLegal_of_mem_blocksOf hB hlegal) hcap64 (by rw [hstart]; exact hfits)
  rw [hstart] at hp hstream houtside
  refine ⟨m, p, ⟨hwf, fun hin => hwithin _ ?_ le_rfl, hstream, fun q hlo hhi => ?_, fun q hq => ?_⟩, hp, ?_⟩
  · exact memWrite_within _ _ hs.bufWf hin (by rw [hgapLen]; exact ceil8_le_cap hs.pos)
  · rw [houtside q (.inl hhi)]
    change memBit (memWrite s.buf s.pos.toNat _ 0) q = false
    rw [memBit_memWrite _ _ _ _ hs.bufWf, hgapLen, if_pos ⟨hlo, hhi⟩, Nat.zero_testBit]
  · have hle := le_ceil8 s.pos.toNat
    rw [houtside q (by
      change q < _ ∨ ceil8 s.pos.toNat + (streamFrame s.cfg ys).length ≤ q
      omega)]
    exact memBit_memWrite_outside hs.bufWf _ _ _ (by rw [hgapLen]; omega)
  · rw [exec_encodeFrame_of_legal hc hs.pos]
    exact congrArg _ heq

/-! ## A whole frame -/

theorem toNat_sub_of_add {a b : Word} {k : Nat} (h : a.toNat = b.toNat + k) : (a - b).toNat = k := by
  rw [BitVec.toNat_sub_of_le (by rw [BitVec.le_def]; omega)]
  omega

/-- Settles O33: all NVALUES values are whole blocks, after which the frame ends. -/
theorem encodeFrameWritesStream : Obligations.EncodeFrameWritesStream := by
  unfold Obligations.EncodeFrameWritesStream
  intro s hs hc hthere hlegal hfits
  have hlen : (s.valueIn.take s.nvalues.toNat).length = s.nvalues.toNat := by
    rw [List.length_take]; omega
  have hw : WholeBlocks s (s.valueIn.take s.nvalues.toNat) 0 :=
    ⟨hlen, .inl rfl, by rw [hlen], hlegal, hfits⟩
  obtain ⟨m, p, hm, hp, hexec⟩ := exec_encodeFrame_blocks hs hc hw
  have hprev := toNat_prevS_encoded hc hlegal m p
  generalize hys : s.valueIn.take s.nvalues.toNat = ys at *
  have hstart := toNat_ceil8 hs
  have hbits : (p - BitVec.ofNat 64 (ceil8 s.pos.toNat)).toNat = (streamFrame s.cfg ys).length :=
    toNat_sub_of_add (by rw [hstart]; exact hp)
  refine ⟨finishEncode (encoded ys m p s), hexec, ?_, hstart, hbits, rfl, ?_, hprev, ?_, fun q hlo hhi => ?_,
    fun q hq => hm.outside q ?_⟩
  · rw [← hlen]
    rfl
  · change p.toNat = (BitVec.ofNat 64 (ceil8 s.pos.toNat)).toNat + (p - BitVec.ofNat 64 (ceil8 s.pos.toNat)).toNat
    rw [hbits, hstart, hp]
  · change holdsStream m (BitVec.ofNat 64 (ceil8 s.pos.toNat)).toNat _
    rw [hstart]
    exact hm.stream
  · exact hm.gap q hlo (by rw [← hstart]; exact hhi)
  · rw [← hp]
    exact hq

/-! ## A block that fails -/

/-- A frame ends with its last block. -/
theorem streamFrame_append {c : Word} {ys zs : List Word} (hB : 1 ≤ cfgBlock c) (hwhole : ys.length % cfgBlock c = 0)
    (hne : zs ≠ []) (hle : zs.length ≤ cfgBlock c) :
    streamFrame c (ys ++ zs) = streamFrame c ys ++ streamBlock c (frameSig c ys) zs := by
  unfold streamFrame frameSig
  rw [blocksOf_append hB zs ys.length ys le_rfl hwhole, blocksOf_one hB hne hle, streamBlocks_append]
  simp [streamBlocks]

theorem wordsLegal_append {c : Word} {ys zs : List Word} :
    wordsLegal c (ys ++ zs) ↔ wordsLegal c ys ∧ wordsLegal c zs := List.forall_mem_append

/-- A block with a word that is no legal value fails with RANGE, whether or not it would fit (R111, R143). -/
theorem encodeBlock_of_illegal {xs : List Word} {s : State} (h : ¬wordsLegal s.cfg xs) :
    encodeBlock xs s = .error .range := by
  have hall : xs.all (wordLegal (cfgSigned s.cfg) (cfgPb s.cfg)) = false :=
    Bool.eq_false_iff.2 fun h' => h (List.all_eq_true.1 h')
  exact if_pos hall

/-- A block of legal words that does not fit fails with BOUNDS (R111). -/
theorem encodeBlock_of_misfit {xs : List Word} {s : State} (h : wordsLegal s.cfg xs)
    (hmisfit : capOf s < s.pos.toNat + (streamBlock s.cfg s.prevS.toNat xs).length) :
    encodeBlock xs s = .error .bounds := by
  have hall : xs.all (wordLegal (cfgSigned s.cfg) (cfgPb s.cfg)) = true := List.all_eq_true.2 h
  rw [streamBlock_length, ← Nat.add_assoc] at hmisfit
  exact (if_neg (by simp [hall])).trans (if_pos hmisfit)

/-- Settles O34: the failing block is the one after the whole ones, and its error is RANGE before BOUNDS. -/
theorem encodeErrorPartialEffects : Obligations.EncodeErrorPartialEffects := by
  unfold Obligations.EncodeErrorPartialEffects
  intro s k code hs hc hthere hk hlegal hfits hfail
  have hB := hc.one_le_block
  generalize hb : cfgBlock s.cfg = b at *
  generalize hN : s.nvalues.toNat = N at *
  generalize hys : s.valueIn.take (k * b) = ys at *
  generalize hzs : (s.valueIn.drop (k * b)).take (min b (N - k * b)) = zs
  have hylen : ys.length = k * b := by rw [← hys, List.length_take]; omega
  have hzlen : zs.length = min b (N - k * b) := by rw [← hzs, List.length_take, List.length_drop]; omega
  have htake : s.valueIn.take (min (k * b + b) N) = ys ++ zs := by
    rw [← hys, ← hzs, ← List.take_add, show k * b + min b (N - k * b) = min (k * b + b) N by omega]
  have hne : zs ≠ [] := List.length_pos_iff.1 (by omega)
  have hwhole : ys.length % cfgBlock s.cfg = 0 := by rw [hylen, hb]; exact Nat.mul_mod_left k b
  have hw : WholeBlocks s ys (N - k * b) :=
    ⟨by omega, .inr hwhole, by rw [hylen, hys], hlegal, hfits⟩
  obtain ⟨m, p, hm, hp, hexec⟩ := exec_encodeFrame_blocks hs hc hw
  have hprev := toNat_prevS_encoded hc hlegal m p
  have hrest : (encoded ys m p s).valueIn = zs ++ s.valueIn.drop (min (k * b + b) N) := by
    change s.valueIn.drop ys.length = _
    rw [hylen, show min (k * b + b) N = k * b + min b (N - k * b) by omega, ← List.drop_drop, ← hzs,
      List.take_append_drop]
  rw [htake, streamFrame_append (by rw [hb]; exact hB) hwhole hne (by omega), List.length_append, ← Nat.add_assoc,
    ← hp, wordsLegal_append] at hfail
  obtain ⟨c, hcode, hsub, hblock⟩ : ∃ c, errCode c = code ∧ errSubCode c = 0#4 ∧
      encodeBlock zs { encoded ys m p s with valueIn := s.valueIn.drop (min (k * b + b) N) } = .error c := by
    rcases hfail with ⟨hill, rfl⟩ | ⟨hleg, hmis, rfl⟩
    · exact ⟨.range, rfl, rfl, encodeBlock_of_illegal fun hz => hill ⟨hlegal, hz⟩⟩
    · refine ⟨.bounds, rfl, rfl, encodeBlock_of_misfit hleg.2 ?_⟩
      change capOf s < p.toNat + (streamBlock s.cfg (encoded ys m p s).prevS.toNat zs).length
      rw [hprev]
      exact hmis
  rw [encodeLoop_block zs _ _ p _ hrest hne (by omega) (by change zs.length = min (cfgBlock s.cfg) _; omega),
    hblock] at hexec
  have hstart := toNat_ceil8 hs
  refine ⟨_, hexec, ?_, hp, hprev, hstart, rfl, ?_, fun q hlo hhi => hm.gap q hlo ?_, fun q hq => hm.outside q ?_⟩
  · subst hcode
    simp only [raise, hsub]
    rfl
  · change holdsStream m (BitVec.ofNat 64 (ceil8 s.pos.toNat)).toNat _
    rw [hstart]
    exact hm.stream
  · rw [← hstart]
    exact hhi
  · rw [← hp]
    exact hq

/-! ## An encoding that raised nothing -/

/-- Where encoding whole blocks records no error, their words are legal and they fit. -/
theorem encodeLoop_blocks_of_faults : ∀ (bs : List (List Word)) (left left' : Nat) (q : List Word) (s : State),
    s.buf.wf = true → codecLegal s.cfg → blockRun (cfgBlock s.cfg) left bs left' → s.valueIn = bs.flatten ++ q →
    capOf s < 2 ^ 64 → s.pos.toNat ≤ capOf s → (encodeLoop left [] s.pos s).faults = s.faults →
    (∀ xs ∈ bs, wordsLegal s.cfg xs) ∧ s.pos.toNat + (streamBlocks s.cfg s.prevS.toNat bs).length ≤ capOf s
  | [], _, _, _, _, _, _, _, _, _, hpos, _ => ⟨by simp, hpos⟩
  | xs :: r, left, left', q, s, hwf, hc, hrun, hin, h64, hpos, hfaults => by
    obtain ⟨hne, hlen, hrun⟩ := hrun
    rw [List.flatten_cons, List.append_assoc] at hin
    rw [encodeLoop_block xs (r.flatten ++ q) left s.pos s hin hne (by omega) hlen] at hfaults
    have hlegal : wordsLegal s.cfg xs := by
      by_contra hill
      rw [encodeBlock_of_illegal (s := { s with valueIn := r.flatten ++ q }) hill] at hfaults
      exact List.cons_ne_self _ _ hfaults
    have hfits : s.pos.toNat + (streamBlock s.cfg s.prevS.toNat xs).length ≤ capOf s := by
      by_contra hmis
      rw [encodeBlock_of_misfit (s := { s with valueIn := r.flatten ++ q }) hlegal (Nat.not_le.1 hmis)] at hfaults
      exact List.cons_ne_self _ _ hfaults
    obtain ⟨m, hblock, hmwf, _⟩ :=
      encodeBlock_writes (xs := xs) (s := { s with valueIn := r.flatten ++ q }) hwf hc hlegal hfits
    have hp : (BitVec.ofNat 64 (s.pos.toNat + (streamBlock s.cfg s.prevS.toNat xs).length)).toNat =
        s.pos.toNat + (streamBlock s.cfg s.prevS.toNat xs).length := toNat_ofNat_add (by omega)
    have hsig := ofNat_streamSig hc hlegal
    rw [hblock] at hfaults
    obtain ⟨hrest, hend⟩ := encodeLoop_blocks_of_faults r (left - xs.length) left' q
      { s with
        valueIn := r.flatten ++ q, buf := m
        pos := BitVec.ofNat 64 (s.pos.toNat + (streamBlock s.cfg s.prevS.toNat xs).length)
        prevS := BitVec.ofNat 7 (streamSig s.cfg xs) }
      hmwf hc hrun rfl h64 (by rw [hp]; exact hfits) hfaults
    rw [hp, hsig] at hend
    refine ⟨List.forall_mem_cons.2 ⟨hlegal, hrest⟩, ?_⟩
    rw [streamBlocks, List.length_append, ← Nat.add_assoc]
    exact hend

/-- ENCODE_FRAME that records no error had legal words that fit. -/
theorem legal_of_encodeFrame_ok {s t : State} (hs : Inv s) (hc : codecLegal s.cfg)
    (hthere : s.nvalues.toNat ≤ s.valueIn.length) (h : exec .encodeFrame s = .next t) (hfaults : t.faults = s.faults) :
    wordsLegal s.cfg (s.valueIn.take s.nvalues.toNat) ∧
      ceil8 s.pos.toNat + (streamFrame s.cfg (s.valueIn.take s.nvalues.toNat)).length ≤ capOf s := by
  have hB := hc.one_le_block
  have hflat : (blocksOf (cfgBlock s.cfg) (s.valueIn.take s.nvalues.toNat)).flatten = s.valueIn.take s.nvalues.toNat :=
    flatten_blocksOf hB _ _ le_rfl
  have hlen : (s.valueIn.take s.nvalues.toNat).length = s.nvalues.toNat := by rw [List.length_take]; omega
  have hrun := blockRun_blocksOf hB _ 0 (s.valueIn.take s.nvalues.toNat) le_rfl (.inl rfl)
  rw [hlen, Nat.add_zero] at hrun
  have hstart : (encodeStart s).pos.toNat = ceil8 s.pos.toNat := toNat_ceil8 hs
  rw [exec_encodeFrame_of_legal hc hs.pos] at h
  cases h
  obtain ⟨hlegal, hfits⟩ := encodeLoop_blocks_of_faults _ _ 0 (s.valueIn.drop s.nvalues.toNat) (encodeStart s)
    (memWrite_wf _ _ _ hs.bufWf) hc hrun (by rw [hflat, List.take_append_drop]; rfl) (lt_two_pow_64_of_le_cap hs le_rfl)
    (by rw [hstart]; exact ceil8_le_cap hs.pos) hfaults
  rw [hstart] at hfits
  refine ⟨fun x hx => ?_, hfits⟩
  rw [← hflat] at hx
  obtain ⟨ys, hys, hxy⟩ := List.mem_flatten.1 hx
  exact hlegal ys hys x hxy

/-! ## Words that arrive late -/

/-- A block reads neither VALUE_IN nor the command in flight. -/
theorem encodeBlock_ports (xs q : List Word) (f : Option InFlight) (s : State) :
    encodeBlock xs { s with inflight := f, valueIn := q } =
      (encodeBlock xs s).map fun t => { t with inflight := f, valueIn := q } := by
  unfold encodeBlock
  simp only [apply_ite (Except.map _)]
  rfl

section OneWord
variable {left : Nat} {vals q : List Word} {x start : Word} {s : State} (hin : s.valueIn = x :: q)
include hin

/-- A word that does not make its block whole is kept. -/
theorem encodeLoop_of_more (hmore : (vals ++ [x]).length < min (cfgBlock s.cfg) ((vals ++ [x]).length + left)) :
    encodeLoop (left + 1) vals start s = encodeLoop left (vals ++ [x]) start { s with valueIn := q } := by
  simp only [encodeLoop, hin, if_pos hmore]

/-- A word that makes its block whole has it written, and the next block begins. -/
theorem encodeLoop_of_whole (hwhole : ¬(vals ++ [x]).length < min (cfgBlock s.cfg) ((vals ++ [x]).length + left))
    {t : State} (hb : encodeBlock (vals ++ [x]) { s with valueIn := q } = .ok t) :
    encodeLoop (left + 1) vals start s = encodeLoop left [] t.pos t := by
  simp only [encodeLoop, hin, if_neg hwhole, hb]

/-- Or its error is raised. -/
theorem encodeLoop_of_error (hwhole : ¬(vals ++ [x]).length < min (cfgBlock s.cfg) ((vals ++ [x]).length + left))
    {c : Cause} (hb : encodeBlock (vals ++ [x]) { s with valueIn := q } = .error c) :
    encodeLoop (left + 1) vals start s = raise 0x10#8 c { s with valueIn := q, pos := start } := by
  simp only [encodeLoop, hin, if_neg hwhole, hb]

end OneWord

theorem encodeLoop_inflight (f : Option InFlight) : ∀ (left : Nat) (vals : List Word) (start : Word) (s : State),
    encodeLoop left vals start { s with inflight := f } = encodeLoop left vals start s
  | 0, _, _, _ => rfl
  | left + 1, vals, start, s => by
    cases hv : s.valueIn with
    | nil => simp [encodeLoop, hv, hold]
    | cons x q =>
      simp only [encodeLoop, hv]
      split
      · exact encodeLoop_inflight f left (vals ++ [x]) start { s with valueIn := q }
      · have hports := encodeBlock_ports (vals ++ [x]) q f s
        have hports' := encodeBlock_ports (vals ++ [x]) q s.inflight s
        rw [hports, hports']
        cases encodeBlock (vals ++ [x]) s with
        | error c => rfl
        | ok t =>
          exact Eq.trans (encodeLoop_inflight f left [] t.pos { t with valueIn := q })
            (encodeLoop_inflight s.inflight left [] t.pos { t with valueIn := q }).symm

/-- The words of the block not yet whole, of the words popped so far. -/
def openBlock (b : Nat) (xs : List Word) : List Word := xs.drop (b * (xs.length / b))

theorem openBlock_of_lt {b : Nat} {xs : List Word} (h : xs.length < b) : openBlock b xs = xs := by
  simp [openBlock, Nat.div_eq_of_lt h]

/-- A whole block is not among them. -/
theorem openBlock_append {b : Nat} (hb : 1 ≤ b) {xs : List Word} (h : xs.length = b) (ys : List Word) :
    openBlock b (xs ++ ys) = openBlock b ys := by
  unfold openBlock
  rw [List.length_append, h, Nat.add_div_left _ (by omega), Nat.mul_succ, Nat.add_comm (b * _) b, ← List.drop_drop]
  congr 1
  exact List.drop_left' h

/-- ENCODE_FRAME in flight afterwards has taken every word of VALUE_IN, too few, and holds the current block's; from
there late words take it where it would have gone with all of them (R14, R40). -/
theorem encodeLoop_waits : ∀ (early : List Word) (left : Nat) (vals : List Word) (s : State) (f : InFlight),
    1 ≤ cfgBlock s.cfg → vals.length < cfgBlock s.cfg → s.valueIn = early →
    (encodeLoop left vals s.pos s).inflight = some f →
    early.length < left ∧ (encodeLoop left vals s.pos s).valueIn = [] ∧
      f = .encode (s.nvalues.toNat - (left - early.length)) (openBlock (cfgBlock s.cfg) (vals ++ early))
        (encodeLoop left vals s.pos s).pos ∧
      ∀ late : List Word, encodeLoop (left - early.length) (openBlock (cfgBlock s.cfg) (vals ++ early))
          (encodeLoop left vals s.pos s).pos { encodeLoop left vals s.pos s with valueIn := late } =
        encodeLoop left vals s.pos { s with valueIn := early ++ late }
  | early, 0, _, _, _, _, _, _, hf => by cases hf
  | [], left + 1, vals, s, f, _, hvals, hin, hf => by
    have hloop : encodeLoop (left + 1) vals s.pos s = hold (.encode (s.nvalues.toNat - (left + 1)) vals s.pos) s := by
      simp [encodeLoop, hin]
    rw [hloop] at hf ⊢
    cases hf
    rw [List.append_nil, openBlock_of_lt hvals]
    exact ⟨by simp, hin, rfl, fun late => encodeLoop_inflight _ _ _ _ { s with valueIn := late }⟩
  | x :: q, left + 1, vals, s, f, hB, hvals, hin, hf => by
    have hsub : left + 1 - (x :: q).length = left - q.length := by simp
    have happ : vals ++ x :: q = (vals ++ [x]) ++ q := by simp
    have hlen1 : (vals ++ [x]).length = vals.length + 1 := by simp
    by_cases hmore : (vals ++ [x]).length < min (cfgBlock s.cfg) ((vals ++ [x]).length + left)
    · rw [encodeLoop_of_more hin hmore] at hf ⊢
      obtain ⟨hlt, hempty, hfl, hlate⟩ := encodeLoop_waits q left (vals ++ [x]) { s with valueIn := q } f hB
        (by change (vals ++ [x]).length < cfgBlock s.cfg; omega) rfl hf
      rw [hsub, happ]
      exact ⟨by simpa using hlt, hempty, hfl, fun late => (hlate late).trans
        (encodeLoop_of_more (s := { s with valueIn := x :: q ++ late }) rfl hmore).symm⟩
    · have hports : ∀ r, encodeBlock (vals ++ [x]) { s with valueIn := r } =
          (encodeBlock (vals ++ [x]) s).map fun t => { t with inflight := s.inflight, valueIn := r } := fun r =>
        encodeBlock_ports (vals ++ [x]) r s.inflight s
      cases hb : encodeBlock (vals ++ [x]) s with
      | error c =>
        rw [encodeLoop_of_error hin hmore (c := c) (by rw [hports, hb]; rfl)] at hf
        cases hf
      | ok t =>
        obtain ⟨m, p, prev, rfl⟩ := encodeBlock_ok hb
        have hok : ∀ r, encodeBlock (vals ++ [x]) { s with valueIn := r } =
            .ok { s with buf := m, pos := p, prevS := prev, valueIn := r } := fun r => by rw [hports, hb]; rfl
        rw [encodeLoop_of_whole hin hmore (hok q)] at hf ⊢
        obtain ⟨hlt, hempty, hfl, hlate⟩ := encodeLoop_waits q left []
          { s with buf := m, pos := p, prevS := prev, valueIn := q } f hB (by exact hB) rfl hf
        have hwhole : (vals ++ [x]).length = cfgBlock s.cfg := by omega
        rw [hsub, happ, openBlock_append hB hwhole]
        exact ⟨by simpa using hlt, hempty, hfl, fun late => (hlate late).trans
          (encodeLoop_of_whole (s := { s with valueIn := x :: q ++ late }) rfl hmore (hok (q ++ late))).symm⟩

/-- Settles O35. -/
theorem waitingForElementsChangesNoValue : Obligations.WaitingForElementsChangesNoValue := by
  unfold Obligations.WaitingForElementsChangesNoValue
  refine ⟨fun s early late t f h hf => ?_, fun s early late t f h hf => load_goes_on h hf⟩
  obtain ⟨hc, hpos⟩ : codecLegal s.cfg ∧ s.pos.toNat ≤ capOf s := by
    simp only [exec, execEncodeFrame] at h
    split_ifs at h with hblock hpb hcap
    · exact ⟨⟨hblock, hpb⟩, Nat.not_lt.1 hcap⟩
    · cases h; cases hf
    · cases h; cases hf
  have hexec : ∀ q, exec .encodeFrame { s with valueIn := q } =
      .next (encodeLoop s.nvalues.toNat [] (encodeStart s).pos { encodeStart s with valueIn := q }) := fun q =>
    exec_encodeFrame_of_legal (s := { s with valueIn := q }) hc hpos
  obtain ⟨_, _, _, hnvalues, _⟩ := exec_hostKept h
  rw [hexec] at h
  cases h
  obtain ⟨hlt, hempty, hfl, hlate⟩ := encodeLoop_waits early s.nvalues.toNat []
    { encodeStart s with valueIn := early } f hc.one_le_block (by exact hc.one_le_block) rfl hf
  have hcount : s.nvalues.toNat - (s.nvalues.toNat - early.length) = early.length := by omega
  change f = .encode (s.nvalues.toNat - (s.nvalues.toNat - early.length)) (openBlock (cfgBlock s.cfg) early) _ at hfl
  rw [hcount] at hfl
  refine ⟨hfl, hlt, hempty, ?_⟩
  rw [hfl, hexec]
  refine congrArg Host.Outcome.next (Eq.trans ?_ (hlate late))
  exact congrArg (fun n => encodeLoop (n.toNat - early.length) (openBlock (cfgBlock s.cfg) early) _ _) hnvalues

end Sys2Proof.Machine
end

section
/-! PROOFS. DECODE_FRAME on a frame BUF holds: its values, a block that fails after whole ones, a header code by itself, and
the round trip with ENCODE_FRAME (R115 to R123, R126). -/

namespace Sys2Proof.Machine

/-! ## Whole blocks -/

/-- With its checks passed DECODE_FRAME decodes from the frame's start (R120, R121). -/
theorem exec_decodeFrame_of_legal (d : Bool) {s : State} (hc : codecLegal s.cfg) (hdst : destinationLegal s.cfg)
    (hlim : s.limit.toNat ≤ capOf s) :
    exec (.decodeFrame d) s = decodeBlocks (deliverLoop d 0 (decodeStart s).pos [] (decodeStart s)) := by
  obtain ⟨hsign, hnarrow⟩ := hdst
  rw [exec_decodeFrame_of_codecLegal d hc, if_neg hsign, if_neg hnarrow, if_neg (Nat.not_lt.2 hlim)]

/-- The words pushed for values (R37, R100, R122): none with D = 1. -/
def deliveredWords (d : Bool) (c : Word) (xs : List Word) : List Word :=
  if d then [] else xs.map fun x => deliverWord c (wordValue (cfgSigned c) (cfgPb c) x)

/-- DECODE_FRAME after the values `xs` in whole blocks (R121, R122). -/
def decoded (d : Bool) (xs : List Word) (s : State) : State :=
  { s with
    pos := BitVec.ofNat 64 (ceil8 s.pos.toNat + (streamFrame s.cfg xs).length)
    frameStart := BitVec.ofNat 64 (ceil8 s.pos.toNat)
    prevS := BitVec.ofNat 7 (frameSig s.cfg xs)
    valueOut := s.valueOut ++ deliveredWords d s.cfg xs }

/-- BUF holds, below LIMIT, the whole blocks `xs` of a frame of which `left` values are still to come, and VALUE_OUT has
room for their words. -/
structure HoldsBlocks (d : Bool) (s : State) (xs : List Word) (left : Nat) : Prop where
  count : xs.length + left = s.nvalues.toNat
  whole : left = 0 ∨ xs.length % cfgBlock s.cfg = 0
  legal : wordsLegal s.cfg xs
  held : holdsStream s.buf (ceil8 s.pos.toNat) (streamFrame s.cfg xs)
  below : xs ≠ [] → ceil8 s.pos.toNat + (streamFrame s.cfg xs).length ≤ s.limit.toNat
  room : d = true ∨ s.valueOut.length + xs.length ≤ s.par.voutDepth

theorem streamFrame_nil {c : Word} (hB : 1 ≤ cfgBlock c) : streamFrame c [] = [] := by
  simp [streamFrame, blocksOf_nil hB, streamBlocks]

/-- The blocks end in BUF. -/
theorem HoldsBlocks.end_le {d : Bool} {s : State} {xs : List Word} {left : Nat} (hs : Inv s) (hB : 1 ≤ cfgBlock s.cfg)
    (hh : HoldsBlocks d s xs left) : ceil8 s.pos.toNat + (streamFrame s.cfg xs).length ≤ capOf s := by
  by_cases hne : xs = []
  · rw [hne, streamFrame_nil hB]
    exact ceil8_le_cap hs.pos
  · exact Nat.le_trans (hh.below hne) hs.limit

/-- DECODE_FRAME reads the whole blocks BUF holds, and stands at the next block boundary or ends the frame. -/
theorem exec_decodeFrame_blocks {d : Bool} {s : State} {xs : List Word} {left : Nat} (hs : Inv s)
    (hc : codecLegal s.cfg) (hdst : destinationLegal s.cfg) (hh : HoldsBlocks d s xs left) :
    exec (.decodeFrame d) s =
      if left = 0 then .next (finishDecode (decoded d xs s))
      else decodeBlocks (hold (.decode d xs.length [] (decoded d xs s).pos) (decoded d xs s)) := by
  have hB := hc.one_le_block
  have hend := lt_two_pow_64_of_le_cap hs (hh.end_le hs hB)
  obtain ⟨hcount, hwhole, hlegal, hheld, hbelow, hroom⟩ := hh
  have hstart : (decodeStart s).pos.toNat = ceil8 s.pos.toNat := toNat_ceil8 hs
  have hlegal' := wordsLegal_of_mem_blocksOf hB hlegal
  have hflat := flatten_blocksOf hB xs.length xs le_rfl
  have hdone : blocksDone d (blocksOf (cfgBlock s.cfg) xs) (decodeStart s) = decoded d xs s := by
    rw [blocksDone_eq d _ (decodeStart s) hc hlegal' (by rw [hstart]; exact hend), hstart]
    simp only [decodeStart, hflat]
    rfl
  rw [exec_decodeFrame_of_legal d hc hdst hs.limit, deliverLoop]
  by_cases hN : s.nvalues.toNat = 0
  · have hnil : xs = [] := List.length_eq_zero_iff.1 (by omega)
    subst hnil
    have hnone : decodeStart s = decoded d [] s := by
      rw [← hdone, blocksOf_nil hB]
      rfl
    rw [if_pos (by change s.nvalues.toNat ≤ 0; omega), if_pos (by omega), hnone]
    exact decodeBlocks_stays (not_atBoundary_of_idle rfl)
  · have hrun := blockRun_blocksOf hB xs.length left xs le_rfl hwhole
    rw [hcount] at hrun
    rw [if_neg (by change ¬s.nvalues.toNat ≤ 0; omega)]
    have hblocks := decodeBlocks_run d (blocksOf (cfgBlock s.cfg) xs) 0 left (decodeStart s) hc (Nat.pos_of_ne_zero hN)
      hrun hlegal' hs.limit (by rw [hstart]; exact hheld) (fun hne => by
        rw [hstart]
        exact hbelow fun hnil => hne (by rw [hnil]; exact blocksOf_nil hB)) (by rw [hflat]; exact hroom)
    rw [hdone] at hblocks
    have hix : (decodeStart s).nvalues.toNat - left = xs.length := by
      change s.nvalues.toNat - left = xs.length
      omega
    rw [hix] at hblocks
    exact hblocks

theorem toNat_prevS_decoded {s : State} {xs : List Word} (hc : codecLegal s.cfg) (hl : wordsLegal s.cfg xs) (d : Bool) :
    (decoded d xs s).prevS.toNat = frameSig s.cfg xs := by
  have := frameSig_le hc hl
  change (BitVec.ofNat 7 _).toNat = _
  rw [BitVec.toNat_ofNat, Nat.mod_eq_of_lt (by omega)]

theorem HoldsBlocks.toNat_pos_decoded {d : Bool} {s : State} {xs : List Word} {left : Nat} (hs : Inv s)
    (hB : 1 ≤ cfgBlock s.cfg) (hh : HoldsBlocks d s xs left) :
    (decoded d xs s).pos.toNat = ceil8 s.pos.toNat + (streamFrame s.cfg xs).length :=
  toNat_ofNat_lt (lt_two_pow_64_of_le_cap hs (hh.end_le hs hB))

/-! ## A whole frame -/

/-- Settles O38: the frame's values are whole blocks, after which the frame ends. -/
theorem decodeFrameReadsStream : Obligations.DecodeFrameReadsStream := by
  unfold Obligations.DecodeFrameReadsStream
  intro s d xs hs hc hdst hlen hlegal hheld hbelow hroom
  have hh : HoldsBlocks d s xs 0 := ⟨hlen, .inl rfl, hlegal, hheld, hbelow, hroom⟩
  have hend := hh.end_le hs hc.one_le_block
  have hpos := hh.toNat_pos_decoded hs hc.one_le_block
  have hstart := toNat_ceil8 hs
  have hexec := exec_decodeFrame_blocks hs hc hdst hh
  rw [if_pos rfl] at hexec
  have hbits : (finishDecode (decoded d xs s)).frameBits.toNat = (streamFrame s.cfg xs).length :=
    toNat_sub_of_add (by rw [hpos]; exact congrArg (· + _) hstart.symm)
  have hfinal : (finishDecode (decoded d xs s)).pos.toNat = ceil8 (decoded d xs s).pos.toNat :=
    toNat_ofNat_lt (lt_two_pow_64_of_le_cap hs (by rw [hpos]; exact ceil8_le_cap hend))
  refine ⟨_, hexec, rfl, hstart, hbits, ?_, ?_, toNat_prevS_decoded hc hlegal d, rfl, sameBits_of_buf_eq rfl⟩
  · rw [hbits, hfinal, hpos]
    exact congrArg (fun p => ceil8 (p + _)) hstart.symm
  · rw [hfinal]
    exact toNat_ofNat_lt (Nat.lt_of_le_of_lt (Nat.div_le_self _ 8)
      (lt_two_pow_64_of_le_cap hs (by rw [hpos]; exact ceil8_le_cap hend)))

/-! ## A block that fails -/

/-- A header code is found only where it lies below LIMIT whole (R116). -/
theorem headerAt_below {s : State} {p : Nat} {hd : Header} (h : headerAt s p = some hd) :
    p + headerLen hd ≤ s.limit.toNat := by
  have hpos := headerLen_pos hd
  by_contra hcut
  have hnone := (bits_of_decodeHeader h).2 (min 12 (s.limit.toNat - p)) (by omega)
  unfold headerAt at h
  rw [hnone] at h
  cases h

/-- A block that fails ends DECODE_FRAME with its CORRUPT. -/
theorem decodeBlocks_of_corrupt {d : Bool} {ix : Nat} {start : Word} {c : Cause} {hd : Header} {s : State}
    (hi : s.inflight = some (.decode d ix [] start)) (hlim : s.limit.toNat ≤ capOf s)
    (hfetch : fetchHeader s = some hd)
    (hblock : decodeBlock d ix start (headerLen hd) (headerSig s.prevS.toNat hd) s = corruptBlock c start s) :
    decodeBlocks s = .next (corruptBlock c start s) := by
  rw [decodeBlocks_boundary hi, hfetch]
  simp only [runHeader_boundary hd hi hlim, hblock]
  exact decodeBlocks_stays (not_atBoundary_of_idle rfl)

/-- Settles O42: after the whole blocks DECODE_FRAME stands at the failing block's start. -/
theorem decodeErrorPartialEffects : Obligations.DecodeErrorPartialEffects := by
  unfold Obligations.DecodeErrorPartialEffects
  intro s d xs p sub hs hc hdst hwhole hlt hlegal hheld hp hbelow hroom hfail
  have hh : HoldsBlocks d s xs (s.nvalues.toNat - xs.length) :=
    ⟨by omega, .inr hwhole, hlegal, hheld, fun hne => by rw [← hp]; exact hbelow hne, hroom⟩
  have hpos := hh.toNat_pos_decoded hs hc.one_le_block
  rw [← hp] at hpos
  have hprev := toNat_prevS_decoded hc hlegal d
  have hexec := exec_decodeFrame_blocks hs hc hdst hh
  rw [if_neg (by omega)] at hexec
  generalize hu : hold (.decode d xs.length [] (decoded d xs s).pos) (decoded d xs s) = u at hexec
  have hi : u.inflight = some (.decode d xs.length [] (decoded d xs s).pos) := by rw [← hu]; rfl
  have hupos : u.pos.toNat = p := by rw [← hu]; exact hpos
  have huprev : u.prevS.toNat = frameSig s.cfg xs := by rw [← hu]; exact hprev
  have hlim : u.limit.toNat ≤ capOf u := by rw [← hu]; exact hs.limit
  have hfetch : fetchHeader u = headerAt s p := by
    rw [← hupos, ← hu]
    rfl
  obtain ⟨c, hcode, hsub, hcorrupt⟩ : ∃ c, errCode c = 1#4 ∧ errSubCode c = sub ∧
      decodeBlocks u = .next (corruptBlock c (decoded d xs s).pos u) := by
    rcases hfail with ⟨hnone, rfl⟩ | ⟨hd, hsome, ⟨hwide, rfl⟩ | ⟨hsig, hcut, rfl⟩⟩
    · refine ⟨.corruptTruncated, rfl, rfl, ?_⟩
      rw [decodeBlocks_boundary hi, hfetch, hnone]
    · have hhead := headerAt_below hsome
      refine ⟨.corruptWidth, rfl, rfl, decodeBlocks_of_corrupt hi hlim (hfetch.trans hsome) ?_⟩
      exact decodeBlock_of_wide (by rw [hupos, ← hu]; exact hhead) (by rw [huprev]; exact hwide)
    · have hhead := headerAt_below hsome
      refine ⟨.corruptTruncated, rfl, rfl, decodeBlocks_of_corrupt hi hlim (hfetch.trans hsome) ?_⟩
      exact decodeBlock_of_body_cut (by rw [hupos, ← hu]; exact hhead) (by rw [huprev]; exact hsig)
        (by rw [hupos, huprev, ← hu]; exact hcut)
  subst hu hsub
  refine ⟨_, hexec.trans hcorrupt, ?_, hpos, toNat_ceil8 hs, hprev, rfl, sameBits_of_buf_eq rfl⟩
  simp only [corruptBlock, raise, hcode]
  rfl

/-! ## A header code by itself -/

/-- The number of values in the block that begins at value `ix` (R108). -/
def blockCount (ix : Nat) (s : State) : Nat := min (cfgBlock s.cfg) (s.nvalues.toNat - ix)

/-- The words of the block at POS, its header of `len` bits giving the count `sig` (R118, R122). -/
def blockWords (d : Bool) (ix len sig : Nat) (s : State) : List Word :=
  if d then [] else (readFields s.buf (s.pos.toNat + len) sig (blockCount ix s)).map fun f =>
    deliverWord s.cfg (fieldInt (cfgSigned s.cfg) sig f)

/-- POS after the block, PREV_S its count (R119, R122). -/
def blockPassed (ix len sig : Nat) (s : State) : State :=
  { s with
    pos := BitVec.ofNat 64 (s.pos.toNat + len + blockCount ix s * sig)
    prevS := BitVec.ofNat 7 sig }

theorem length_blockWords (d : Bool) (ix len sig : Nat) (s : State) :
    (blockWords d ix len sig s).length = if d then 0 else blockCount ix s := by
  cases d <;> simp [blockWords, readFields_length]

/-- A block below LIMIT with a legal count is passed, and its words are delivered (R118, R119, R122). -/
theorem decodeBlock_of_below {d : Bool} {ix len sig : Nat} {start : Word} {s : State} (hsig : sig ≤ 64)
    (hbelow : s.pos.toNat + len + blockCount ix s * sig ≤ s.limit.toNat) :
    decodeBlock d ix start len sig s =
      deliverLoop d (ix + blockCount ix s) start (blockWords d ix len sig s) (blockPassed ix len sig s) := by
  have hhead : s.pos.toNat + len ≤ s.limit.toNat := by omega
  exact (if_neg (Nat.not_lt.2 hhead)).trans ((if_neg (Nat.not_lt.2 hsig)).trans (if_neg (Nat.not_lt.2 hbelow)))

/-- What the block leaves when its words have been pushed. -/
def blockRead (d : Bool) (ix len sig : Nat) (s : State) : State :=
  { blockPassed ix len sig s with valueOut := s.valueOut ++ blockWords d ix len sig s }

theorem decodeBlock_of_room {d : Bool} {ix len sig : Nat} {start : Word} {s : State} (hsig : sig ≤ 64)
    (hbelow : s.pos.toNat + len + blockCount ix s * sig ≤ s.limit.toNat)
    (hroom : d = true ∨ s.valueOut.length + blockCount ix s ≤ s.par.voutDepth) :
    decodeBlock d ix start len sig s =
      if s.nvalues.toNat ≤ ix + blockCount ix s then finishDecode (blockRead d ix len sig s)
      else hold (.decode d (ix + blockCount ix s) [] (blockRead d ix len sig s).pos) (blockRead d ix len sig s) := by
  rw [decodeBlock_of_below hsig hbelow]
  cases d with
  | true =>
    have hnone : blockPassed ix len sig s = blockRead true ix len sig s := by
      simp [blockRead, blockPassed, blockWords]
    rw [← hnone]
    rfl
  | false =>
    refine deliverLoop_all _ _ _ _ _ ?_
    rw [length_blockWords]
    exact hroom.resolve_left (by decide)

/-- Settles O40: the block is read whole, and after it the frame ends or the next block begins. -/
theorem headerCodeDecodesBlock : Obligations.HeaderCodeDecodesBlock := by
  unfold Obligations.HeaderCodeDecodesBlock
  intro s hd d ix start hs hi hsig hfits hroom
  obtain ⟨_, hc, _, _, _, _, _, hempty⟩ := hs.inflight _ hi
  obtain ⟨hix, _⟩ := hempty rfl
  have hexec := exec_toInstr hd s
  rw [runHeader_boundary hd hi hs.limit, decodeBlock_of_room hsig hfits hroom] at hexec
  unfold blockCount at hexec
  generalize hlen : headerLen hd = len at *
  generalize hsg : headerSig s.prevS.toNat hd = sig at *
  have hB := hc.one_le_block
  have hle : s.pos.toNat + len + min (cfgBlock s.cfg) (s.nvalues.toNat - ix) * sig ≤ capOf s :=
    Nat.le_trans hfits hs.limit
  have hpos : (blockRead d ix len sig s).pos.toNat =
      s.pos.toNat + len + min (cfgBlock s.cfg) (s.nvalues.toNat - ix) * sig :=
    toNat_ofNat_lt (lt_two_pow_64_of_le_cap hs hle)
  have hprev : (BitVec.ofNat 7 sig).toNat = sig := by rw [BitVec.toNat_ofNat, Nat.mod_eq_of_lt (by omega)]
  have hout : (blockRead d ix len sig s).valueOut = s.valueOut ++ (if d then []
      else (List.range (min (cfgBlock s.cfg) (s.nvalues.toNat - ix))).map fun j =>
        deliverWord s.cfg (fieldInt (cfgSigned s.cfg) sig (memRead s.buf (s.pos.toNat + len + j * sig) sig))) := by
    simp only [blockRead, blockWords, readFields_eq_map, List.map_map]
    rfl
  by_cases hend : s.nvalues.toNat ≤ ix + cfgBlock s.cfg
  · have hmin : min (cfgBlock s.cfg) (s.nvalues.toNat - ix) = s.nvalues.toNat - ix := Nat.min_eq_right (by omega)
    rw [if_pos (by omega)] at hexec
    rw [hmin] at hpos hle
    have h64 := lt_two_pow_64_of_le_cap hs (ceil8_le_cap hle)
    have hfinal : (finishDecode (blockRead d ix len sig s)).pos.toNat =
        ceil8 (s.pos.toNat + len + (s.nvalues.toNat - ix) * sig) := by
      rw [← hpos] at h64 ⊢
      exact toNat_ofNat_lt h64
    refine ⟨_, hexec, rfl, hprev, hout, fun hlt => by omega, fun _ => ⟨rfl, hfinal, ?_, ?_⟩, sameBits_of_buf_eq rfl⟩
    · rw [hfinal, ← hpos]
      rw [← hpos] at h64
      exact toNat_ofNat_lt (Nat.lt_of_le_of_lt (Nat.div_le_self _ 8) h64)
    · rw [← hpos, BitVec.ofNat_toNat, BitVec.setWidth_eq]
      rfl
  · have hmin : min (cfgBlock s.cfg) (s.nvalues.toNat - ix) = cfgBlock s.cfg := Nat.min_eq_left (by omega)
    rw [if_neg (by omega)] at hexec
    refine ⟨_, hexec, rfl, hprev, hout, fun _ => ⟨?_, ?_, rfl, rfl⟩, fun hle => absurd hle hend, sameBits_of_buf_eq rfl⟩
    · rw [← hmin]
      exact hpos
    · conv_rhs => rw [← hmin]
      rfl

/-! ## The round trip -/

section Congr
variable {c c' : Word} (hsg : cfgSigned c' = cfgSigned c) (hpb : cfgPb c' = cfgPb c)
include hsg hpb

theorem streamSig_congr (xs : List Word) : streamSig c' xs = streamSig c xs := by
  unfold streamSig
  rw [hsg, hpb]

theorem streamBlocks_congr : ∀ (bs : List (List Word)) (prev : Nat), streamBlocks c' prev bs = streamBlocks c prev bs
  | [], _ => rfl
  | xs :: r, prev => by
    simp only [streamBlocks, streamBlock, streamSig_congr hsg hpb, streamBlocks_congr r]

theorem lastSig_congr : ∀ (bs : List (List Word)) (prev : Nat), lastSig c' prev bs = lastSig c prev bs
  | [], _ => rfl
  | xs :: r, prev => by simp only [lastSig, streamSig_congr hsg hpb, lastSig_congr r]

theorem wordsLegal_congr {xs : List Word} (h : wordsLegal c xs) : wordsLegal c' xs := by
  intro x hx
  rw [hsg, hpb]
  exact h x hx

end Congr

/-- A word is what it is read as. -/
theorem eq_of_readAs {sg : Bool} {x y : Word} (h : readAs sg x = readAs sg y) : x = y := by
  cases sg with
  | true => exact BitVec.eq_of_toInt_eq h
  | false => exact BitVec.eq_of_toNat_eq (Int.natCast_inj.1 h)

/-- A legal word is read as the value it carries, which fits PB bits (R36). -/
theorem wordValue_of_legal {sg : Bool} {pb : Nat} {x : Word} (hpb : pb ≤ 64) (h : wordLegal sg pb x = true) :
    wordValue sg pb x = readAs sg x ∧ fitsWidth sg pb (wordValue sg pb x) := by
  cases sg with
  | true => exact ⟨wordValue_signed hpb h, wordValue_bounds pb x⟩
  | false =>
    obtain ⟨hval, hlt⟩ := wordValue_unsigned h
    rw [hval]
    exact ⟨rfl, Int.natCast_nonneg _, by exact_mod_cast hlt⟩

theorem fitsWidth_mono {sg : Bool} {n k : Nat} {v : Int} (hnk : n ≤ k) (h : fitsWidth sg n v) : fitsWidth sg k v := by
  cases sg with
  | true =>
    obtain ⟨hlo, hhi⟩ := h
    have hpow : (2 : Int) ^ (n - 1) ≤ 2 ^ (k - 1) := by
      exact_mod_cast Nat.pow_le_pow_right (by decide) (Nat.sub_le_sub_right hnk 1)
    exact ⟨by omega, by omega⟩
  | false =>
    obtain ⟨hlo, hhi⟩ := h
    have hpow : (2 : Int) ^ n ≤ 2 ^ k := by exact_mod_cast Nat.pow_le_pow_right (by decide) hnk
    exact ⟨hlo, by omega⟩

/-- What fits the destination's width lies in its range (R100). -/
theorem dst_mem_of_fitsWidth {c : Word} {v : Int} (h : fitsWidth (cfgDsigned c) (dstWidth c) v) :
    dstMin c ≤ v ∧ v ≤ dstMax c := by
  unfold fitsWidth at h
  unfold dstMin dstMax
  push_cast
  split_ifs at h ⊢ <;> omega

/-- A destination of the values' signedness and at least their width takes each word as it is (R37, R100). -/
theorem deliverWord_of_legal {c : Word} {x : Word} (hpb : cfgPb c ≤ 64) (hsg : cfgDsigned c = cfgSigned c)
    (hwide : cfgPb c ≤ dstWidth c) (h : wordLegal (cfgSigned c) (cfgPb c) x = true) :
    deliverWord c (wordValue (cfgSigned c) (cfgPb c) x) = x := by
  obtain ⟨hval, hfits⟩ := wordValue_of_legal hpb h
  rw [← hsg] at hval hfits ⊢
  have hdst := fitsWidth_mono hwide hfits
  have hclamp := clamp_of_mem (dst_mem_of_fitsWidth hdst)
  obtain ⟨h1, h64⟩ := dstWidth_bounds c
  refine eq_of_readAs (sg := cfgDsigned c) ?_
  rw [← hval, deliverWord, hclamp]
  exact readAs_fieldWord h1 h64 hdst

/-- Settles O39: encoding without an error wrote the frame of legal words that decoding then reads, word by word. -/
theorem frameRoundTrip : Obligations.FrameRoundTrip := by
  unfold Obligations.FrameRoundTrip
  intro s u t hs hu hc hthere henc _ _ hfaults hbuf hpar hpos hnv hblock hpb hsg hdsg hwide hlimit hroom
  obtain ⟨hlegal, hfits⟩ := legal_of_encodeFrame_ok hs hc hthere henc hfaults
  obtain ⟨t', ht', _, hstart, hbits, _, hend, hprev, hheld, _, _⟩ :=
    encodeFrameWritesStream s hs hc hthere hlegal hfits
  cases henc.symm.trans ht'
  have hlen : (s.valueIn.take s.nvalues.toNat).length = s.nvalues.toNat := by rw [List.length_take]; omega
  generalize hxs : s.valueIn.take s.nvalues.toNat = xs at *
  have hcu : codecLegal u.cfg := by
    unfold codecLegal
    rw [hblock, hpb]
    exact hc
  have hdst : destinationLegal u.cfg := by
    constructor
    · rw [hsg, hdsg]
      rintro ⟨h1, h2⟩
      cases h1.symm.trans h2
    · rw [hpb]
      exact fun h => absurd h.1 (Nat.not_lt.2 hwide)
  have hframe : streamFrame u.cfg xs = streamFrame s.cfg xs := by
    unfold streamFrame
    rw [hblock, streamBlocks_congr hsg hpb]
  have hsig : frameSig u.cfg xs = frameSig s.cfg xs := by
    unfold frameSig
    rw [hblock, lastSig_congr hsg hpb]
  have hlegal' : wordsLegal u.cfg xs := wordsLegal_congr hsg hpb hlegal
  have hendLen : t.pos.toNat = ceil8 s.pos.toNat + (streamFrame s.cfg xs).length := by rw [hend, hstart, hbits]
  obtain ⟨w, hw, heq, hwstart, hwbits, hwpos, _, hwprev, hwout, _⟩ :=
    decodeFrameReadsStream u false xs hu hcu hdst (by rw [hnv]; exact hlen) hlegal'
      (by rw [hbuf, hpos, hframe, ← hstart]; exact hheld)
      (fun _ => by rw [hpos, hframe, ← hendLen]; exact hlimit)
      (.inr (by rw [hlen]; exact hroom))
  have hwords : (xs.map fun x => deliverWord u.cfg (wordValue (cfgSigned u.cfg) (cfgPb u.cfg) x)) = xs := by
    conv_rhs => rw [← List.map_id xs]
    refine List.map_congr_left fun x hx => ?_
    exact deliverWord_of_legal hcu.pb_le_64 (hdsg.trans hsg.symm) (by rw [hpb]; exact hwide) (hlegal' x hx)
  refine ⟨w, hw, by rw [heq], by rw [heq], ?_, BitVec.eq_of_toNat_eq ?_, BitVec.eq_of_toNat_eq ?_, ?_⟩
  · rw [hwout, hwords]
    rfl
  · rw [hwprev, hprev, hsig]
  · rw [hwbits, hbits, hframe]
  · rw [hwpos, hwstart, hwbits, hendLen, hframe, hpos]

end Sys2Proof.Machine
end

section
/-! PROOFS. What DECODE_FRAME does not depend on: the bits at or above LIMIT, and when VALUE_OUT is emptied (R8, R14, R16,
R26, R40, R116). -/

namespace Sys2Proof.Machine

/-! ## Changes of the state that decoding commutes with -/

/-- The outcome with its next state changed. -/
def mapNext (g : State → State) : Host.Outcome State Fault Refusal → Host.Outcome State Fault Refusal
  | .next s => .next (g s)
  | .fault r => .fault r
  | .refused r => .refused r

/-- `g` changes nothing of the states in `P` that decoding blocks looks at. -/
structure CommutesWithDecoding (P : State → Prop) (g : State → State) : Prop where
  inflight : ∀ s, (g s).inflight = s.inflight
  limit : ∀ s, (g s).limit = s.limit
  corrupt : ∀ c start s, corruptBlock c start (g s) = g (corruptBlock c start s)
  fetch : ∀ s, P s → fetchHeader (g s) = fetchHeader s
  run : ∀ hd s, P s → runHeader hd (g s) = mapNext g (runHeader hd s)
  keeps : ∀ hd s t, P s → runHeader hd s = .next t → P t

theorem CommutesWithDecoding.decodeLoop {P : State → Prop} {g : State → State} (hg : CommutesWithDecoding P g) :
    ∀ (fuel : Nat) (s : State), P s → decodeLoop fuel (g s) = mapNext g (decodeLoop fuel s)
  | 0, _, _ => rfl
  | fuel + 1, s, hs => by
    by_cases hb : atBoundary s
    · obtain ⟨d, ix, start, hi⟩ := hb
      have hi' : (g s).inflight = some (.decode d ix [] start) := (hg.inflight s).trans hi
      simp only [Machine.decodeLoop, hi, hi', hg.fetch s hs]
      cases fetchHeader s with
      | none => exact congrArg _ (hg.corrupt _ _ s)
      | some hd =>
        simp only [hg.run hd s hs]
        cases hr : runHeader hd s with
        | next t => exact hg.decodeLoop fuel t (hg.keeps hd s t hs hr)
        | fault r => rfl
        | refused r => rfl
    · have hb' : ¬atBoundary (g s) := by
        rintro ⟨d, ix, start, hi⟩
        exact hb ⟨d, ix, start, (hg.inflight s).symm.trans hi⟩
      rw [decodeLoop_stays hb, decodeLoop_stays hb']
      rfl

theorem CommutesWithDecoding.decodeBlocks {P : State → Prop} {g : State → State} (hg : CommutesWithDecoding P g)
    {s : State} (hs : P s) : decodeBlocks (g s) = mapNext g (decodeBlocks s) := by
  unfold Machine.decodeBlocks
  rw [hg.limit, hg.decodeLoop _ s hs]

/-! ## Bits at or above LIMIT -/

/-- The state with another BUF. -/
def withBuf (m : Memory) (s : State) : State := { s with buf := m }

/-- `m` reads as BUF below LIMIT. -/
def sameBelowLimit (m : Memory) (s : State) : Prop := ∀ q, q < s.limit.toNat → memBit m q = memBit s.buf q

theorem deliverLoop_withBuf (m : Memory) (d : Bool) (ix : Nat) (start : Word) : ∀ (out : List Word) (s : State),
    deliverLoop d ix start out (withBuf m s) = withBuf m (deliverLoop d ix start out s)
  | [], s => by
    simp only [deliverLoop, apply_ite (withBuf m)]
    rfl
  | y :: r, s => by
    simp only [deliverLoop, apply_ite (withBuf m)]
    rw [← deliverLoop_withBuf m d ix start r]
    rfl

theorem fetchHeader_withBuf {m : Memory} {s : State} (h : sameBelowLimit m s) :
    fetchHeader (withBuf m s) = fetchHeader s := by
  have hbits : memRead m s.pos.toNat (min 12 (s.limit.toNat - s.pos.toNat)) =
      memRead s.buf s.pos.toNat (min 12 (s.limit.toNat - s.pos.toNat)) :=
    memRead_congr fun i hi => h _ (by omega)
  exact congrArg (decodeHeader _) hbits

/-- A block is read only where it lies below LIMIT (R116). -/
theorem decodeBlock_withBuf {m : Memory} {s : State} (h : sameBelowLimit m s) (d : Bool) (ix : Nat) (start : Word)
    (len sig : Nat) : decodeBlock d ix start len sig (withBuf m s) = withBuf m (decodeBlock d ix start len sig s) := by
  by_cases hcut : s.limit.toNat < s.pos.toNat + len
  · rw [decodeBlock_of_header_cut hcut, decodeBlock_of_header_cut (s := withBuf m s) hcut]
    rfl
  by_cases hwide : 64 < sig
  · rw [decodeBlock_of_wide (Nat.not_lt.1 hcut) hwide, decodeBlock_of_wide (s := withBuf m s) (Nat.not_lt.1 hcut) hwide]
    rfl
  by_cases hbody : s.limit.toNat < s.pos.toNat + len + blockCount ix s * sig
  · rw [decodeBlock_of_body_cut (Nat.not_lt.1 hcut) (Nat.not_lt.1 hwide) hbody,
      decodeBlock_of_body_cut (s := withBuf m s) (Nat.not_lt.1 hcut) (Nat.not_lt.1 hwide) hbody]
    rfl
  · have hread : readFields m (s.pos.toNat + len) sig (blockCount ix s) =
        readFields s.buf (s.pos.toNat + len) sig (blockCount ix s) :=
      readFields_congr _ _ _ fun i hi => h _ (by omega)
    have hwords : blockWords d ix len sig (withBuf m s) = blockWords d ix len sig s := by
      unfold blockWords
      rw [← hread]
      rfl
    rw [decodeBlock_of_below (Nat.not_lt.1 hwide) (Nat.not_lt.1 hbody),
      decodeBlock_of_below (s := withBuf m s) (Nat.not_lt.1 hwide) (Nat.not_lt.1 hbody), hwords, ← deliverLoop_withBuf]
    rfl

/-- At a block boundary with LIMIT in BUF a change that keeps both, and that the block commutes with, commutes with the
header code. -/
theorem runHeader_of_decodeBlock {g : State → State} {s : State} (hi : (g s).inflight = s.inflight)
    (hlim : (g s).limit = s.limit) (hcap : capOf (g s) = capOf s) (hprev : (g s).prevS = s.prevS)
    (hblock : ∀ d ix start len sig, decodeBlock d ix start len sig (g s) = g (decodeBlock d ix start len sig s))
    (hd : Header) : runHeader hd (g s) = mapNext g (runHeader hd s) := by
  have hx : ∀ len sig, execHeader len sig (g s) = mapNext g (execHeader len sig s) := by
    intro len sig
    unfold execHeader
    rw [hi, hlim, hcap]
    split
    next d ix start _ =>
      rw [hblock]
      split <;> rfl
    next => rfl
  cases hd with
  | h1 =>
    change execHeader 1 (g s).prevS.toNat (g s) = _
    rw [hprev]
    exact hx _ _
  | h4 b3 => exact hx _ _
  | h6 b2 => exact hx _ _
  | h12 b6 => exact hx _ _

/-- DECODE_FRAME never writes LIMIT or BUF (R26, R47). -/
theorem decodeEnds.kept {d : Bool} {s t : State} (h : decodeEnds d s t) : t.limit = s.limit ∧ t.buf = s.buf := by
  obtain ⟨p, prev, l, ⟨fb, r, rfl⟩ | ⟨ix, out, start, rfl⟩ | ⟨c, start, rfl⟩⟩ := h <;> exact ⟨rfl, rfl⟩

theorem sameBelowLimit_of_eq {m : Memory} {s t : State} (h : sameBelowLimit m s) (hlim : t.limit = s.limit)
    (hbuf : t.buf = s.buf) : sameBelowLimit m t := by
  unfold sameBelowLimit
  rw [hlim, hbuf]
  exact h

theorem commutesWithDecoding_withBuf (m : Memory) : CommutesWithDecoding (sameBelowLimit m) (withBuf m) where
  inflight _ := rfl
  limit _ := rfl
  corrupt _ _ _ := rfl
  fetch _ h := fetchHeader_withBuf h
  run hd _ h := runHeader_of_decodeBlock rfl rfl rfl rfl (decodeBlock_withBuf h) hd
  keeps hd s t h ht := by
    obtain ⟨d, hends⟩ := decodeEnds_runHeader ht
    obtain ⟨hlim, hbuf⟩ := hends.kept
    exact sameBelowLimit_of_eq h hlim hbuf

/-- From the delivery of a block on. -/
theorem decodeBlocks_deliverLoop_withBuf {m : Memory} {s : State} (h : sameBelowLimit m s) (d : Bool) (ix : Nat)
    (start : Word) (out : List Word) :
    decodeBlocks (deliverLoop d ix start out (withBuf m s)) =
      mapNext (withBuf m) (decodeBlocks (deliverLoop d ix start out s)) := by
  obtain ⟨hlim, hbuf⟩ := (decodeEnds_deliverLoop d ix start out s).kept
  rw [deliverLoop_withBuf, (commutesWithDecoding_withBuf m).decodeBlocks (sameBelowLimit_of_eq h hlim hbuf)]

theorem exec_decodeFrame_withBuf {m : Memory} {s : State} (h : sameBelowLimit m s) (d : Bool) :
    exec (.decodeFrame d) (withBuf m s) = mapNext (withBuf m) (exec (.decodeFrame d) s) := by
  simp only [exec, execDecodeFrame, apply_ite (mapNext (withBuf m))]
  rw [← decodeBlocks_deliverLoop_withBuf (s := decodeStart s) h]
  rfl

/-- The step of a DECODE_FRAME that waited, or stands at a block boundary. -/
theorem engineTurn_of_decode {s : State} {d : Bool} {ix : Nat} {out : List Word} {start : Word}
    (hi : s.inflight = some (.decode d ix out start)) :
    engineTurn s = if out = [] then decodeBlocks s else decodeBlocks (deliverLoop d ix start out s) := by
  cases out with
  | nil => exact engineTurn_of_boundary ⟨d, ix, start, hi⟩
  | cons y r =>
    simp only [engineTurn, hi]
    rfl

theorem engineTurn_of_decode_withBuf {m : Memory} {s : State} (h : sameBelowLimit m s) {d : Bool} {ix : Nat}
    {out : List Word} {start : Word} (hi : s.inflight = some (.decode d ix out start)) :
    engineTurn (withBuf m s) = mapNext (withBuf m) (engineTurn s) := by
  rw [engineTurn_of_decode hi, engineTurn_of_decode (s := withBuf m s) hi]
  split
  · exact (commutesWithDecoding_withBuf m).decodeBlocks h
  · exact decodeBlocks_deliverLoop_withBuf h d ix start out

theorem decodeEnds_engineTurn {s t : State} {d : Bool} {ix : Nat} {out : List Word} {start : Word}
    (hi : s.inflight = some (.decode d ix out start)) (h : engineTurn s = .next t) : decodeEnds d s t := by
  rw [engineTurn_of_decode hi] at h
  split at h
  next hout =>
    subst hout
    refine decodeEnds_decodeLoop d _ s t s ⟨s.pos, s.prevS, [], .inr (.inl ⟨ix, [], start, ?_⟩)⟩ h
    simp [hold, ← hi]
  next => exact decodeEnds_decodeBlocks h

/-- Whose turn a step is does not depend on BUF. -/
theorem hostWaits_withBuf {m : Memory} {s : State} (h : hostWaits s) : hostWaits (withBuf m s) := h

/-- Settles O44: a run from the changed state is the run from the first with its BUF changed. -/
theorem decodeReadsOnlyBelowLimit : Obligations.DecodeReadsOnlyBelowLimit := by
  unfold Obligations.DecodeReadsOnlyBelowLimit
  refine fun s d m t hsame => ⟨fun h => ⟨?_, ?_⟩, fun ix out start hi hwaits h => ?_⟩
  · have hwrite := onlyNamedCommandsWrite _ s t h
    obtain ⟨_, _, _, _, _, hbuf, _⟩ := hwrite
    by_contra hne
    simpa using hbuf hne
  · exact (exec_decodeFrame_withBuf hsame d).trans (congrArg _ h)
  · rw [step_of_hostWaits hwaits] at h
    obtain ⟨_, hbuf⟩ := (decodeEnds_engineTurn hi h).kept
    refine ⟨hbuf, (step_of_hostWaits (hostWaits_withBuf hwaits)).trans ?_⟩
    exact (engineTurn_of_decode_withBuf hsame hi).trans (congrArg _ h)

/-! ## Words popped from VALUE_OUT -/

/-- `s` is of an engine `k` deeper than `p` says, and holds `k` words to pop. -/
def deepOf (p : Params) (k : Nat) (s : State) : Prop :=
  s.par = { p with voutDepth := p.voutDepth + k, ooutDepth := p.ooutDepth + k } ∧ k ≤ s.valueOut.length

theorem deepOf_deeper {k : Nat} {s : State} (h : k ≤ s.valueOut.length) : deepOf s.par k (deeper k s) := ⟨rfl, h⟩

theorem deliverLoop_popDeeper (p : Params) (k : Nat) (d : Bool) (ix : Nat) (start : Word) :
    ∀ (out : List Word) (s : State), deepOf p k s →
    deliverLoop d ix start out (popDeeper p k s) = popDeeper p k (deliverLoop d ix start out s)
  | [], s, _ => by
    simp only [deliverLoop, apply_ite (popDeeper p k)]
    rfl
  | y :: r, s, ⟨hpar, hk⟩ => by
    have hroom : (s.valueOut.drop k).length < p.voutDepth ↔ s.valueOut.length < s.par.voutDepth := by
      rw [hpar, List.length_drop]
      change _ ↔ _ < p.voutDepth + k
      omega
    have hpush : popDeeper p k { s with valueOut := s.valueOut ++ [y] } =
        { popDeeper p k s with valueOut := (popDeeper p k s).valueOut ++ [y] } := by
      simp only [popDeeper, List.drop_append_of_le_length hk]
    by_cases h : s.valueOut.length < s.par.voutDepth
    · rw [deliverLoop, deliverLoop, if_pos h, if_pos (by exact hroom.2 h), ← hpush]
      exact deliverLoop_popDeeper p k d ix start r _ ⟨hpar, by simp; omega⟩
    · rw [deliverLoop, deliverLoop, if_neg h, if_neg (by exact mt hroom.1 h)]
      rfl

theorem decodeBlock_popDeeper {p : Params} {k : Nat} {s : State} (h : deepOf p k s) (d : Bool) (ix : Nat) (start : Word)
    (len sig : Nat) :
    decodeBlock d ix start len sig (popDeeper p k s) = popDeeper p k (decodeBlock d ix start len sig s) := by
  unfold decodeBlock
  simp only [apply_ite (popDeeper p k)]
  rw [← deliverLoop_popDeeper p k d _ start _ _ (by exact h)]
  rfl

/-- From a state that is deep, instructions lead to states that are. -/
theorem deepOf_of_hostKept {p : Params} {k : Nat} {s t : State} (h : deepOf p k s) (hkept : hostKept s t) :
    deepOf p k t := by
  obtain ⟨hpar, hk⟩ := h
  obtain ⟨_, _, _, _, hpar', _, _, _, _, _, ⟨l, hl⟩, _⟩ := hkept
  exact ⟨hpar'.trans hpar, by rw [hl, List.length_append]; omega⟩

theorem hostKept_runHeader {hd : Header} {s t : State} (h : runHeader hd s = .next t) : hostKept s t :=
  exec_hostKept (i := hd.toInstr) (by rw [exec_toInstr]; exact h)

theorem commutesWithDecoding_popDeeper (p : Params) (k : Nat) :
    CommutesWithDecoding (deepOf p k) (popDeeper p k) where
  inflight _ := rfl
  limit _ := rfl
  corrupt _ _ _ := rfl
  fetch _ _ := rfl
  run hd s h := runHeader_of_decodeBlock rfl rfl (by
    change p.cap = s.par.cap
    rw [h.1]
    rfl) rfl (decodeBlock_popDeeper h) hd
  keeps _ _ _ h ht := deepOf_of_hostKept h (hostKept_runHeader ht)

/-! ## DECODE_FRAME that waits -/

theorem deliverLoop_inflight (f : Option InFlight) (d : Bool) (ix : Nat) (start : Word) :
    ∀ (out : List Word) (s : State), deliverLoop d ix start out { s with inflight := f } = deliverLoop d ix start out s
  | [], _ => rfl
  | y :: r, s => by
    simp only [deliverLoop]
    rw [deliverLoop_inflight f d ix start r { s with valueOut := s.valueOut ++ [y] }]
    rfl

/-- A block's words all find room, or VALUE_OUT is full after some of them. -/
theorem split_at_room (out : List Word) {held depth : Nat} (h : held ≤ depth) :
    held + out.length ≤ depth ∨ ∃ a b, out = a ++ b ∧ b ≠ [] ∧ held + a.length = depth := by
  by_cases hroom : held + out.length ≤ depth
  · exact .inl hroom
  · refine .inr ⟨out.take (depth - held), out.drop (depth - held), (List.take_append_drop _ _).symm, ?_, ?_⟩
    · exact List.length_pos_iff.1 (by rw [List.length_drop]; omega)
    · rw [List.length_take]
      omega

/-- VALUE_OUT's depth decides neither whether a block is abandoned nor what its words are. -/
theorem decodeBlock_deeper_cases (d : Bool) (ix : Nat) (start : Word) (len sig : Nat) (s : State) :
    (∃ c, ∀ k, decodeBlock d ix start len sig (deeper k s) = corruptBlock c start (deeper k s)) ∨
      ∀ k, decodeBlock d ix start len sig (deeper k s) =
        deliverLoop d (ix + blockCount ix s) start (blockWords d ix len sig s) (deeper k (blockPassed ix len sig s)) := by
  by_cases hcut : s.limit.toNat < s.pos.toNat + len
  · exact .inl ⟨_, fun k => decodeBlock_of_header_cut (s := deeper k s) hcut⟩
  by_cases hwide : 64 < sig
  · exact .inl ⟨_, fun k => decodeBlock_of_wide (s := deeper k s) (Nat.not_lt.1 hcut) hwide⟩
  by_cases hbody : s.limit.toNat < s.pos.toNat + len + blockCount ix s * sig
  · exact .inl ⟨_, fun k => decodeBlock_of_body_cut (s := deeper k s) (Nat.not_lt.1 hcut) (Nat.not_lt.1 hwide) hbody⟩
  · exact .inr fun k => decodeBlock_of_below (s := deeper k s) (Nat.not_lt.1 hwide) (Nat.not_lt.1 hbody)

/-- DECODE_FRAME held `f` in `t`, after it came to deliver `out` in `s`: VALUE_OUT is full, words are still to push, the
counts add up, and an engine deeper by any `k` comes to deliver the same words. -/
def HeldFrom (d : Bool) (ix : Nat) (start : Word) (out : List Word) (s t : State) (f : InFlight) : Prop :=
  d = false ∧ ∃ ix' out' start', f = .decode d ix' out' start' ∧ out' ≠ [] ∧ ix' ≤ s.nvalues.toNat ∧
    t.valueOut.length = s.par.voutDepth ∧
    s.valueOut.length + out.length + ix' = t.valueOut.length + out'.length + ix ∧
    ∀ k, decodeBlocks (deliverLoop d ix start out (deeper k s)) =
      decodeBlocks (deliverLoop d ix' start' out' (deeper k t))

/-- The delivery that finds no room for all its words holds the rest of them. -/
theorem heldFrom_of_full {d : Bool} {ix : Nat} {start : Word} {a b : List Word} {s : State} (hd : d = true → a ++ b = [])
    (hix : ix ≤ s.nvalues.toNat) (hb : b ≠ []) (hfull : s.valueOut.length + a.length = s.par.voutDepth) :
    deliverLoop d ix start (a ++ b) s = hold (.decode d ix b start) { s with valueOut := s.valueOut ++ a } ∧
      HeldFrom d ix start (a ++ b) s (hold (.decode d ix b start) { s with valueOut := s.valueOut ++ a })
        (.decode d ix b start) := by
  obtain ⟨y, r, rfl⟩ := List.exists_cons_of_ne_nil hb
  have hdf : d = false := by
    cases d with
    | false => rfl
    | true => exact absurd (List.append_eq_nil_iff.1 (hd rfl)).2 hb
  refine ⟨?_, hdf, ix, y :: r, start, rfl, hb, hix, by simp [hfull], by simp; omega, fun k => ?_⟩
  · rw [deliverLoop_take d ix start a (y :: r) s (by omega), deliverLoop]
    exact if_neg (by simp [hfull])
  · rw [deliverLoop_take d ix start a (y :: r) (deeper k s) (by
      change s.valueOut.length + a.length ≤ s.par.voutDepth + k
      omega)]
    exact congrArg _ (deliverLoop_inflight _ d ix start (y :: r) (deeper k { s with valueOut := s.valueOut ++ a })).symm

/-- The blocks in one turn end the frame, raise CORRUPT, or hold at a delivery as `HeldFrom` says (R14, R16). -/
theorem decodeLoop_waits (d : Bool) : ∀ (fuel ix : Nat) (start : Word) (out : List Word) (s t : State) (f : InFlight),
    (d = true → out = []) → ix ≤ s.nvalues.toNat → s.valueOut.length ≤ s.par.voutDepth → s.limit.toNat ≤ capOf s →
    decodeLoop fuel (deliverLoop d ix start out s) = .next t → ¬atBoundary t → t.inflight = some f →
    HeldFrom d ix start out s t f := by
  intro fuel
  induction fuel with
  | zero =>
    intro ix start out s t f hd hix hv _ h hb hf
    cases h
    rcases split_at_room out hv with hroom | ⟨a, b, rfl, hne, hfull⟩
    · rw [deliverLoop_all d ix start out s hroom] at hf hb
      split at hf
      · cases hf
      · rename_i hmore
        exact absurd ⟨_, _, _, by rw [if_neg hmore]; rfl⟩ hb
    · obtain ⟨heq, hheld⟩ := heldFrom_of_full hd hix hne hfull
      rw [heq] at hf ⊢
      cases hf
      exact hheld
  | succ fuel ih =>
    intro ix start out s t f hd hix hv hlim h hb hf
    rcases split_at_room out hv with hroom | ⟨a, b, rfl, hne, hfull⟩
    · have hall : ∀ k, deliverLoop d ix start out (deeper k s) =
          if s.nvalues.toNat ≤ ix then finishDecode (deeper k { s with valueOut := s.valueOut ++ out })
          else hold (.decode d ix [] s.pos) (deeper k { s with valueOut := s.valueOut ++ out }) := fun k =>
        deliverLoop_all d ix start out (deeper k s) (by
          change s.valueOut.length + out.length ≤ s.par.voutDepth + k
          omega)
      have hself := hall 0
      change deliverLoop d ix start out s = _ at hself
      by_cases hend : s.nvalues.toNat ≤ ix
      · rw [hself, if_pos hend, decodeLoop_stays (not_atBoundary_of_idle rfl)] at h
        cases h
        cases hf
      · rw [hself, if_neg hend] at h
        simp only [if_neg hend] at hall
        generalize hu : hold (.decode d ix [] s.pos) { s with valueOut := s.valueOut ++ out } = u
        have hdeep : ∀ k, hold (.decode d ix [] s.pos) (deeper k { s with valueOut := s.valueOut ++ out }) = deeper k u :=
          fun k => by rw [← hu]; rfl
        have hi : u.inflight = some (.decode d ix [] s.pos) := by rw [← hu]; rfl
        rw [hdeep] at h
        change decodeLoop (fuel + 1) u = _ at h
        simp only [hdeep] at hall
        simp only [decodeLoop, hi] at h
        cases hfetch : fetchHeader u with
        | none =>
          rw [hfetch] at h
          cases h
          cases hf
        | some hd' =>
          have hlim' : u.limit.toNat ≤ capOf u := by rw [← hu]; exact hlim
          have hrun : ∀ k, runHeader hd' (deeper k u) = .next
              (decodeBlock d ix s.pos (headerLen hd') (headerSig u.prevS.toNat hd') (deeper k u)) := fun k =>
            runHeader_boundary (s := deeper k u) hd' hi hlim'
          have hrun0 := hrun 0
          change runHeader hd' u = _ at hrun0
          rw [hfetch] at h
          simp only [hrun0] at h
          rcases decodeBlock_deeper_cases d ix s.pos (headerLen hd') (headerSig u.prevS.toNat hd') u with
            ⟨c, hcorrupt⟩ | hblock
          · rw [hcorrupt, decodeLoop_stays (not_atBoundary_of_idle rfl)] at h
            cases h
            cases hf
          · rw [hblock] at h
            have hcount : blockCount ix u = min (cfgBlock s.cfg) (s.nvalues.toNat - ix) := by rw [← hu]; rfl
            obtain ⟨hdf, ix', out', start', hfl, hne, hix', hlen, hsum, hgo⟩ :=
              ih (ix + blockCount ix u) s.pos _ (blockPassed ix (headerLen hd') (headerSig u.prevS.toNat hd') u) t f
                (fun hdt => by simp [blockWords, hdt])
                (by
                  change _ ≤ u.nvalues.toNat
                  rw [hcount, ← hu]
                  change _ ≤ s.nvalues.toNat
                  omega)
                (by
                  change u.valueOut.length ≤ u.par.voutDepth
                  rw [← hu]
                  simpa using hroom)
                hlim' h hb hf
            refine ⟨hdf, ix', out', start', hfl, hne, ?_, ?_, ?_, fun k => ?_⟩
            · change ix' ≤ u.nvalues.toNat at hix'
              rwa [← hu] at hix'
            · change _ = u.par.voutDepth at hlen
              rwa [← hu] at hlen
            · change u.valueOut.length + _ + _ = _ at hsum
              have hlen' : u.valueOut.length = s.valueOut.length + out.length := by rw [← hu]; simp
              rw [length_blockWords, hdf, hlen', if_neg (by decide)] at hsum
              omega
            · have hi' : (deeper k u).inflight = some (.decode d ix [] s.pos) := hi
              have hfetch' : fetchHeader (deeper k u) = some hd' := hfetch
              rw [hall, decodeBlocks_boundary hi', hfetch']
              simp only [hrun, hblock]
              exact hgo k
    · obtain ⟨heq, hheld⟩ := heldFrom_of_full (start := start) hd hix hne hfull
      rw [heq, decodeLoop_stays (by
        rintro ⟨_, _, _, h⟩
        cases h
        exact hne rfl)] at h
      cases h
      cases hf
      exact hheld

/-! ## Decoding never stops -/

theorem runHeader_next {s : State} (hb : atBoundary s) (hlim : s.limit.toNat ≤ capOf s) (hd : Header) :
    ∃ t, runHeader hd s = .next t := by
  obtain ⟨d, ix, start, hi⟩ := hb
  exact ⟨_, runHeader_boundary hd hi hlim⟩

/-- With LIMIT in BUF no block of a frame stops the machine. -/
theorem decodeLoop_next : ∀ (fuel : Nat) (s : State), s.limit.toNat ≤ capOf s → ∃ t, decodeLoop fuel s = .next t
  | 0, s, _ => ⟨s, rfl⟩
  | fuel + 1, s, hlim => by
    by_cases hb : atBoundary s
    · obtain ⟨d, ix, start, hi⟩ := id hb
      simp only [decodeLoop, hi]
      cases fetchHeader s with
      | none => exact ⟨_, rfl⟩
      | some hd =>
        obtain ⟨t, ht⟩ := runHeader_next hb hlim hd
        simp only [ht]
        obtain ⟨_, hends⟩ := decodeEnds_runHeader ht
        obtain ⟨_, _, _, _, hpar, _⟩ := hostKept_runHeader ht
        refine decodeLoop_next fuel t ?_
        unfold capOf
        rw [hends.kept.1, hpar]
        exact hlim
    · exact ⟨s, decodeLoop_stays hb _⟩

theorem decodeBlocks_next {s : State} (hlim : s.limit.toNat ≤ capOf s) : ∃ t, decodeBlocks s = .next t :=
  decodeLoop_next _ s hlim

/-- Delivering a block's words changes neither LIMIT nor CAP. -/
theorem limit_le_deliverLoop {d : Bool} {ix : Nat} {start : Word} {out : List Word} {s : State}
    (hlim : s.limit.toNat ≤ capOf s) :
    (deliverLoop d ix start out s).limit.toNat ≤ capOf (deliverLoop d ix start out s) := by
  obtain ⟨l, h | ⟨out', start', h⟩⟩ := deliverLoop_ends d ix start out s <;> rw [h] <;> exact hlim

/-! ## When VALUE_OUT is emptied -/

/-- DECODE_FRAME that is in flight afterwards has passed its checks. -/
theorem legal_of_exec_decodeFrame_waits {d : Bool} {s t : State} {f : InFlight} (h : exec (.decodeFrame d) s = .next t)
    (hf : t.inflight = some f) : codecLegal s.cfg ∧ destinationLegal s.cfg := by
  simp only [exec, execDecodeFrame] at h
  split_ifs at h with hblock hpb hsign hnarrow
  · cases h; cases hf
  · cases h; cases hf
  · exact ⟨⟨hblock, hpb⟩, hsign, hnarrow⟩
  · cases h; cases hf
  · cases h; cases hf

/-- Settles O43: the deeper engine comes to the delivery that was held, and goes on from there with the room that the
pops make. -/
theorem decodeWaitingChangesNoValue : Obligations.DecodeWaitingChangesNoValue := by
  unfold Obligations.DecodeWaitingChangesNoValue
  intro s d t f hs h hf
  obtain ⟨hc, hdst⟩ := legal_of_exec_decodeFrame_waits h hf
  have hnb := exec_decodeFrame_not_atBoundary h
  obtain ⟨_, _, _, _, hpar, _⟩ := exec_hostKept h
  have hlimit : t.limit = s.limit := by
    by_contra hne
    have hload := (onlyNamedCommandsWrite _ s t h).1 (.inl hne)
    cases hload
  rw [exec_decodeFrame_of_legal d hc hdst hs.limit] at h
  obtain ⟨hdf, ix, out, start, rfl, hne, hix, hfull, hsum, hgo⟩ :=
    decodeLoop_waits d _ 0 _ [] (decodeStart s) t f (fun _ => rfl) (Nat.zero_le _) hs.vout hs.limit h hnb hf
  subst hdf
  refine ⟨⟨rfl, ix, out, start, rfl, hne, hix, hfull, hsum⟩, fun k hk => ?_⟩
  have hlim : (deeper k t).limit.toNat ≤ capOf (deeper k t) := by
    change t.limit.toNat ≤ t.par.cap
    rw [hlimit, hpar]
    exact hs.limit
  obtain ⟨v, hv⟩ := decodeBlocks_next (limit_le_deliverLoop (d := false) (ix := ix) (start := start) (out := out) hlim)
  have hdeep : exec (.decodeFrame false) (deeper k s) = .next v := by
    rw [exec_decodeFrame_of_legal false (s := deeper k s) hc hdst hs.limit, ← hv]
    exact hgo k
  have hdeepOf : deepOf t.par k (deliverLoop false ix start out (deeper k t)) := by
    obtain ⟨l, heq | ⟨out', start', heq⟩⟩ := deliverLoop_ends false ix start out (deeper k t)
    · rw [heq]
      refine ⟨rfl, ?_⟩
      change k ≤ (t.valueOut ++ l).length
      rw [List.length_append]
      omega
    · rw [heq]
      refine ⟨rfl, ?_⟩
      change k ≤ (t.valueOut ++ l).length
      rw [List.length_append]
      omega
  refine ⟨v, hdeep, ?_⟩
  have hpop := (commutesWithDecoding_popDeeper t.par k).decodeBlocks hdeepOf
  rw [← deliverLoop_popDeeper t.par k false ix start out _ (deepOf_deeper hk), hv] at hpop
  rw [← hpar]
  exact hpop

end Sys2Proof.Machine
end

section
/-! PROOFS. Every step of a sound state has a next state, and a sound one (R8, R22, R26 to R28, R35, R39, R40, R138). -/

namespace Sys2Proof.Machine

/-! ## Soundness apart from the command in flight -/

/-- A sound state with no command in flight. -/
theorem Inv.retire {s : State} (h : Inv s) : Inv (retire s) := { h with inflight := by rintro _ ⟨⟩ }

/-- A command that must wait keeps the state sound if it agrees with the registers (R40). -/
theorem Inv.hold {s : State} (h : Inv (Machine.retire s)) {f : InFlight} (hf : inflightSound s f) : Inv (hold f s) :=
  { h with inflight := by rintro _ ⟨⟩; exact hf }

theorem errCode_le_six (c : Cause) : (errCode c).toNat ≤ 6 := by cases c <;> decide

/-- An error raised is recorded, and leaves no command in flight (R22, R138, R157). -/
theorem Inv.raise {s : State} (h : Inv (Machine.retire s)) (op : BitVec 8) (c : Cause) : Inv (raise op c s) :=
  { h with
    err := errCode_le_six c
    errZero := fun h0 => absurd h0 (errCode_ne_zero c)
    recorded := fun _ => rfl
    inflight := by rintro _ ⟨⟩ }

theorem Inv.clearError {s : State} (h : Inv (Machine.retire s)) : Inv (Machine.retire (clearError s)) :=
  { h with
    err := Nat.zero_le 6
    errZero := fun _ => ⟨rfl, rfl⟩
    recorded := fun h0 => absurd rfl h0
    inflight := by rintro _ ⟨⟩ }

section Updates
variable {s : State} (h : Inv (Machine.retire s))
include h

theorem Inv.setPos {p : Nat} (hp : p ≤ capOf s) : Inv (Machine.retire { s with pos := BitVec.ofNat 64 p }) :=
  { h with
    pos := by
      change (BitVec.ofNat 64 p).toNat ≤ capOf s
      rw [toNat_ofNat_lt (lt_two_pow_64_of_le_cap h hp)]
      exact hp
    inflight := by rintro _ ⟨⟩ }

theorem Inv.setPosWord {p : Word} (hp : p.toNat ≤ capOf s) : Inv (Machine.retire { s with pos := p }) :=
  { h with pos := hp, inflight := by rintro _ ⟨⟩ }

theorem Inv.setResult (r : Word) : Inv (Machine.retire { s with result := r }) :=
  { h with inflight := by rintro _ ⟨⟩ }

theorem Inv.setBuf {m : Memory} (hwf : m.wf = true) (hwithin : m.within s.par.octets = true) :
    Inv (Machine.retire { s with buf := m }) :=
  { h with bufWf := hwf, bufWithin := hwithin, inflight := by rintro _ ⟨⟩ }

/-- A field written below CAP (R12, R47, R59). -/
theorem Inv.writeField {p n : Nat} (v : Nat) (hp : p + n ≤ capOf s) :
    Inv (Machine.retire { s with buf := memWrite s.buf p n v }) :=
  Inv.setBuf h (memWrite_wf n p v h.bufWf) (memWrite_within n v h.bufWf h.bufWithin hp)

/-- Octets zeroed up to CAP (R132, R136). -/
theorem Inv.zeroFill (c : Nat) : Inv (Machine.retire { s with buf := zeroOctets s.buf c s.par.octets }) :=
  Inv.setBuf h (zeroOctets_wf h.bufWf c _) (zeroOctets_within h.bufWf h.bufWithin c)

theorem Inv.popValueIn {x : Word} {q : List Word} (hin : s.valueIn = x :: q) :
    Inv (Machine.retire { s with valueIn := q }) :=
  { h with
    vin := by
      have hlen : s.valueIn.length ≤ s.par.vinDepth := h.vin
      rw [hin] at hlen
      exact Nat.le_of_succ_le hlen
    inflight := by rintro _ ⟨⟩ }

theorem Inv.popOctetIn {o : Octet} {q : List Octet} (hin : s.octetIn = o :: q) :
    Inv (Machine.retire { s with octetIn := q }) :=
  { h with
    oin := by
      have hlen : s.octetIn.length ≤ s.par.oinDepth := h.oin
      rw [hin] at hlen
      exact Nat.le_of_succ_le hlen
    inflight := by rintro _ ⟨⟩ }

theorem Inv.pushValueOut (hroom : s.valueOut.length < s.par.voutDepth) (y : Word) :
    Inv (Machine.retire { s with valueOut := s.valueOut ++ [y] }) :=
  { h with vout := by simpa using hroom, inflight := by rintro _ ⟨⟩ }

theorem Inv.pushOctetOut (hroom : s.octetOut.length < s.par.ooutDepth) (o : Octet) :
    Inv (Machine.retire { s with octetOut := s.octetOut ++ [o] }) :=
  { h with oout := by simpa using hroom, inflight := by rintro _ ⟨⟩ }

end Updates

/-! ## The loops -/

/-- The values of a series still to come, one less. -/
theorem series_succ (p left w : Nat) : p + (left + 1) * w = p + w + left * w := by
  rw [Nat.add_mul, Nat.one_mul]
  omega

theorem inv_appendLoop {n : BitVec 7} (hn : widthLegal n = true) : ∀ (left : Nat) (s : State), Inv (retire s) →
    s.err = 0#4 → left ≤ s.cnt.toNat → s.pos.toNat + left * n.toNat ≤ capOf s → Inv (appendLoop n left s)
  | 0, _, h, _, _, _ => h
  | left + 1, s, h, herr, hleft, hfits => by
    cases hin : s.valueIn with
    | nil =>
      rw [appendLoop_nil n _ s hin, if_neg (by omega)]
      have hrest : s.cnt.toNat - (s.cnt.toNat - (left + 1)) = left + 1 := by omega
      exact h.hold ⟨herr, hn, by omega, by rw [hrest]; exact hfits⟩
    | cons x q =>
      rw [series_succ] at hfits
      have hnext : s.pos.toNat + n.toNat ≤ capOf s := by omega
      have hp := toNat_ofNat_lt (lt_two_pow_64_of_le_cap h hnext)
      simp only [appendLoop, hin]
      refine inv_appendLoop hn left _ ?_ herr (Nat.le_of_succ_le hleft) (by rw [hp]; exact hfits)
      exact Inv.setPos (Inv.writeField (h.popValueIn hin) x.toNat hnext) hnext

theorem inv_extractLoop {n : BitVec 7} (sg : Bool) (hn : widthLegal n = true) : ∀ (left : Nat) (s : State),
    Inv (retire s) → s.err = 0#4 → left ≤ s.cnt.toNat → s.pos.toNat + left * n.toNat ≤ capOf s →
    Inv (extractLoop n sg left s)
  | 0, _, h, _, _, _ => h
  | left + 1, s, h, herr, hleft, hfits => by
    rw [extractLoop]
    split
    next hroom =>
      rw [series_succ] at hfits
      have hnext : s.pos.toNat + n.toNat ≤ capOf s := by omega
      have hp := toNat_ofNat_lt (lt_two_pow_64_of_le_cap h hnext)
      refine inv_extractLoop sg hn left _ ?_ herr (Nat.le_of_succ_le hleft) (by rw [hp]; exact hfits)
      exact Inv.setPos (h.pushValueOut hroom _) hnext
    next =>
      have hrest : s.cnt.toNat - (s.cnt.toNat - (left + 1)) = left + 1 := by omega
      exact h.hold ⟨herr, hn, by omega, by rw [hrest]; exact hfits⟩

theorem inv_serializeLoop : ∀ (left : Nat) (s : State), Inv (retire s) → s.err = 0#4 → left ≤ payloadOctets s →
    Inv (serializeLoop left s)
  | 0, _, h, _, _ => h.setResult _
  | left + 1, s, h, herr, hleft => by
    rw [serializeLoop]
    split
    next hroom => exact inv_serializeLoop left _ (h.pushOctetOut hroom _) herr (Nat.le_of_succ_le hleft)
    next => exact h.hold ⟨herr, by omega⟩

theorem inv_finishLoad {s : State} (h : Inv (retire s)) (hfits : 8 * s.cnt.toNat ≤ capOf s) : Inv (finishLoad s) :=
  { h.zeroFill s.cnt.toNat with
    pos := Nat.zero_le _
    limit := by
      change (BitVec.ofNat 64 (8 * s.cnt.toNat)).toNat ≤ capOf s
      rw [toNat_ofNat_lt (lt_two_pow_64_of_le_cap h hfits)]
      exact hfits
    inflight := by rintro _ ⟨⟩ }

theorem inv_loadLoop : ∀ (left : Nat) (s : State), Inv (retire s) → s.err = 0#4 → left ≤ s.cnt.toNat →
    8 * s.cnt.toNat ≤ capOf s → Inv (loadLoop left s)
  | 0, _, h, _, _, hfits => inv_finishLoad h hfits
  | left + 1, s, h, herr, hleft, hfits => by
    cases hin : s.octetIn with
    | nil =>
      rw [loadLoop_nil _ s hin, if_neg (by omega)]
      exact h.hold ⟨herr, by omega, hfits⟩
    | cons o q =>
      simp only [loadLoop, hin]
      refine inv_loadLoop left _ ?_ herr (Nat.le_of_succ_le hleft) hfits
      have hoctet : 8 * (s.cnt.toNat - (left + 1)) + 8 ≤ capOf s := by omega
      exact Inv.writeField (h.popOctetIn hin) o.toNat hoctet

/-- A block that is written had legal words and fits (R110, R111). -/
theorem legal_of_encodeBlock_ok {xs : List Word} {s t : State} (hb : encodeBlock xs s = .ok t) :
    wordsLegal s.cfg xs ∧ s.pos.toNat + (streamBlock s.cfg s.prevS.toNat xs).length ≤ capOf s := by
  have hlegal : wordsLegal s.cfg xs := by
    by_contra hill
    rw [encodeBlock_of_illegal hill] at hb
    cases hb
  refine ⟨hlegal, ?_⟩
  by_contra hmis
  rw [encodeBlock_of_misfit hlegal (Nat.not_le.1 hmis)] at hb
  cases hb

theorem inv_encodeBlock {xs : List Word} {s t : State} (h : Inv (retire s)) (hc : codecLegal s.cfg)
    (hb : encodeBlock xs s = .ok t) : Inv (retire t) := by
  obtain ⟨hlegal, hfits⟩ := legal_of_encodeBlock_ok hb
  obtain ⟨m, hm, hwf, hwithin, _⟩ := encodeBlock_writes (s := s) h.bufWf hc hlegal hfits
  cases hb.symm.trans hm
  have hprev : (BitVec.ofNat 7 (streamSig s.cfg xs)).toNat ≤ 64 := by
    rw [ofNat_streamSig hc hlegal]
    exact streamSig_le_64 hc hlegal
  exact { Inv.setPos (Inv.setBuf h hwf (hwithin _ h.bufWithin le_rfl)) hfits with
    prevS := hprev
    inflight := by rintro _ ⟨⟩ }

theorem inv_encodeLoop : ∀ (left : Nat) (vals : List Word) (s : State), Inv (retire s) → s.err = 0#4 →
    codecLegal s.cfg → left ≤ s.nvalues.toNat → vals.length < cfgBlock s.cfg → vals.length + left ≤ s.nvalues.toNat →
    Inv (encodeLoop left vals s.pos s)
  | 0, _, _, h, _, _, _, _, _ => { h with inflight := by rintro _ ⟨⟩ }
  | left + 1, vals, s, h, herr, hc, hleft, hvals, hcount => by
    cases hin : s.valueIn with
    | nil =>
      have hwait : encodeLoop (left + 1) vals s.pos s = hold (.encode (s.nvalues.toNat - (left + 1)) vals s.pos) s := by
        simp [encodeLoop, hin]
      rw [hwait]
      exact h.hold ⟨herr, hc, by omega, hvals, by omega, rfl⟩
    | cons x q =>
      have hlen : (vals ++ [x]).length = vals.length + 1 := by simp
      have hpop := h.popValueIn hin
      by_cases hmore : (vals ++ [x]).length < min (cfgBlock s.cfg) ((vals ++ [x]).length + left)
      · rw [encodeLoop_of_more hin hmore]
        exact inv_encodeLoop left (vals ++ [x]) { s with valueIn := q } hpop herr hc (Nat.le_of_succ_le hleft)
          (by change _ < cfgBlock s.cfg; omega) (by change _ ≤ s.nvalues.toNat; omega)
      · cases hb : encodeBlock (vals ++ [x]) { s with valueIn := q } with
        | error c =>
          rw [encodeLoop_of_error hin hmore hb]
          exact Inv.raise hpop _ c
        | ok t =>
          rw [encodeLoop_of_whole hin hmore hb]
          have ht := inv_encodeBlock hpop hc hb
          obtain ⟨m, p, prev, rfl⟩ := encodeBlock_ok hb
          exact inv_encodeLoop left [] _ ht herr hc (Nat.le_of_succ_le hleft) hc.one_le_block
            (by change 0 + left ≤ s.nvalues.toNat; omega)

/-! ## DECODE_FRAME -/

theorem inv_finishDecode {s : State} (h : Inv (retire s)) : Inv (finishDecode s) :=
  { Inv.setPos h (ceil8_le_cap h.pos) with inflight := by rintro _ ⟨⟩ }

/-- The delivery of a block's words, `ix` of the frame's values being read (R122). -/
theorem inv_deliverLoop {d : Bool} {ix : Nat} {start : Word} : ∀ (out : List Word) (s : State), Inv (retire s) →
    s.err = 0#4 → codecLegal s.cfg → destinationLegal s.cfg → ix ≤ s.nvalues.toNat → start.toNat ≤ capOf s →
    out.length ≤ 64 → (d = true → out = []) → Inv (deliverLoop d ix start out s)
  | [], s, h, herr, hc, hdst, hix, _, _, hd => by
    rw [deliverLoop]
    split
    next => exact inv_finishDecode h
    next hmore => exact h.hold ⟨herr, hc, hdst, hix, h.pos, Nat.zero_le _, fun _ => rfl, fun _ => ⟨by omega, rfl⟩⟩
  | y :: r, s, h, herr, hc, hdst, hix, hstart, hlen, hd => by
    have hd' : d = true → r = [] := fun hdt => by cases hd hdt
    rw [deliverLoop]
    split
    next hroom =>
      exact inv_deliverLoop r _ (h.pushValueOut hroom y) herr hc hdst hix hstart (Nat.le_of_succ_le hlen) hd'
    next => exact h.hold ⟨herr, hc, hdst, hix, hstart, hlen, hd, fun hnil => by cases hnil⟩

theorem inv_corruptBlock {s : State} (h : Inv (retire s)) {start : Word} (hstart : start.toNat ≤ capOf s) (c : Cause) :
    Inv (corruptBlock c start s) :=
  Inv.raise (h.setPosWord hstart) _ c

theorem inv_decodeBlock {d : Bool} {ix : Nat} {start : Word} {s : State} (h : Inv s)
    (hi : s.inflight = some (.decode d ix [] start)) (len sig : Nat) : Inv (decodeBlock d ix start len sig s) := by
  obtain ⟨herr, hc, hdst, _, hstart, _, _, hempty⟩ := h.inflight _ hi
  obtain ⟨hix, _⟩ := hempty rfl
  by_cases hcut : s.limit.toNat < s.pos.toNat + len
  · rw [decodeBlock_of_header_cut hcut]
    exact inv_corruptBlock h.retire hstart _
  by_cases hwide : 64 < sig
  · rw [decodeBlock_of_wide (Nat.not_lt.1 hcut) hwide]
    exact inv_corruptBlock h.retire hstart _
  by_cases hbody : s.limit.toNat < s.pos.toNat + len + blockCount ix s * sig
  · rw [decodeBlock_of_body_cut (Nat.not_lt.1 hcut) (Nat.not_lt.1 hwide) hbody]
    exact inv_corruptBlock h.retire hstart _
  · rw [decodeBlock_of_below (Nat.not_lt.1 hwide) (Nat.not_lt.1 hbody)]
    have hcount : blockCount ix s ≤ cfgBlock s.cfg ∧ ix + blockCount ix s ≤ s.nvalues.toNat := by
      unfold blockCount
      omega
    have hprev : (BitVec.ofNat 7 sig).toNat ≤ 64 := by rw [BitVec.toNat_ofNat]; omega
    have hpassed : Inv (retire (blockPassed ix len sig s)) :=
      { Inv.setPos h.retire (Nat.le_trans (Nat.not_lt.1 hbody) h.limit) with
        prevS := hprev
        inflight := by rintro _ ⟨⟩ }
    have hB := hc.block_le_64
    refine inv_deliverLoop _ _ hpassed herr hc hdst hcount.2 hstart ?_ fun hdt => by simp [blockWords, hdt]
    rw [length_blockWords]
    split <;> omega

theorem inv_runHeader {hd : Header} {s t : State} (h : Inv s) (ht : runHeader hd s = .next t) : Inv t := by
  obtain ⟨d, ix, start, hi⟩ := atBoundary_of_runHeader ht
  rw [eq_decodeBlock_of_runHeader hi ht]
  exact inv_decodeBlock h hi _ _

theorem inv_decodeLoop : ∀ (fuel : Nat) (s t : State), Inv s → decodeLoop fuel s = .next t → Inv t
  | 0, _, _, h, ht => by cases ht; exact h
  | fuel + 1, s, t, h, ht => by
    by_cases hb : atBoundary s
    · obtain ⟨d, ix, start, hi⟩ := hb
      obtain ⟨_, _, _, _, hstart, _⟩ := h.inflight _ hi
      simp only [decodeLoop, hi] at ht
      split at ht
      · cases ht
        exact inv_corruptBlock h.retire hstart _
      · split at ht
        next u hu => exact inv_decodeLoop fuel u t (inv_runHeader h hu) ht
        next => cases ht
        next => cases ht
    · rw [decodeLoop_stays hb] at ht
      cases ht
      exact h

theorem inv_decodeBlocks {s t : State} (h : Inv s) (ht : decodeBlocks s = .next t) : Inv t := inv_decodeLoop _ s t h ht

/-! ## Every instruction -/

theorem inv_decodeStart {s : State} (h : Inv s) : Inv (retire (decodeStart s)) :=
  { Inv.setPos h.retire (ceil8_le_cap h.pos) with
    prevS := Nat.zero_le _
    frameStart := by
      change (BitVec.ofNat 64 (ceil8 s.pos.toNat)).toNat % 8 = 0 ∧ (BitVec.ofNat 64 (ceil8 s.pos.toNat)).toNat ≤ capOf s
      rw [toNat_ceil8 h]
      exact ⟨ceil8_mod _, ceil8_le_cap h.pos⟩
    inflight := by rintro _ ⟨⟩ }

theorem inv_encodeStart {s : State} (h : Inv s) : Inv (retire (encodeStart s)) := by
  have hgap : s.pos.toNat + (ceil8 s.pos.toNat - s.pos.toNat) ≤ capOf s := by
    rw [Nat.add_sub_cancel' (le_ceil8 _)]
    exact ceil8_le_cap h.pos
  have hbuf := Inv.writeField h.retire 0 hgap
  have hstart := inv_decodeStart h
  exact { hstart with bufWf := hbuf.bufWf, bufWithin := hbuf.bufWithin }

/-- An instruction started with no error recorded, or CLRERR, keeps a sound state sound. -/
theorem inv_exec {i : Instr} {s t : State} (h : Inv s) (herr : s.err = 0#4 ∨ i = .clrerr) (ht : exec i s = .next t) :
    Inv t := by
  have hr := h.retire
  cases i with
  | nop => cases ht; exact hr
  | clrerr => cases ht; exact hr.clearError
  | getpos => cases ht; exact hr.setResult _
  | align => cases ht; exact hr.setPos (ceil8_le_cap h.pos)
  | clear =>
    cases ht
    exact Inv.setPosWord (hr.zeroFill 0) (Nat.zero_le _)
  | setpos =>
    simp only [exec, execSetpos] at ht
    split_ifs at ht with hcap <;> cases ht
    · exact hr.raise _ _
    · exact hr.setPosWord (Nat.not_lt.1 hcap)
  | advance =>
    simp only [exec, execAdvance] at ht
    split_ifs at ht with hcap <;> cases ht
    · exact hr.raise _ _
    · have hcap64 := lt_two_pow_64_of_le_cap h (le_refl (capOf s))
      refine hr.setPosWord ?_
      have hq := toNat_ofInt_of_bounds (q := s.pos.toNat + s.arg.toInt) (by omega) (by omega)
      omega
  | readbit =>
    simp only [exec, execReadbit] at ht
    split_ifs at ht <;> cases ht
    · exact hr.raise _ _
    · exact hr.setResult _
  | writebit =>
    simp only [exec, execWritebit] at ht
    split_ifs at ht with hcap <;> cases ht
    · exact hr.raise _ _
    · exact hr.writeField _ (Nat.not_lt.1 hcap)
  | read n sg =>
    simp only [exec, execRead] at ht
    split_ifs at ht with _ hcap <;> cases ht
    · exact hr.raise _ _
    · exact hr.raise _ _
    · exact (hr.setPos (Nat.not_lt.1 hcap)).setResult _
  | write n =>
    simp only [exec, execWrite] at ht
    split_ifs at ht with _ hcap <;> cases ht
    · exact hr.raise _ _
    · exact hr.raise _ _
    · exact Inv.setPos (hr.writeField _ (Nat.not_lt.1 hcap)) (Nat.not_lt.1 hcap)
  | append n =>
    simp only [exec, execAppend] at ht
    split_ifs at ht with hn hcap <;> cases ht
    · exact hr.raise _ _
    · exact hr.raise _ _
    · exact inv_appendLoop (by simpa using hn) _ s hr (herr.resolve_right (by simp)) le_rfl (Nat.not_lt.1 hcap)
  | extract n sg =>
    simp only [exec, execExtract] at ht
    split_ifs at ht with hn hcap <;> cases ht
    · exact hr.raise _ _
    · exact hr.raise _ _
    · exact inv_extractLoop sg (by simpa using hn) _ s hr (herr.resolve_right (by simp)) le_rfl (Nat.not_lt.1 hcap)
  | serialize =>
    simp only [exec, execSerialize] at ht
    split_ifs at ht
    cases ht
    exact inv_serializeLoop _ s hr (herr.resolve_right (by simp)) le_rfl
  | load =>
    simp only [exec, execLoad] at ht
    split_ifs at ht with hcap <;> cases ht
    · exact hr.raise _ _
    · exact inv_loadLoop _ s hr (herr.resolve_right (by simp)) le_rfl (Nat.not_lt.1 hcap)
  | encodeFrame =>
    simp only [exec, execEncodeFrame] at ht
    split_ifs at ht with hblock hpb <;> cases ht
    · exact inv_encodeLoop _ [] (encodeStart s) (inv_encodeStart h) (herr.resolve_right (by simp)) ⟨hblock, hpb⟩ le_rfl
        hblock.1 (Nat.zero_add _).le
    · exact hr.raise _ _
    · exact hr.raise _ _
  | decodeFrame d =>
    simp only [exec, execDecodeFrame] at ht
    split_ifs at ht with hblock hpb hsign hnarrow
    · cases ht; exact hr.raise _ _
    · cases ht; exact hr.raise _ _
    · refine inv_decodeBlocks (inv_deliverLoop [] _ (inv_decodeStart h) (herr.resolve_right (by simp)) ⟨hblock, hpb⟩
        ⟨hsign, hnarrow⟩ (Nat.zero_le _) ?_ (Nat.zero_le _) fun _ => rfl) ht
      exact (inv_decodeStart h).pos
    · cases ht; exact hr.raise _ _
    · cases ht; exact hr.raise _ _
  | h1 => exact inv_runHeader (hd := .h1) h ht
  | h4 b3 => exact inv_runHeader (hd := .h4 b3) h ht
  | h6 b2 => exact inv_runHeader (hd := .h6 b2) h ht
  | h12 b6 => exact inv_runHeader (hd := .h12 b6) h ht

/-! ## The engine's turn -/

/-- CLRERR's word decodes to CLRERR (R72, R140). -/
theorem eq_clrerr_of_decode {i : Instr} (h : decodeCommand 0x1F#64 = .ok i) : i = .clrerr := by
  have hdec : decodeCommand 0x1F#64 = .ok .clrerr := by decide
  cases hdec.symm.trans h
  rfl

/-- A command that waited and agrees with the registers goes on, and keeps the state sound (R14, R40). -/
theorem resume_sound {s : State} {f : InFlight} (h : Inv s) (hi : s.inflight = some f) (hissued : ∀ w, f ≠ .issued w) :
    ∃ t, resume f s = .next t ∧ Inv t := by
  have hf := h.inflight f hi
  have hr := h.retire
  cases f with
  | issued w => exact absurd rfl (hissued w)
  | append n done =>
    obtain ⟨herr, hn, hdone, hfits⟩ := hf
    exact ⟨_, resume_append_of_fits hfits, inv_appendLoop hn _ s hr herr (Nat.sub_le _ _) hfits⟩
  | extract n sg done =>
    obtain ⟨herr, hn, hdone, hfits⟩ := hf
    exact ⟨_, resume_extract_of_fits sg hfits, inv_extractLoop sg hn _ s hr herr (Nat.sub_le _ _) hfits⟩
  | serialize done =>
    obtain ⟨herr, hdone⟩ := hf
    exact ⟨_, resume_serialize_of_fits h.pos, inv_serializeLoop _ s hr herr (Nat.sub_le _ _)⟩
  | load done =>
    obtain ⟨herr, hdone, hfits⟩ := hf
    exact ⟨_, resume_load_of_fits hfits, inv_loadLoop _ s hr herr (Nat.sub_le _ _) hfits⟩
  | encode ix vals start =>
    obtain ⟨herr, hc, hix, hvals, hle, rfl⟩ := hf
    exact ⟨_, rfl, inv_encodeLoop _ vals s hr herr hc (Nat.sub_le _ _) hvals (by omega)⟩
  | decode d ix out start =>
    obtain ⟨herr, hc, hdst, hix, hstart, hlen, hd, _⟩ := hf
    have hdel := inv_deliverLoop out s hr herr hc hdst hix hstart hlen hd
    obtain ⟨t, ht⟩ := decodeBlocks_next hdel.limit
    exact ⟨t, ht, inv_decodeBlocks hdel ht⟩

/-- A command word stands for an instruction that never stops the machine in a sound state (log 14). -/
theorem exec_next {w : Word} {i : Instr} {s : State} (h : Inv s) (hdec : decodeCommand w = .ok i) :
    ∃ t, exec i s = .next t := by
  have hhd := ne_toInstr_of_decodeCommand hdec
  cases i with
  | nop | clrerr | getpos | align | clear => exact ⟨_, rfl⟩
  | setpos | advance | readbit | writebit | load =>
    simp only [exec, execSetpos, execAdvance, execReadbit, execWritebit, execLoad]
    split_ifs <;> exact ⟨_, rfl⟩
  | read | write | append | extract =>
    simp only [exec, execRead, execWrite, execAppend, execExtract]
    split_ifs <;> exact ⟨_, rfl⟩
  | serialize => exact ⟨_, if_neg (Nat.not_lt.2 h.pos)⟩
  | encodeFrame =>
    simp only [exec, execEncodeFrame, if_neg (Nat.not_lt.2 h.pos)]
    split_ifs <;> exact ⟨_, rfl⟩
  | decodeFrame d =>
    simp only [exec, execDecodeFrame, if_neg (Nat.not_lt.2 h.limit)]
    split_ifs
    · exact ⟨_, rfl⟩
    · exact ⟨_, rfl⟩
    · exact decodeBlocks_next (limit_le_deliverLoop (s := decodeStart s) h.limit)
    · exact ⟨_, rfl⟩
    · exact ⟨_, rfl⟩
  | h1 => exact absurd rfl (hhd .h1)
  | h4 b3 => exact absurd rfl (hhd (.h4 b3))
  | h6 b2 => exact absurd rfl (hhd (.h6 b2))
  | h12 b6 => exact absurd rfl (hhd (.h12 b6))

/-- The engine's turn takes a sound state to a sound one. -/
theorem engineTurn_sound {s : State} (h : Inv s) : ∃ t, engineTurn s = .next t ∧ Inv t := by
  by_cases hb : atBoundary s
  · obtain ⟨t, ht⟩ := decodeBlocks_next h.limit
    exact ⟨t, (engineTurn_of_boundary hb).trans ht, inv_decodeBlocks h ht⟩
  · cases hi : s.inflight with
    | none => exact ⟨s, by simp only [engineTurn, hi], h⟩
    | some f =>
      by_cases hissued : ∃ w, f = .issued w
      · obtain ⟨w, rfl⟩ := hissued
        have hw : s.err = 0#4 ∨ w = 0x1F#64 := h.inflight _ hi
        cases hdec : decodeCommand w with
        | ok i =>
          obtain ⟨t, ht⟩ := exec_next h hdec
          refine ⟨t, (engineTurn_of_issued hi hdec).trans ht, inv_exec h (hw.imp_right fun hclr => ?_) ht⟩
          subst hclr
          exact eq_clrerr_of_decode hdec
        | error r =>
          refine ⟨illegalCommand w r s, by simp only [engineTurn, hi, hdec], ?_⟩
          exact h.retire.raise _ _
      · have hissued' : ∀ w, f ≠ .issued w := fun w hw => hissued ⟨w, hw⟩
        obtain ⟨t, ht, hinv⟩ := resume_sound h hi hissued'
        exact ⟨t, (engineTurn_of_waiting hi hissued' hb).trans ht, hinv⟩

/-! ## The host and the platform -/

/-- What the host and the ports alone change keeps a sound state sound while every FIFO is within its depth (R8, R35):
a command in flight agrees with registers these updates leave alone. -/
theorem Inv.setHostSide {s : State} (h : Inv s) (host : List HostAct) (seen : List Seen) (draws : Nat) (ovr : Bool)
    {vin vout : List Word} {oin oout : List Octet} (hvin : vin.length ≤ s.par.vinDepth)
    (hvout : vout.length ≤ s.par.voutDepth) (hoin : oin.length ≤ s.par.oinDepth)
    (hoout : oout.length ≤ s.par.ooutDepth) :
    Inv { s with
      host := host, seen := seen, draws := draws, ovr := ovr, valueIn := vin, valueOut := vout, octetIn := oin,
      octetOut := oout } :=
  { h with
    vin := hvin
    vout := hvout
    oin := hoin
    oout := hoout
    inflight := fun f hf => by cases f <;> exact h.inflight _ hf }

/-- A host action that must wait leaves the engine its turn (log 9). -/
theorem step_of_hostAct_none {s : State} {a : HostAct} {rest : List HostAct} (hhost : s.host = a :: rest)
    (hpass : a ≠ .pass) (hact : hostAct a { s with host := rest } = none) : step s = engineTurn s := by
  cases a with
  | pass => exact absurd rfl hpass
  | _ => simp only [step, hhost, hact]

theorem cfgMask_kept (v : Word) : v &&& cfgMask &&& ~~~cfgMask = 0#64 := by
  rw [BitVec.and_assoc, BitVec.and_not_self]
  exact BitVec.and_zero

/-- A write of CMD starts a command only where `inflightSound` allows it (R21, R140). -/
theorem inv_writeCmd {s : State} (h : Inv s) (v : Word) : Inv (writeCmd v s) := by
  by_cases hdrop : s.err ≠ 0#4 ∧ v ≠ 0x1F#64
  · rw [writeCmd_dropped hdrop]
    exact h
  · have hstarts : s.err = 0#4 ∨ v = 0x1F#64 := by
      by_cases h0 : s.err = 0#4
      · exact .inl h0
      · exact .inr (by_contra fun hv => hdrop ⟨h0, hv⟩)
    rw [writeCmd_starts hstarts]
    exact Inv.hold (f := .issued v) h.retire hstarts

theorem inv_hostWrite {s : State} (h : Inv s) (off : Nat) (v : Word) : Inv (hostWrite off v s) := by
  by_cases hidle : s.inflight = none
  · have hnone : ∀ f, s.inflight = some f → False := fun f hf => by cases hidle.symm.trans hf
    by_cases hcmd : off = 0x00
    · subst hcmd
      rw [hostWrite_cmd_of_idle hidle]
      exact inv_writeCmd h v
    by_cases harg : off = 0x10
    · subst harg
      rw [hostWrite_arg hidle]
      exact { h with inflight := fun f hf => (hnone f hf).elim }
    by_cases hcnt : off = 0x18
    · subst hcnt
      rw [hostWrite_cnt hidle]
      exact { h with inflight := fun f hf => (hnone f hf).elim }
    by_cases hlimit : off = 0x30
    · subst hlimit
      rw [hostWrite_limit hidle]
      exact { h with
        limit := by
          change (BitVec.ofNat 64 (min v.toNat (capOf s))).toNat ≤ capOf s
          rw [toNat_ofNat_lt (Nat.lt_of_le_of_lt (Nat.min_le_left _ _) v.isLt)]
          exact Nat.min_le_right _ _
        inflight := fun f hf => (hnone f hf).elim }
    by_cases hcfg : off = 0x38
    · subst hcfg
      rw [hostWrite_cfg hidle]
      exact { h with cfg := cfgMask_kept v, inflight := fun f hf => (hnone f hf).elim }
    by_cases hnvalues : off = 0x40
    · subst hnvalues
      rw [hostWrite_nvalues hidle]
      exact { h with inflight := fun f hf => (hnone f hf).elim }
    · rw [hostWrite_ignored hidle v ⟨hcmd, harg, hcnt, hlimit, hcfg, hnvalues⟩]
      exact h
  · rw [hostWrite_of_busy hidle]
    split
    · exact h.setHostSide s.host s.seen s.draws true h.vin h.vout h.oin h.oout
    · exact h

theorem inv_hostRead {s : State} (h : Inv s) (off : Nat) : Inv (hostRead off s) := by
  have hseen : ∀ v draws, Inv { observe off v s with draws := draws } := fun _ draws =>
    h.setHostSide s.host _ draws s.ovr h.vin h.vout h.oin h.oout
  unfold hostRead
  split_ifs
  · exact hseen _ _
  · exact hseen _ _
  · exact hseen _ s.draws

/-- The reset input makes a sound state, whatever was there (R160). -/
theorem inv_platformReset {s : State} (h : Inv s) : Inv (platformReset s) where
  params := h.params
  bufWf := rfl
  bufWithin := rfl
  pos := Nat.zero_le _
  limit := Nat.zero_le _
  cfg := (by decide : State.reset.cfg &&& ~~~cfgMask = 0#64)
  prevS := Nat.zero_le _
  frameStart := ⟨rfl, Nat.zero_le _⟩
  err := Nat.zero_le _
  errZero := fun _ => ⟨rfl, rfl⟩
  recorded := fun h0 => absurd rfl h0
  vin := Nat.zero_le _
  vout := Nat.zero_le _
  oin := Nat.zero_le _
  oout := Nat.zero_le _
  inflight := by rintro _ ⟨⟩

/-- A host action that is taken keeps a sound state sound (R35, R45, R160). -/
theorem inv_hostAct {a : HostAct} {s t : State} (h : Inv s) (ht : hostAct a s = some t) : Inv t := by
  cases a with
  | write off v => cases ht; exact inv_hostWrite h off v
  | read off => cases ht; exact inv_hostRead h off
  | pushValue x =>
    simp only [hostAct] at ht
    split_ifs at ht with hroom
    cases ht
    exact h.setHostSide s.host s.seen s.draws s.ovr (by simpa using hroom) h.vout h.oin h.oout
  | pushOctet o =>
    simp only [hostAct] at ht
    split_ifs at ht with hroom
    cases ht
    exact h.setHostSide s.host s.seen s.draws s.ovr h.vin h.vout (by simpa using hroom) h.oout
  | popValue =>
    have hvout := h.vout
    cases hq : s.valueOut with
    | nil => simp [hostAct, hq] at ht
    | cons y q =>
      simp only [hostAct, hq] at ht
      cases ht
      rw [hq] at hvout
      exact h.setHostSide s.host _ s.draws s.ovr h.vin (Nat.le_of_succ_le hvout) h.oin h.oout
  | popOctet =>
    have hoout := h.oout
    cases hq : s.octetOut with
    | nil => simp [hostAct, hq] at ht
    | cons o q =>
      simp only [hostAct, hq] at ht
      cases ht
      rw [hq] at hoout
      exact h.setHostSide s.host _ s.draws s.ovr h.vin h.vout h.oin (Nat.le_of_succ_le hoout)
  | waitIdle =>
    simp only [hostAct] at ht
    split_ifs at ht
    cases ht
    exact h
  | pass => cases ht
  | reset => cases ht; exact inv_platformReset h

/-- A step from a sound state has a next state, and that is sound. -/
theorem step_sound {s : State} (h : Inv s) : ∃ t, step s = .next t ∧ Inv t := by
  have hlater : ∀ rest, Inv { s with host := rest } := fun rest =>
    h.setHostSide rest s.seen s.draws s.ovr h.vin h.vout h.oin h.oout
  cases hhost : s.host with
  | nil =>
    rw [step_of_hostWaits (hostWaits_of_nil hhost)]
    exact engineTurn_sound h
  | cons a rest =>
    by_cases hpass : a = .pass
    · subst hpass
      rw [step_of_pass hhost]
      exact engineTurn_sound (hlater rest)
    · cases hact : hostAct a { s with host := rest } with
      | some t => exact ⟨t, step_of_hostAct hhost hpass hact, inv_hostAct (hlater rest) hact⟩
      | none =>
        rw [step_of_hostAct_none hhost hpass hact]
        exact engineTurn_sound h

/-- Settles O55: the engine's turn and every host action keep a sound state sound. -/
theorem stepKeepsSound : Obligations.StepKeepsSound := by
  unfold Obligations.StepKeepsSound
  intro s t h ht
  obtain ⟨u, hu, hinv⟩ := step_sound h
  cases hu.symm.trans ht
  exact hinv

/-- Settles O56. -/
theorem soundStepNeverStops : Obligations.SoundStepNeverStops := by
  unfold Obligations.SoundStepNeverStops
  intro s h
  obtain ⟨t, ht, _⟩ := step_sound h
  exact ⟨t, ht⟩

end Sys2Proof.Machine
end
